-- ==== Sys2Proof/Word.lean ====
section
/-! DEFINITION. The word and byte types (00_scope.md R7: registers and commands are 32-bit words). -/

namespace Sys2Proof

/-- A 32-bit word: CMD, ARGn, RESn, STATUS, ERRCODE, ERRCMD, ID, PARAM and the `bits` field (R7). -/
abbrev Word := BitVec 32

/-- A byte of a polynomial buffer, of STAGE or of the byte source. -/
abbrev Byte := BitVec 8

end Sys2Proof
end

