-- ==== Sys2Proof/Config.lean ====
section
/-! DEFINITION. What an implementation fixes (00_scope.md R7) and the free values the spec leaves open. -/

namespace Sys2Proof

/-- The layout convention of a polynomial register (10_state.md R20, R22): 0 = BIG, 1 = LITTLE. -/
inductive LayoutOrder where
  | big
  | little
  deriving DecidableEq, Repr

/-- The parameters of an implementation. CAPB is OPEN in the spec (R7, D3), so it is held as data and every
statement about all states is about every CAPB. BASE and LAT enter no rule of the unit (R50, R129; log 17). -/
structure Config where
  capb : Nat
  deriving DecidableEq, Repr

namespace Config

/-- NPREG, the number of polynomial registers (R7, D2). -/
def npreg : Nat := 16

/-- WMAX = 8 * CAPB, the largest width a command may produce or allocate (R7). -/
def wmax (c : Config) : Nat := 8 * c.capb

/-- The bounds the spec puts on CAPB (R7): 1 <= CAPB <= 2048. -/
abbrev Legal (c : Config) : Prop := 1 ≤ c.capb ∧ c.capb ≤ 2048

/-- FREE VALUE (log 2, log 11). The n-th draw: the byte a read of a STAGE byte not written since reset returns
(20_memory.md R44: "returns any value"), and the bytes of a response the spec leaves unspecified (R120, R121). -/
opaque draw : Nat → Byte

/-- FREE VALUE (log 3). What an unspecified byte of a register's buffer holds, by byte index (10_state.md R26, R39).
No command can observe one (R28). -/
opaque bufferFill : Nat → Byte

end Config

end Sys2Proof
end

