-- ==== Sys2Proof/Syntax.lean ====
section
/-! DEFINITION. The thirteen commands (30_encoding.md R60), one constructor per row of the opcode table. -/

namespace Sys2Proof

/-- A polynomial register P0-P15. The field is 4 bits wide, so it has no out-of-range value (10_state.md R20, D2). -/
abbrev Reg := Fin 16

/-- A command. Its operands stand in the order of the assembler syntax (30_encoding.md R63). Scalar operands are not
in the command: they come from ARG0-ARG2 when it executes (R59). -/
inductive Instr where
  /-- construct from bytes; `defw` is the D bit, `o` the O bit (R57, R71) -/
  | load (rd : Reg) (defw : Bool) (o : LayoutOrder)
  /-- construct from the byte source (R72) -/
  | rand (rd : Reg) (o : LayoutOrder)
  /-- copy a register's bytes to STAGE (R73) -/
  | store (ra : Reg)
  /-- read a register's descriptor (R74) -/
  | info (ra : Reg)
  /-- read one coefficient (R80) -/
  | get (ra : Reg)
  /-- write one coefficient in place (R82) -/
  | set (rd : Reg)
  /-- extract a condensed polynomial (R83) -/
  | slice (rd ra : Reg)
  /-- scatter a polynomial into a range, in place (R84) -/
  | setr (rd ra : Reg)
  /-- GF(2) addition, also ADD and SUB (R90) -/
  | xor (rd ra rb : Reg)
  /-- multiply by x^n (R91) -/
  | shl (rd ra : Reg)
  /-- carry-less product (R92) -/
  | mul (rd ra rb : Reg)
  /-- multiply by a single bit (R93) -/
  | muls (rd ra : Reg)
  /-- the division test: `ra` the dividend, `rb` the divisor (R94) -/
  | divt (ra rb : Reg)
  deriving DecidableEq, Repr

end Sys2Proof
end

