-- ==== Sys2Proof/WellFormed.lean ====
section
/-! DEFINITION. Well-formedness. A register operand is a `Fin 16`, an order and a D bit are two-valued, so every term
of `Instr` is well-formed by its type. What can be ill-formed is a command WORD: 30_encoding.md R58 says which words are
legal, by the match and mask of the table of R60. (The checks on host accesses and on pseudo-instructions stand with
those types: `Access.wf` in Machine/Bus.lean, `Pseudo.wf` in Machine/HostProgram.lean.) -/

namespace Sys2Proof

/-- One row of the opcode map (R60): a word w selects the row when `w &&& mask = pattern`. -/
structure OpcodeRow where
  mnemonic : String
  pattern  : Word
  mask     : Word
  deriving DecidableEq, Repr

/-- The thirteen rows of R60, in the spec's order. -/
def opcodeRows : List OpcodeRow :=
  [ ⟨"LOAD",  0x01000000, 0xFF0FFFFC⟩,
    ⟨"RAND",  0x02000000, 0xFF0FFFFE⟩,
    ⟨"STORE", 0x03000000, 0xFFF0FFFF⟩,
    ⟨"INFO",  0x04000000, 0xFFF0FFFF⟩,
    ⟨"GET",   0x10000000, 0xFFF0FFFF⟩,
    ⟨"SET",   0x11000000, 0xFF0FFFFF⟩,
    ⟨"SLICE", 0x12000000, 0xFF00FFFF⟩,
    ⟨"SETR",  0x13000000, 0xFF00FFFF⟩,
    ⟨"XOR",   0x20000000, 0xFF000FFF⟩,
    ⟨"SHL",   0x21000000, 0xFF00FFFF⟩,
    ⟨"MUL",   0x22000000, 0xFF000FFF⟩,
    ⟨"MULS",  0x23000000, 0xFF00FFFF⟩,
    ⟨"DIVT",  0x24000000, 0xFFF00FFF⟩ ]

/-- A word selects a row (R60). -/
def OpcodeRow.selects (r : OpcodeRow) (w : Word) : Bool := w &&& r.mask == r.pattern

/-- A word is legal if and only if it selects a row (R58). -/
def wordLegal (w : Word) : Bool := opcodeRows.any (·.selects w)

/-- The row of a command: its place in the table of R60. -/
def Instr.mnemonic : Instr → String
  | .load _ _ _ => "LOAD"
  | .rand _ _ => "RAND"
  | .store _ => "STORE"
  | .info _ => "INFO"
  | .get _ => "GET"
  | .set _ => "SET"
  | .slice _ _ => "SLICE"
  | .setr _ _ => "SETR"
  | .xor _ _ _ => "XOR"
  | .shl _ _ => "SHL"
  | .mul _ _ _ => "MUL"
  | .muls _ _ => "MULS"
  | .divt _ _ => "DIVT"

/-- Two rows could select one word: their patterns agree on every bit both masks cover. -/
def OpcodeRow.overlaps (a b : OpcodeRow) : Bool := a.pattern &&& b.mask == b.pattern &&& a.mask

end Sys2Proof
end

