-- ==== Sys2Proof/Decode.lean ====
section
/-! DEFINITION. Decode (30_encoding.md R57, R58, R61), total on every 32-bit word, and the encoder (R57, R60). The
decoder is written from the format and the field columns of R60; the mask and match columns stand apart in
WellFormed.lean, so that the two say the same only by proof. -/

namespace Sys2Proof

/-- Why a word is no command. Both reasons raise IllegalCommand (R58, R61). -/
inductive Undecodable where
  /-- OPC is not one of the thirteen values of R60 -/
  | unassignedOpcode
  /-- a reserved bit 11:2, or a field the opcode does not use, is not 0 -/
  | mustBeZero
  deriving DecidableEq, Repr

/-- OPC, bits 31:24 (R57). -/
def opcField (w : Word) : Nat := (w.extractLsb' 24 8).toNat
/-- RD, bits 23:20 (R57). -/
def rdField (w : Word) : Reg := (w.extractLsb' 20 4).toFin
/-- RA, bits 19:16 (R57). -/
def raField (w : Word) : Reg := (w.extractLsb' 16 4).toFin
/-- RB, bits 15:12 (R57). -/
def rbField (w : Word) : Reg := (w.extractLsb' 12 4).toFin
/-- The reserved bits 11:2 (R57). -/
def reservedField (w : Word) : BitVec 10 := w.extractLsb' 2 10
/-- D, bit 1 (R57). -/
def dField (w : Word) : Bool := w.getLsbD 1
/-- O, bit 0 (R57): 0 = BIG, 1 = LITTLE. -/
def oField (w : Word) : LayoutOrder := if w.getLsbD 0 then .little else .big

/-- The fields an opcode does not use are 0, or the word is illegal (R58 b). -/
def requireZero (zero : Bool) (i : Instr) : Except Undecodable Instr :=
  if zero then .ok i else .error .mustBeZero

/-- The decoder: total, "illegal" is its verdict (R58). -/
def decode (w : Word) : Except Undecodable Instr :=
  let rd := rdField w
  let ra := raField w
  let rb := rbField w
  let r0 := reservedField w == 0
  let d0 := !dField w
  let o0 := oField w == .big
  match opcField w with
  | 0x01 => requireZero (ra == 0 && rb == 0 && r0) (.load rd (dField w) (oField w))
  | 0x02 => requireZero (ra == 0 && rb == 0 && r0 && d0) (.rand rd (oField w))
  | 0x03 => requireZero (rd == 0 && rb == 0 && r0 && d0 && o0) (.store ra)
  | 0x04 => requireZero (rd == 0 && rb == 0 && r0 && d0 && o0) (.info ra)
  | 0x10 => requireZero (rd == 0 && rb == 0 && r0 && d0 && o0) (.get ra)
  | 0x11 => requireZero (ra == 0 && rb == 0 && r0 && d0 && o0) (.set rd)
  | 0x12 => requireZero (rb == 0 && r0 && d0 && o0) (.slice rd ra)
  | 0x13 => requireZero (rb == 0 && r0 && d0 && o0) (.setr rd ra)
  | 0x20 => requireZero (r0 && d0 && o0) (.xor rd ra rb)
  | 0x21 => requireZero (rb == 0 && r0 && d0 && o0) (.shl rd ra)
  | 0x22 => requireZero (r0 && d0 && o0) (.mul rd ra rb)
  | 0x23 => requireZero (rb == 0 && r0 && d0 && o0) (.muls rd ra)
  | 0x24 => requireZero (rd == 0 && r0 && d0 && o0) (.divt ra rb)
  | _ => .error .unassignedOpcode

/-- The value of an order in the O bit and in the `order` field (R57; 10_state.md R20). -/
def LayoutOrder.isLittle : LayoutOrder → Bool
  | .big => false
  | .little => true

/-- A register number in a 4-bit field, as a word. -/
def regWord (r : Reg) : Word := BitVec.ofNat 32 r.val

/-- A one-bit value as a word. -/
def bitWord (b : Bool) : Word := (BitVec.ofBool b).setWidth 32

/-- The encoded word of R57: `(OPC << 24) | (RD << 20) | (RA << 16) | (RB << 12) | (D << 1) | O`. -/
def pack (opc : Word) (rd ra rb : Reg) (d o : Bool) : Word :=
  (opc <<< 24) ||| (regWord rd <<< 20) ||| (regWord ra <<< 16) ||| (regWord rb <<< 12) |||
    (bitWord d <<< 1) ||| bitWord o

/-- The encoder: the word of a command, from the columns of R60 (an unused field is 0). -/
def encode : Instr → Word
  | .load rd d o => pack 0x01 rd 0 0 d o.isLittle
  | .rand rd o => pack 0x02 rd 0 0 false o.isLittle
  | .store ra => pack 0x03 0 ra 0 false false
  | .info ra => pack 0x04 0 ra 0 false false
  | .get ra => pack 0x10 0 ra 0 false false
  | .set rd => pack 0x11 rd 0 0 false false
  | .slice rd ra => pack 0x12 rd ra 0 false false
  | .setr rd ra => pack 0x13 rd ra 0 false false
  | .xor rd ra rb => pack 0x20 rd ra rb false false
  | .shl rd ra => pack 0x21 rd ra 0 false false
  | .mul rd ra rb => pack 0x22 rd ra rb false false
  | .muls rd ra => pack 0x23 rd ra 0 false false
  | .divt ra rb => pack 0x24 0 ra rb false false

/-- The command the decoder reads from a word whose low `nbits` bits are w (every bit above is 0). A command is one
32-bit word (R62), so there is no byte order to lay out. -/
def decodeTableWord (nbits w : Nat) : Option Instr :=
  (decode (BitVec.ofNat 32 (w % 2 ^ nbits))).toOption

end Sys2Proof
end

