-- ==== Sys2Proof/Machine/State.lean ====
section
/-! DEFINITION. The state of the unit and of its interface, as plain data (10_state.md R20-R39; 20_memory.md R40-R48),
and the state after reset (10_state.md R39; 70_reset_and_hazards.md R120). -/

namespace Sys2Proof.Machine

open Sys2Proof

/-- Bytes by index: one (index, byte) pair for each byte whose value is known, indices strictly rising. A byte that is
not listed is one whose value the spec leaves unspecified (10_state.md R26, R39; 20_memory.md R44). -/
abbrev Memory := List Host.Cell

/-- What a byte that is not listed reads as: no known value. A reader of a byte puts a free value in its place
(`State.stageByte`, `PolyReg.byte` in Machine/Ops.lean), never a fault (log 2, log 3). -/
def Memory.unlisted : Option Byte := none

/-- The canonical form: indices strictly rising. An unlisted byte reads as no value, so no entry can equal it, and equal
contents are equal lists. -/
abbrev Memory.wf (m : Memory) : Prop := m.Pairwise (fun a b => a.1 < b.1)

/-- A polynomial register (10_state.md R20). -/
structure PolyReg where
  /-- 1 when the register holds a polynomial -/
  valid : Bool
  /-- the layout convention -/
  order : LayoutOrder
  /-- the logical width, 32 bits unsigned -/
  bits  : Word
  /-- how many bytes of `data` belong to the value, 0..CAPB -/
  len   : Nat
  /-- the byte buffer, indices 0..CAPB-1 -/
  data  : Memory
  deriving DecidableEq, Repr

/-- A register after reset (R39): valid = 0, order = BIG, bits = 0, len = 0, data unspecified. -/
def PolyReg.reset : PolyReg := ⟨false, .big, 0, 0, []⟩

/-- The unit phase (10_state.md R38): idle, or busy with the accepted command word. STATUS.BUSY is its view. -/
inductive Phase where
  | idle
  | busy (w : Word)
  deriving DecidableEq, Repr

/-- `bus_size` (20_memory.md R48): 0 = 8-bit, 1 = 16-bit, 2 = 32-bit; 3 gets a bus error. -/
inductive BusSize where
  | byte
  | half
  | word
  | reserved
  deriving DecidableEq, Repr

/-- A host access to the window (20_memory.md R40, R48): bus_we, bus_addr[11:0], bus_size, bus_wdata. -/
structure Access where
  we    : Bool
  addr  : BitVec 12
  size  : BusSize
  wdata : Word
  deriving DecidableEq, Repr

/-- How an access left the bus (R42, R48). -/
inductive BusResponse where
  /-- a read completed with this bus_rdata; a narrow value stands in the low bits (log 10) -/
  | readDone (rdata : Word)
  /-- a write completed -/
  | writeDone
  /-- bus_err: the access did nothing, its read data is 0 (R42) -/
  | busError (rdata : Word)
  /-- the access was on the bus while rst = 1: its outcome is unspecified (R120, R121; log 11) -/
  | abandoned (rdata : Word)
  deriving DecidableEq, Repr

/-- Who moves next (log 5). -/
inductive Turn where
  /-- the host's next access gets a bus cycle: it completes, or the interlock holds it (R123) -/
  | host
  /-- the command in flight takes effect, or waits for its bytes (R129) -/
  | unit
  /-- the byte source presents this byte; it transfers only while bs_req = 1 (R47) -/
  | byte (b : Byte)
  /-- a reset pulse (R120); `presented`: the host, against the rule, presents its next access while rst = 1 -/
  | reset (presented : Bool)
  deriving DecidableEq, Repr

/-- The five errors (60_exceptions.md R101). -/
inductive Err where
  | indexOutOfRange
  | sizeMismatch
  | invalidOperandType
  | invalidWidth
  | illegalCommand
  deriving DecidableEq, Repr

/-- The state of the machine. -/
structure State where
  /-- the parameters of this implementation; no step changes them (R7) -/
  cfg      : Config
  /-- P0-P15 (R20) -/
  polys    : Vector PolyReg 16
  /-- ARG0 (R33) -/
  arg0     : Word
  /-- ARG1 (R33) -/
  arg1     : Word
  /-- ARG2 (R33) -/
  arg2     : Word
  /-- RES0 (R34) -/
  res0     : Word
  /-- RES1 (R34) -/
  res1     : Word
  /-- STATUS.FLAG (R30) -/
  flag     : Bool
  /-- STATUS.ERR (R30) -/
  err      : Bool
  /-- ERRCODE[3:0] (R31) -/
  errCode  : BitVec 4
  /-- ERRCMD (R32) -/
  errCmd   : Word
  /-- STAGE: the bytes written since reset, by index (20_memory.md R44) -/
  stage    : Memory
  /-- the unit phase (R38) -/
  phase    : Phase
  /-- the bytes the RAND in flight has received, in order (R38, R72) -/
  received : List Byte
  /-- the host's accesses, in program order, the next one first (20_memory.md R52) -/
  host     : List Access
  /-- the first access of `host` is on the bus and held with bus_ready = 0 (R123) -/
  held     : Bool
  /-- how the last access left the bus (R48; log 13) -/
  response : Option BusResponse
  /-- who moves next, oldest first; the model's own field (log 5) -/
  turns    : List Turn
  /-- how many free values have been drawn; the model's own field (log 2) -/
  draws    : Nat
  deriving DecidableEq, Repr

/-- Why the machine stops. -/
inductive Fault where
  /-- Raised by `step` alone: a RAND waits for a byte and no turn is left in which the source could deliver one or rst
  could rise (70_reset_and_hazards.md R127: "a stuck state"). Safe: the hardware goes on only by staying busy. -/
  | byteSourceSilent
  deriving DecidableEq, Repr

/-- Why an instruction has no meaning. -/
inductive Refusal where
  /-- Raised by an arm of `exec` whose instruction has no meaning yet. Safe. No arm of this model raises it. -/
  | notModelled (mnemonic : String)
  deriving DecidableEq, Repr

/-- The machine right after reset (10_state.md R39, 70_reset_and_hazards.md R120). CAPB is 32 here, the spec's own
example (R7; log 1, DESIGN CHOICE); the interface fields are empty (log 15, DESIGN CHOICE). -/
def State.reset : State where
  cfg      := ⟨32⟩
  polys    := Vector.replicate 16 PolyReg.reset
  arg0     := 0
  arg1     := 0
  arg2     := 0
  res0     := 0
  res1     := 0
  flag     := false
  err      := false
  errCode  := 0
  errCmd   := 0
  stage    := []
  phase    := .idle
  received := []
  host     := []
  held     := false
  response := none
  turns    := []
  draws    := 0

end Sys2Proof.Machine
end

