-- ==== Sys2Proof/Machine/Ops.lean ====
section
/-! DEFINITION. The named operations over bytes, registers and state, and the taking of an error (60_exceptions.md R100)
with the return from one (R105). -/

namespace Sys2Proof.Machine

open Sys2Proof

/-- `ceil(x/8)` (00_scope.md R11). -/
def ceil8 (x : Nat) : Nat := (x + 7) / 8

/-! ### Bytes by index -/

namespace Memory

/-- The byte at index a, if its value is known. -/
def read? : Memory → Nat → Option Byte
  | [], _ => unlisted
  | c :: m, a => if c.1 = a then some c.2 else read? m a

/-- Write one byte; the canonical form is kept. -/
def write : Memory → Nat → Byte → Memory
  | [], a, b => [(a, b)]
  | c :: m, a, b =>
    if a < c.1 then (a, b) :: c :: m
    else if a = c.1 then (a, b) :: m
    else c :: write m a b

/-- Write bytes at a, a+1, ... in order. -/
def writeBytes (m : Memory) (a : Nat) : List Byte → Memory
  | [] => m
  | b :: bs => writeBytes (m.write a b) (a + 1) bs

/-- n zero bytes at 0..n-1, nothing else. -/
def zeros (n : Nat) : Memory := (List.range n).map (fun k => (k, 0))

end Memory

/-- A word from its bytes, the first in bits 7:0 (20_memory.md R45). -/
def leWord : List Byte → Word
  | [] => 0
  | b :: bs => b.setWidth 32 ||| (leWord bs <<< 8)

/-- Byte lane j of a word (R45). -/
def lane (w : Word) (j : Nat) : Byte := w.extractLsb' (8 * j) 8

/-- A byte of a register's buffer. One whose value is unspecified reads as a free value (10_state.md R26, R39; log 3). -/
def PolyReg.byte (p : PolyReg) (b : Nat) : Byte := (p.data.read? b).getD (Config.bufferFill b)

namespace State

/-- P[r] (00_scope.md R12). -/
def poly (s : State) (r : Reg) : PolyReg := s.polys[r]

/-- `P[r] <- p` (R12). -/
def setPoly (s : State) (r : Reg) (p : PolyReg) : State := { s with polys := s.polys.set r p }

/-- `RES[0] <- v` (R12). -/
def setRes0 (s : State) (v : Word) : State := { s with res0 := v }

/-- `RES[1] <- v` (R12). -/
def setRes1 (s : State) (v : Word) : State := { s with res1 := v }

/-- `STATUS.FLAG <- v` (R12). -/
def setFlag (s : State) (v : Bool) : State := { s with flag := v }

/-- Replace the contents of STAGE. -/
def setStage (s : State) (m : Memory) : State := { s with stage := m }

/-- n free values have been used. -/
def drawn (s : State) (n : Nat) : State := { s with draws := s.draws + n }

/-- The n-th free value from here. -/
def drawAt (s : State) (n : Nat) : Byte := Config.draw (s.draws + n)

/-- STAGE[k], read as the j-th byte of an access or command. A byte not written since reset is a free value
(20_memory.md R44; log 2). -/
def stageByte (s : State) (k j : Nat) : Byte := (s.stage.read? k).getD (s.drawAt j)

/-- STAGE[0..n-1] as LOAD reads it (40_construction.md R71). -/
def stageBytes (s : State) (n : Nat) : List Byte := (List.range n).map (fun k => s.stageByte k k)

/-- data[0..n-1] of a register. -/
def polyBytes (p : PolyReg) (n : Nat) : List Byte := (List.range n).map p.byte

/-- The command ends: `STATUS.BUSY <- 0`, and no RAND is in flight (60_exceptions.md R106; 10_state.md R38). -/
def finish (s : State) : State := { s with phase := .idle, received := [] }

/-- STATUS.BUSY (10_state.md R30): 1 from the acceptance of a command until its effects are complete. -/
def busy (s : State) : Bool :=
  match s.phase with
  | .idle => false
  | .busy _ => true

end State

/-- The numeric code of an error (60_exceptions.md R101). -/
def Err.code : Err → BitVec 4
  | .indexOutOfRange => 1
  | .sizeMismatch => 2
  | .invalidOperandType => 3
  | .invalidWidth => 4
  | .illegalCommand => 5

/-- TAKING AN ERROR, `raise E(cmd)` (R100): ERRCODE, ERRCMD and ERR are written and the command ends; nothing else
changes. There is no handler and no vector. -/
def State.raise (s : State) (e : Err) (cmd : Word) : State :=
  { s with errCode := e.code, errCmd := cmd, err := true, phase := .idle, received := [] }

/-- THE RETURN FROM AN ERROR (R105): a STATUS write with bit 1 set clears ERR and leaves ERRCODE and ERRCMD. -/
def State.clearErr (s : State) : State := { s with err := false }

/-- Preconditions of a command in the order of its pseudocode: (it is broken, the error it raises). -/
abbrev Checks := List (Bool × Err)

/-- The one error a command reports: that of the first broken precondition (R103). -/
def firstError : Checks → Option Err
  | [] => none
  | c :: cs => if c.1 then some c.2 else firstError cs

/-- A command: every check before any write (R103, R104), then the effect as one atomic change (00_scope.md R15), then
`BUSY <- 0` (R106). `cmd` is the command word. -/
def command (cmd : Word) (s : State) (cs : Checks) (effect : State) : Host.Outcome State Fault Refusal :=
  match firstError cs with
  | some e => .next (s.raise e cmd)
  | none => .next effect.finish

end Sys2Proof.Machine
end

