-- ==== Sys2Proof/Machine/Polynomial.lean ====
section
/-! DEFINITION. The polynomial a register holds: the layout mapping, coefficients, fresh values, the highest set bit and
index sequences (10_state.md R23-R27; 41_bit_addressing.md R81). -/

namespace Sys2Proof.Machine

open Sys2Proof

/-- `Loc(i, bits, order)` (R23): (byte index, bit in byte) of coefficient i. -/
def loc (i bits : Nat) : LayoutOrder → Nat × Nat
  | .big => (ceil8 bits - 1 - i / 8, i % 8)
  | .little => (i / 8, i % 8)

namespace PolyReg

/-- The declared width as a number. -/
def width (p : PolyReg) : Nat := p.bits.toNat

/-- Width-consistent (R25): bits <= 8 * len. -/
def widthOk (p : PolyReg) : Bool := decide (p.width ≤ 8 * p.len)

/-- `Coef(p, i)` (R24): `(p.data[b] >> k) & 1`. -/
def coef (p : PolyReg) (i : Nat) : Bool :=
  (p.byte (loc i p.width p.order).1).getLsbD (loc i p.width p.order).2

end PolyReg

/-- `sum over 0 <= i < n of f(i) * 2^i` (R13, R24). -/
def natOfBits (f : Nat → Bool) : Nat → Nat
  | 0 => 0
  | n + 1 => natOfBits f n + (if f n then 2 ^ n else 0)

/-- `Val(p)` (R13, R24). -/
def PolyReg.val (p : PolyReg) : Nat := natOfBits p.coef p.width

/-- The byte with only bit k set to v: `v << k`. -/
def bitByte (v : Bool) (k : Nat) : Byte := (BitVec.ofBool v).setWidth 8 <<< k

/-- `d[b] | (v << k)`, a step of Make (R26). -/
def orBit (d : Memory) (at' : Nat × Nat) (v : Bool) : Memory :=
  d.write at'.1 ((d.read? at'.1).getD 0 ||| bitByte v at'.2)

/-- `Make(w, ord, f)` (R26): the fresh value of width w and order ord whose coefficient i is f(i). Its len is
ceil(w/8), every other bit of its bytes is 0, and the bytes past them are unspecified. -/
def make (w : Nat) (ord : LayoutOrder) (f : Nat → Bool) : PolyReg where
  valid := true
  order := ord
  bits  := BitVec.ofNat 32 w
  len   := ceil8 w
  data  := (List.range w).foldl (fun d i => orBit d (loc i w ord) (f i)) (Memory.zeros (ceil8 w))

/-- `P.data[b] <- (P.data[b] & ~(1 << k)) | (v << k)` with (b, k) = Loc(i) (R82, R84). -/
def PolyReg.setCoef (p : PolyReg) (i : Nat) (v : Bool) : PolyReg :=
  let at' := loc i p.width p.order
  { p with data := p.data.write at'.1 ((p.byte at'.1 &&& ~~~(bitByte true at'.2)) ||| bitByte v at'.2) }

/-- The largest i < n with f(i) = 1, or 0 when there is none. -/
def highest (f : Nat → Bool) : Nat → Nat
  | 0 => 0
  | n + 1 => if f n then n else highest f n

/-- `Hsb(p)` (R27): "scans from bits-1 down to 0"; 0 for an all-zero polynomial. -/
def PolyReg.hsb (p : PolyReg) : Nat := highest p.coef p.width

/-- `|Seq(start, stop, step)|` (R81): ceil((stop - start) / step) if stop > start, else 0. -/
def seqLen (start stop step : Nat) : Nat :=
  if start < stop then (stop - start + step - 1) / step else 0

/-- `Seq(start, stop, step)` (R81): start + k*step while that is below stop. -/
def seq (start stop step : Nat) : List Nat :=
  (List.range (seqLen start stop step)).map (fun k => start + k * step)

/-- Write the bits v at the positions S in order, as SETR does (R84). -/
def PolyReg.scatter (p : PolyReg) : List Nat → List Bool → PolyReg
  | i :: is, v :: vs => (p.setCoef i v).scatter is vs
  | _, _ => p

/-- `Render(p, w)` (00_scope.md R18), host notation: coefficients w-1 down to 0 as '0' and '1'; undefined for
w > bits. `Render(p)` is `render p p.width`. -/
def render (p : PolyReg) (w : Nat) : Option (List Char) :=
  if w ≤ p.width then some (((List.range w).map (fun i => if p.coef i then '1' else '0')).reverse) else none

end Sys2Proof.Machine
end

