-- ==== Sys2Proof/Machine/Operands.lean ====
section
/-! DEFINITION. Operand assembly (30_encoding.md R59) and the operand checks (60_exceptions.md R102; 41_bit_addressing.md
R81). Widths, lengths, shift amounts, bit values and scalars are unsigned; indices, bounds and steps are signed. -/

namespace Sys2Proof.Machine

open Sys2Proof

/-- `sint32` (00_scope.md R10). -/
def sint32 (w : Word) : Int := w.toInt

/-- `uint32` (R10). -/
def uint32 (w : Word) : Nat := w.toNat

namespace State

/-- LOAD's byte count (R59). -/
def loadLen (s : State) : Nat := uint32 s.arg0
/-- LOAD's declared width (R71): 8 * len when D = 1, else ARG1. -/
def loadWidth (s : State) (d : Bool) : Nat := if d then 8 * s.loadLen else uint32 s.arg1
/-- RAND's width (R59). -/
def randWidth (s : State) : Nat := uint32 s.arg1
/-- GET's and SET's index (R59). -/
def index (s : State) : Int := sint32 s.arg0
/-- SET's bit value (R59). -/
def bitValue (s : State) : Nat := uint32 s.arg1
/-- SHL's shift amount (R59). -/
def shiftAmount (s : State) : Nat := uint32 s.arg0
/-- MULS's scalar (R59). -/
def scalar (s : State) : Nat := uint32 s.arg0
/-- SLICE's and SETR's start (R59). -/
def start (s : State) : Int := sint32 s.arg0
/-- SLICE's and SETR's stop (R59). -/
def stop (s : State) : Int := sint32 s.arg1
/-- SLICE's and SETR's step (R59). -/
def stride (s : State) : Int := sint32 s.arg2
/-- The index sequence SLICE and SETR use once the range is checked (R81). -/
def positions (s : State) : List Nat := seq s.start.toNat s.stop.toNat s.stride.toNat

/-- `CheckOperands(r1, ..., rk)` (R102): validity of every register, then the width of every register. -/
def checkOperands (s : State) (rs : List Reg) : Checks :=
  rs.map (fun r => (!(s.poly r).valid, .invalidOperandType)) ++
    rs.map (fun r => (!(s.poly r).widthOk, .invalidWidth))

/-- `CheckOrder(r1, r2)` (R102). -/
def checkOrder (s : State) (r1 r2 : Reg) : Checks :=
  [((s.poly r1).order != (s.poly r2).order, .invalidOperandType)]

/-- `SeqCheck(p, start, stop, step)` (R81): start, then stop, then step. -/
def seqCheck (s : State) (p : PolyReg) : Checks :=
  [ (decide (s.start < 0 ∨ s.start ≥ p.width), .indexOutOfRange),
    (decide (s.stop < 0 ∨ s.stop > p.width), .indexOutOfRange),
    (decide (s.stride < 1), .indexOutOfRange) ]

end State

end Sys2Proof.Machine
end

