-- ==== Sys2Proof/Machine/Flags.lean ====
section
/-! DEFINITION. The flag and the composed register words: STATUS (10_state.md R30), ERRCODE (R31), RES1 (R34), ID and PARAM
(R35), and the division test (42_arithmetic.md R94). -/

namespace Sys2Proof.Machine

open Sys2Proof

/-- DIVT's result (R94): `Hsb(B) <= Hsb(A)`. -/
def dividesInto (dividend divisor : PolyReg) : Bool := decide (divisor.hsb ≤ dividend.hsb)

/-- STATUS (R30): BUSY bit 0, ERR bit 1, FLAG bit 2, bits 31:3 read as zero. -/
def State.statusWord (s : State) : Word :=
  bitWord s.busy ||| (bitWord s.err <<< 1) ||| (bitWord s.flag <<< 2)

/-- ERRCODE as a word (R31): bits 31:4 read 0. -/
def State.errCodeWord (s : State) : Word := s.errCode.setWidth 32

/-- INFO's descriptor (R34, R74): valid in bit 31, order in bit 30, 0 in bits 29:12, len in bits 11:0. -/
def PolyReg.descriptor (p : PolyReg) : Word :=
  (bitWord p.valid <<< 31) ||| (bitWord p.order.isLittle <<< 30) ||| (BitVec.ofNat 12 p.len).setWidth 32

/-- ID (R35): "GF2P". -/
def idWord : Word := 0x47463250

/-- PARAM (R35): NPREG in bits 23:16, CAPB in bits 11:0. -/
def paramWord (c : Config) : Word :=
  (BitVec.ofNat 32 Config.npreg <<< 16) ||| (BitVec.ofNat 12 c.capb).setWidth 32

end Sys2Proof.Machine
end

