-- ==== Sys2Proof/Machine/Bus.lean ====
section
/-! DEFINITION. The host window: legal accesses, register and STAGE reads and writes, command acceptance (20_memory.md
R40-R45, 10_state.md R30-R36, 60_exceptions.md R105, R106). -/

namespace Sys2Proof.Machine

open Sys2Proof

/-- Bytes an access moves (20_memory.md R48). -/
def BusSize.bytes : BusSize → Nat
  | .byte => 1
  | .half => 2
  | .word => 4
  | .reserved => 0

namespace Access

/-- The window offset as a number. -/
def off (a : Access) : Nat := a.addr.toNat

/-- The first offset of the STAGE half of the window (R41). -/
def stageBase : Nat := 0x800

/-- The widths and alignments of R42; any other access gets a bus error. -/
def wf (a : Access) : Bool :=
  match a.size with
  | .byte => decide (stageBase ≤ a.off)
  | .half => decide (stageBase ≤ a.off ∧ a.off % 2 = 0)
  | .word => decide (a.off % 4 = 0)
  | .reserved => false

/-- A read of STATUS, the one access that completes while BUSY = 1 (70_reset_and_hazards.md R123; log 9). -/
def isStatusRead (a : Access) : Bool := !a.we && a.off == 0x004 && a.size == .word

end Access

namespace State

/-- What a 32-bit read in 0x000-0x7FF returns (R41). -/
def readReg (s : State) (off : Nat) : Word :=
  match off with
  | 0x000 => 0
  | 0x004 => s.statusWord
  | 0x008 => s.errCodeWord
  | 0x00C => s.errCmd
  | 0x010 => s.arg0
  | 0x014 => s.arg1
  | 0x018 => s.arg2
  | 0x020 => s.res0
  | 0x024 => s.res1
  | 0x028 => idWord
  | 0x02C => paramWord s.cfg
  | _ => 0

/-- A CMD write the interlock has let through (60_exceptions.md R106): dropped while ERR = 1, else accepted. -/
def acceptCommand (s : State) (w : Word) : State :=
  if s.err then s else { s with phase := .busy w }

/-- A STATUS write (10_state.md R30): bit 1 = 1 clears ERR; every other bit has no effect. -/
def writeStatus (s : State) (w : Word) : State := if w.getLsbD 1 then s.clearErr else s

/-- A 32-bit write in 0x000-0x7FF (R41): read-only registers and reserved offsets ignore it. -/
def writeReg (s : State) (off : Nat) (w : Word) : State :=
  match off with
  | 0x000 => s.acceptCommand w
  | 0x004 => s.writeStatus w
  | 0x010 => { s with arg0 := w }
  | 0x014 => { s with arg1 := w }
  | 0x018 => { s with arg2 := w }
  | _ => s

/-- The byte at STAGE index k + j, lane j of an access; 0 at or above CAPB (R45). -/
def laneByte (s : State) (k j : Nat) : Byte := if k + j < s.cfg.capb then s.stageByte (k + j) j else 0

/-- An n-byte read at STAGE index k (R45). -/
def stageRead (s : State) (k n : Nat) : Word := leWord ((List.range n).map (s.laneByte k))

/-- An n-byte write at STAGE index k (R45): a byte at or above CAPB is not written. -/
def stageWrite (s : State) (k n : Nat) (w : Word) : State :=
  s.setStage ((List.range n).foldl
    (fun m j => if k + j < s.cfg.capb then m.write (k + j) (lane w j) else m) s.stage)

/-- The access leaves the bus with this response. -/
def respond (s : State) (r : BusResponse) : State := { s with response := some r }

/-- A host access that completes (R41-R45). -/
def access (s : State) (a : Access) : State :=
  if !a.wf then s.respond (.busError 0)
  else if a.off < Access.stageBase then
    if a.we then (s.writeReg a.off a.wdata).respond .writeDone
    else s.respond (.readDone (s.readReg a.off))
  else
    if a.we then (s.stageWrite (a.off - Access.stageBase) a.size.bytes a.wdata).respond .writeDone
    else (s.drawn a.size.bytes).respond (.readDone (s.stageRead (a.off - Access.stageBase) a.size.bytes))

end State

end Sys2Proof.Machine
end

