-- ==== Sys2Proof/Machine/Arithmetic.lean ====
section
/-! DEFINITION. Arithmetic: XOR, SHL, MUL, MULS, DIVT (42_arithmetic.md R90-R95). -/

namespace Sys2Proof.Machine

open Sys2Proof

/-- `(i < p.bits ? Coef(p, i) : 0)`: a coefficient, 0 at and beyond the width. -/
def PolyReg.coefOrZero (p : PolyReg) (i : Nat) : Bool := if i < p.width then p.coef i else false

/-- The sum (R90): width max(wa, wb), each bit the XOR of the two, no carry. -/
def xorOf (a b : PolyReg) : PolyReg :=
  make (max a.width b.width) a.order (fun i => a.coefOrZero i ^^ b.coefOrZero i)

/-- XOR, also ADD and SUB (R90). -/
def execXor (rd ra rb : Reg) (s : State) : Host.Outcome State Fault Refusal :=
  command (encode (.xor rd ra rb)) s
    (s.checkOperands [ra, rb] ++ s.checkOrder ra rb)
    (s.setPoly rd (xorOf (s.poly ra) (s.poly rb)))

/-- The shift (R91): width a.bits + n, the low n coefficients 0. -/
def shiftOf (a : PolyReg) (n : Nat) : PolyReg :=
  make (a.width + n) a.order (fun i => if i ≥ n then a.coef (i - n) else false)

/-- SHL (R91). -/
def execShl (rd ra : Reg) (s : State) : Host.Outcome State Fault Refusal :=
  command (encode (.shl rd ra)) s
    (s.checkOperands [ra] ++
      [(decide ((s.poly ra).width + s.shiftAmount > s.cfg.wmax), .invalidWidth)])
    (s.setPoly rd (shiftOf (s.poly ra) s.shiftAmount))

/-- The width of a product (R92): max(1, wa + wb - 1), on integers. -/
def mulWidth (a b : PolyReg) : Nat := max 1 (a.width + b.width - 1)

/-- Coefficient i of the product (R92): the XOR over the k with b[k] = 1 of coefficient i of (a shiftLeft k). -/
def mulCoef (a b : PolyReg) (i : Nat) : Bool :=
  (List.range b.width).foldl
    (fun acc k => acc ^^ (if b.coef k then (if k ≤ i then a.coefOrZero (i - k) else false) else false)) false

/-- The product (R92). -/
def mulOf (a b : PolyReg) : PolyReg := make (mulWidth a b) a.order (mulCoef a b)

/-- MUL (R92). -/
def execMul (rd ra rb : Reg) (s : State) : Host.Outcome State Fault Refusal :=
  command (encode (.mul rd ra rb)) s
    (s.checkOperands [ra, rb] ++ s.checkOrder ra rb ++
      [(decide (mulWidth (s.poly ra) (s.poly rb) > s.cfg.wmax), .invalidWidth)])
    (s.setPoly rd (mulOf (s.poly ra) (s.poly rb)))

/-- The product by one bit (R93): every coefficient ANDed with it, same width. -/
def scaleOf (a : PolyReg) (v : Bool) : PolyReg := make a.width a.order (fun i => v && a.coef i)

/-- MULS (R93). -/
def execMuls (rd ra : Reg) (s : State) : Host.Outcome State Fault Refusal :=
  command (encode (.muls rd ra)) s
    (s.checkOperands [ra] ++ [(decide (s.scalar > 1), .invalidOperandType)])
    (s.setPoly rd (scaleOf (s.poly ra) (s.scalar == 1)))

/-- DIVT (R94): the answer goes to STATUS.FLAG and to RES0; no register is written. -/
def execDivt (ra rb : Reg) (s : State) : Host.Outcome State Fault Refusal :=
  command (encode (.divt ra rb)) s
    (s.checkOperands [ra, rb] ++ s.checkOrder ra rb)
    ((s.setFlag (dividesInto (s.poly ra) (s.poly rb))).setRes0
      (bitWord (dividesInto (s.poly ra) (s.poly rb))))

end Sys2Proof.Machine
end

