-- ==== Sys2Proof/Machine/BitAddressing.lean ====
section
/-! DEFINITION. Bit addressing: GET, SET, SLICE, SETR (41_bit_addressing.md R80-R84). -/

namespace Sys2Proof.Machine

open Sys2Proof

/-- GET (R80). -/
def execGet (ra : Reg) (s : State) : Host.Outcome State Fault Refusal :=
  command (encode (.get ra)) s
    (s.checkOperands [ra] ++
      [(decide (s.index < 0 ∨ s.index ≥ (s.poly ra).width), .indexOutOfRange)])
    (s.setRes0 (bitWord ((s.poly ra).coef s.index.toNat)))

/-- SET (R82): an index at or beyond the width is a no-op with no error. -/
def execSet (rd : Reg) (s : State) : Host.Outcome State Fault Refusal :=
  command (encode (.set rd)) s
    (s.checkOperands [rd] ++
      [(decide (s.bitValue > 1), .invalidOperandType), (decide (s.index < 0), .indexOutOfRange)])
    (if s.index ≥ (s.poly rd).width then s
     else s.setPoly rd ((s.poly rd).setCoef s.index.toNat (s.bitValue == 1)))

/-- The polynomial SLICE produces (R83): coefficient j is that of position S[j], re-indexed from 0. -/
def sliceOf (p : PolyReg) (S : List Nat) : PolyReg :=
  make S.length p.order (fun j => p.coef (S.getD j 0))

/-- SLICE (R83). -/
def execSlice (rd ra : Reg) (s : State) : Host.Outcome State Fault Refusal :=
  command (encode (.slice rd ra)) s
    (s.checkOperands [ra] ++ s.seqCheck (s.poly ra))
    (s.setPoly rd (sliceOf (s.poly ra) s.positions))

/-- SETR (R84): the whole value is read before any bit is written. -/
def execSetr (rd ra : Reg) (s : State) : Host.Outcome State Fault Refusal :=
  command (encode (.setr rd ra)) s
    (s.checkOperands [ra, rd] ++ s.checkOrder ra rd ++ s.seqCheck (s.poly rd) ++
      [((s.poly ra).width != s.positions.length, .sizeMismatch)])
    (s.setPoly rd ((s.poly rd).scatter s.positions
      ((List.range s.positions.length).map (s.poly ra).coef)))

end Sys2Proof.Machine
end

