-- ==== Sys2Proof/Machine/Construction.lean ====
section
/-! DEFINITION. Construction and transfer: LOAD, RAND, STORE, INFO (40_construction.md R70-R74). -/

namespace Sys2Proof.Machine

open Sys2Proof

/-- The register LOAD writes (R71): `data[n..CAPB-1]` unchanged (D44). -/
def loadedReg (s : State) (rd : Reg) (d : Bool) (o : LayoutOrder) : PolyReg where
  valid := true
  order := o
  bits  := BitVec.ofNat 32 (s.loadWidth d)
  len   := s.loadLen
  data  := (s.poly rd).data.writeBytes 0 (s.stageBytes s.loadLen)

/-- LOAD (R71). A declared width above the buffer is no error here. -/
def execLoad (rd : Reg) (d : Bool) (o : LayoutOrder) (s : State) : Host.Outcome State Fault Refusal :=
  command (encode (.load rd d o)) s
    [(decide (s.loadLen > s.cfg.capb), .invalidWidth)]
    ((s.setPoly rd (loadedReg s rd d o)).drawn s.loadLen)

/-- How many bytes RAND needs (R72). -/
def State.randLen (s : State) : Nat := ceil8 s.randWidth

/-- The register RAND writes once its bytes have come (R72): as delivered, padding included. -/
def randReg (s : State) (rd : Reg) (o : LayoutOrder) : PolyReg where
  valid := true
  order := o
  bits  := BitVec.ofNat 32 s.randWidth
  len   := s.randLen
  data  := (s.poly rd).data.writeBytes 0 (s.received.take s.randLen)

/-- RAND (R72, R127): the width is checked before any byte is requested; while bytes are missing the command waits,
BUSY stays 1 and nothing changes; with the last byte it takes effect (log 7). -/
def execRand (rd : Reg) (o : LayoutOrder) (s : State) : Host.Outcome State Fault Refusal :=
  if s.randWidth ≤ s.cfg.wmax ∧ s.received.length < s.randLen then .next s
  else
    command (encode (.rand rd o)) s
      [(decide (s.randWidth > s.cfg.wmax), .invalidWidth)]
      (s.setPoly rd (randReg s rd o))

/-- STORE (R73). -/
def execStore (ra : Reg) (s : State) : Host.Outcome State Fault Refusal :=
  command (encode (.store ra)) s (s.checkOperands [ra])
    ((s.setStage (s.stage.writeBytes 0 (State.polyBytes (s.poly ra) (s.poly ra).len))).setRes0
      (BitVec.ofNat 32 (s.poly ra).len))

/-- INFO (R74): no operand check. -/
def execInfo (ra : Reg) (s : State) : Host.Outcome State Fault Refusal :=
  command (encode (.info ra)) s []
    ((s.setRes0 (s.poly ra).bits).setRes1 (s.poly ra).descriptor)

end Sys2Proof.Machine
end

