-- ==== Sys2Proof/Machine/Dispatch.lean ====
section
/-! DEFINITION. One arm per command (30_encoding.md R60). -/

namespace Sys2Proof.Machine

open Sys2Proof

/-- The meaning of a command, executed as one atomic step (00_scope.md R15, 70_reset_and_hazards.md R129). -/
def exec (i : Instr) (s : State) : Host.Outcome State Fault Refusal :=
  match i with
  | .load rd d o => Sys2Proof.Machine.execLoad rd d o s
  | .rand rd o => Sys2Proof.Machine.execRand rd o s
  | .store ra => Sys2Proof.Machine.execStore ra s
  | .info ra => Sys2Proof.Machine.execInfo ra s
  | .get ra => Sys2Proof.Machine.execGet ra s
  | .set rd => Sys2Proof.Machine.execSet rd s
  | .slice rd ra => Sys2Proof.Machine.execSlice rd ra s
  | .setr rd ra => Sys2Proof.Machine.execSetr rd ra s
  | .xor rd ra rb => Sys2Proof.Machine.execXor rd ra rb s
  | .shl rd ra => Sys2Proof.Machine.execShl rd ra s
  | .mul rd ra rb => Sys2Proof.Machine.execMul rd ra rb s
  | .muls rd ra => Sys2Proof.Machine.execMuls rd ra s
  | .divt ra rb => Sys2Proof.Machine.execDivt ra rb s

end Sys2Proof.Machine
end

