-- ==== Sys2Proof/Machine/Turns.lean ====
section
/-! DEFINITION. What one turn of each agent does: the unit (60_exceptions.md R106), the host behind the interlock
(70_reset_and_hazards.md R123), the byte source (20_memory.md R47) and reset (R120, R121). -/

namespace Sys2Proof.Machine

open Sys2Proof

/-- The command word is a RAND. -/
def isRand (w : Word) : Bool :=
  match decode w with
  | .ok (.rand _ _) => true
  | _ => false

namespace State

/-- `bs_req` (R47): a RAND in flight still needs bytes. On a width above WMAX no byte is requested (R72). -/
def bsReq (s : State) : Bool :=
  match s.phase with
  | .idle => false
  | .busy w => isRand w && decide (s.randWidth ≤ s.cfg.wmax ∧ s.received.length < s.randLen)

/-- The byte source presents b: it transfers while bs_req = 1, and nothing happens otherwise (R47; log 7). -/
def byteTurn (s : State) (b : Byte) : State :=
  if s.bsReq then { s with received := s.received ++ [b] } else s

/-- The interlock lets this access complete now (R123). -/
def mayComplete (s : State) (a : Access) : Bool := !s.busy || a.isStatusRead

/-- The host's next access: it completes and leaves the bus, or it is held (R123). -/
def hostTurn (s : State) : State :=
  match s.host with
  | [] => s
  | a :: rest =>
    if s.mayComplete a then { s with host := rest, held := false }.access a
    else { s with held := true }

/-- The bytes of a response the spec leaves unspecified (R120, R121; log 11). -/
def abandonedWord (s : State) : Word := leWord ((List.range 4).map s.drawAt)

/-- Every state element of the unit takes its reset value (R120). The parameters, the agents outside the unit and the
count of drawn values are not the unit's. -/
def resetUnit (s : State) : State :=
  { reset with cfg := s.cfg, host := s.host, response := s.response, turns := s.turns, draws := s.draws }

/-- A reset pulse (R120, R121). A command in flight is abandoned and records no error. An access that is on the bus,
held by the interlock or presented while rst = 1, is not completed by the unit: it leaves the bus with a free value and no
lasting effect (log 11). -/
def resetTurn (s : State) (presented : Bool) : State :=
  match s.host with
  | [] => s.resetUnit
  | _ :: rest =>
    if s.held || presented then
      { s.resetUnit.drawn 4 with host := rest, response := some (.abandoned s.abandonedWord) }
    else s.resetUnit

/-- The unit's turn (R106): the accepted word is decoded, before any other check (30_encoding.md R58), and executed. -/
def unitTurn (s : State) : Host.Outcome State Fault Refusal :=
  match s.phase with
  | .idle => .next s
  | .busy w =>
    match decode w with
    | .error _ => .next (s.raise .illegalCommand w)
    | .ok i => exec i s

/-- One turn. -/
def take (s : State) : Turn → Host.Outcome State Fault Refusal
  | .host => .next s.hostTurn
  | .unit => s.unitTurn
  | .byte b => .next (s.byteTurn b)
  | .reset presented => .next (s.resetTurn presented)

/-- Who moves when no turn is left: the unit while it is busy, else the host (log 5). -/
def defaultTurn (s : State) : Turn := if s.busy then .unit else .host

/-- One step: the oldest turn is taken. When none is left, a RAND that waits for a byte is stuck (R127; log 6). -/
def advance (s : State) : Host.Outcome State Fault Refusal :=
  match s.turns with
  | t :: ts => { s with turns := ts }.take t
  | [] => if s.bsReq then .fault .byteSourceSilent else s.take s.defaultTurn

/-- The word is accepted as a CMD write is (R106), and the unit moves next (log 4, log 16). -/
def accepted (s : State) (w : Word) : State :=
  { s with phase := .busy w, err := false, received := [], turns := .unit :: s.turns }

end State

end Sys2Proof.Machine
end

