-- ==== Sys2Proof/Machine/Step.lean ====
section
/-! DEFINITION. One step, and how the next instruction is put where the step takes it from. -/

namespace Sys2Proof.Machine

open Sys2Proof

/-- One step of the machine: one turn of one agent (Machine/Turns.lean). -/
def step (s : State) : Host.Outcome State Fault Refusal := s.advance

/-- The unit fetches no instruction (20_memory.md R55). Its next command is the word of an accepted CMD write, so the
word is put there: the unit is busy with it and has the next turn (log 4). -/
def State.withFetchWord (s : State) (nbits w : Nat) : State :=
  s.accepted (BitVec.ofNat 32 (w % 2 ^ nbits))

end Sys2Proof.Machine
end

