-- ==== Sys2Proof/Machine/HostProgram.lean ====
section
/-! DEFINITION. Host-side notation and sequences, no hardware: accesses (00_scope.md R17), pseudo-instructions
(30_encoding.md R64-R66), assembler lines (R63) and long division (42_arithmetic.md R96). -/

namespace Sys2Proof.Machine

open Sys2Proof

/-- `W32 off, v` (R17). -/
def w32 (off : BitVec 12) (v : Word) : Access := ⟨true, off, .word, v⟩
/-- `W8 off, b` (R17). -/
def w8 (off : BitVec 12) (b : Byte) : Access := ⟨true, off, .byte, b.setWidth 32⟩
/-- `R32 off` (R17). -/
def r32 (off : BitVec 12) : Access := ⟨false, off, .word, 0⟩
/-- A mnemonic line (R17): `W32 0x000, <its encoding>`. -/
def line (i : Instr) : Access := w32 0x000 (encode i)
/-- `ARG0 = v` (R17). -/
def setArg0 (v : Word) : Access := w32 0x010 v
/-- `ARG1 = v` (R17). -/
def setArg1 (v : Word) : Access := w32 0x014 v
/-- `ARG2 = v` (R17). -/
def setArg2 (v : Word) : Access := w32 0x018 v

/-- The pseudo-instructions (R64-R66). A signed immediate is its 32-bit two's complement. -/
inductive Pseudo where
  | add (pd pa pb : Reg)
  | sub (pd pa pb : Reg)
  | mov (pd pa : Reg)
  | rotl (pd pa : Reg) (n w : Nat) (pt : Reg)
  | rotr (pd pa : Reg) (n w : Nat) (pt : Reg)
  | shli (pd pa : Reg) (n : Word)
  | mulsi (pd pa : Reg) (v : Word)
  | geti (pa : Reg) (i : Word)
  | seti (pd : Reg) (i v : Word)
  | slicei (pd pa : Reg) (start stop step : Word)
  | setri (pd pa : Reg) (start stop step : Word)
  | loadi (pd : Reg) (o : LayoutOrder) (bytes : List Byte) (bits : Word)
  | loadiDefw (pd : Reg) (o : LayoutOrder) (bytes : List Byte)
  deriving DecidableEq, Repr

/-- What the assembler accepts (R64): a rotate needs w > 0, n in range and a scratch register other than the
destination; bytes of LOADI must have an address in the window (log 19). -/
def Pseudo.wf : Pseudo → Bool
  | .rotl pd _ n w pt => decide (1 ≤ n ∧ n ≤ w) && pt != pd
  | .rotr pd _ n w pt => decide (n < w) && pt != pd
  | .loadi _ _ bytes _ => decide (bytes.length ≤ 2048)
  | .loadiDefw _ _ bytes => decide (bytes.length ≤ 2048)
  | .add _ _ _ | .sub _ _ _ | .mov _ _ | .shli _ _ _ | .mulsi _ _ _ | .geti _ _ | .seti _ _ _
  | .slicei _ _ _ _ _ | .setri _ _ _ _ _ => true

/-- The ROTL expansion (R64), for a source of width w. -/
def expandRotl (pd pa : Reg) (n w : Nat) (pt : Reg) : List Access :=
  [ setArg0 (BitVec.ofNat 32 n), line (.shl pt pa),
    setArg0 (BitVec.ofNat 32 w), setArg1 (BitVec.ofNat 32 (w + n)), setArg2 1, line (.slice pd pt),
    setArg0 0, setArg1 (BitVec.ofNat 32 w), line (.slice pt pt),
    line (.xor pd pt pd) ]

/-- The byte writes of LOADI (R66): `W8 0x800+k, bk`. -/
def stageBytesAt (k : Nat) : List Byte → List Access
  | [] => []
  | b :: bs => w8 (BitVec.ofNat 12 (Access.stageBase + k)) b :: stageBytesAt (k + 1) bs

/-- The expansion of a pseudo-instruction (R64-R66). -/
def Pseudo.expand : Pseudo → List Access
  | .add pd pa pb => [line (.xor pd pa pb)]
  | .sub pd pa pb => [line (.xor pd pa pb)]
  | .mov pd pa => [setArg0 0, line (.shl pd pa)]
  | .rotl pd pa n w pt => expandRotl pd pa n w pt
  | .rotr pd pa n w pt => expandRotl pd pa (w - n) w pt
  | .shli pd pa n => [setArg0 n, line (.shl pd pa)]
  | .mulsi pd pa v => [setArg0 v, line (.muls pd pa)]
  | .geti pa i => [setArg0 i, line (.get pa)]
  | .seti pd i v => [setArg0 i, setArg1 v, line (.set pd)]
  | .slicei pd pa a b c => [setArg0 a, setArg1 b, setArg2 c, line (.slice pd pa)]
  | .setri pd pa a b c => [setArg0 a, setArg1 b, setArg2 c, line (.setr pd pa)]
  | .loadi pd o bytes bits =>
    stageBytesAt 0 bytes ++ [setArg0 (BitVec.ofNat 32 bytes.length), setArg1 bits, line (.load pd false o)]
  | .loadiDefw pd o bytes =>
    stageBytesAt 0 bytes ++ [setArg0 (BitVec.ofNat 32 bytes.length), line (.load pd true o)]

/-- A register in assembler syntax (R63). -/
def regName (r : Reg) : String := "p" ++ toString r.val

/-- An order in assembler syntax (R63). -/
def orderName : LayoutOrder → String
  | .big => "big"
  | .little => "little"

/-- A command as an assembler line (R63). -/
def asmLine (i : Instr) : String :=
  i.mnemonic ++ " " ++
    match i with
    | .load rd d o => regName rd ++ ", " ++ orderName o ++ (if d then ", defw" else "")
    | .rand rd o => regName rd ++ ", " ++ orderName o
    | .store ra => regName ra
    | .info ra => regName ra
    | .get ra => regName ra
    | .set rd => regName rd
    | .slice rd ra => regName rd ++ ", " ++ regName ra
    | .setr rd ra => regName rd ++ ", " ++ regName ra
    | .xor rd ra rb => regName rd ++ ", " ++ regName ra ++ ", " ++ regName rb
    | .shl rd ra => regName rd ++ ", " ++ regName ra
    | .mul rd ra rb => regName rd ++ ", " ++ regName ra ++ ", " ++ regName rb
    | .muls rd ra => regName rd ++ ", " ++ regName ra
    | .divt ra rb => regName ra ++ ", " ++ regName rb

/-- Go on from a next state; a fault or a refusal ends the sequence. -/
def andThen (r : Host.Outcome State Fault Refusal) (f : State → Host.Outcome State Fault Refusal) :
    Host.Outcome State Fault Refusal :=
  match r with
  | .next s => f s
  | .fault e => .fault e
  | .refused e => .refused e

/-- The host makes one access to an idle unit, and the command it may start takes effect. -/
def issue (a : Access) (s : State) : Host.Outcome State Fault Refusal := (s.access a).unitTurn

/-- A sequence of accesses, each command taking effect before the next access. -/
def issueAll : List Access → State → Host.Outcome State Fault Refusal
  | [], s => .next s
  | a :: as, s => andThen (issue a s) (issueAll as)

/-- FLAG as the host reads it (R96): bit 2 of the word a STATUS read returned. -/
def flagRead (s : State) : Bool :=
  match s.response with
  | some (.readDone v) => v.getLsbD 2
  | _ => false

/-- One pass of the long-division loop at i (R96). -/
def longDivisionPass (pn pd pt : Reg) (i : Nat) (s : State) : Host.Outcome State Fault Refusal :=
  andThen (issueAll [setArg0 (BitVec.ofNat 32 i), line (.shl pt pd), line (.divt pn pt), r32 0x004] s)
    (fun s => if flagRead s then issue (line (.xor pn pn pt)) s else .next s)

/-- The passes at i = n-1 down to 0 (R96). -/
def longDivisionLoop (pn pd pt : Reg) : Nat → State → Host.Outcome State Fault Refusal
  | 0, s => .next s
  | n + 1, s => andThen (longDivisionPass pn pd pt n s) (longDivisionLoop pn pd pt n)

/-- How many passes (R96): i runs from N.bits - D.bits down to 0; none if N.bits < D.bits. -/
def longDivisionPasses (nBits dBits : Nat) : Nat := if dBits ≤ nBits then nBits - dBits + 1 else 0

/-- Long division (R96): remainder in pn, checksum (its low D.bits - 1 coefficients) in pc. -/
def longDivision (pn pd pt pc : Reg) (s : State) : Host.Outcome State Fault Refusal :=
  andThen (longDivisionLoop pn pd pt (longDivisionPasses (s.poly pn).width (s.poly pd).width) s)
    (issueAll [setArg0 0, setArg1 (BitVec.ofInt 32 ((s.poly pd).width - 1)), setArg2 1, line (.slice pc pn)])

end Sys2Proof.Machine
end

