-- ==== Sys2Proof/Safety.lean ====
section
/-! DEFINITION. The terms the claims use: readable operands, fresh values, what a command keeps, and the invariant of
the machine. -/

namespace Sys2Proof.Machine

open Sys2Proof

/-- A register CheckOperands lets through (60_exceptions.md R102): valid, and bits <= 8 * len. -/
def PolyReg.Readable (p : PolyReg) : Prop := p.valid = true ∧ p.width ≤ 8 * p.len

/-- A fresh value of width w and order ord whose coefficient i is f i (10_state.md R26): ceil(w/8) bytes, every one of
them known, and every bit of them that holds no coefficient 0. -/
structure PolyReg.Fresh (p : PolyReg) (w : Nat) (ord : LayoutOrder) (f : Nat → Bool) : Prop where
  valid   : p.valid = true
  order   : p.order = ord
  width   : p.width = w
  len     : p.len = ceil8 w
  coef    : ∀ i, i < w → p.coef i = f i
  known   : ∀ b, b < p.len → (p.data.read? b).isSome = true
  padding : ∀ b k, b < p.len → k < 8 → (∀ i, i < w → loc i w ord ≠ (b, k)) → (p.byte b).getLsbD k = false

/-- The polynomial registers a command reads as operands or receiver, in the order of the table of R102. -/
def operandsOf : Instr → List Reg
  | .load _ _ _ => []
  | .rand _ _ => []
  | .store ra => [ra]
  | .info _ => []
  | .get ra => [ra]
  | .set rd => [rd]
  | .slice _ ra => [ra]
  | .setr rd ra => [ra, rd]
  | .xor _ ra rb => [ra, rb]
  | .shl _ ra => [ra]
  | .mul _ ra rb => [ra, rb]
  | .muls _ ra => [ra]
  | .divt ra rb => [ra, rb]

/-- What every command that completes without error keeps: parameters, arguments, the error record and the interface;
and the command has ended. -/
structure Completes (s t : State) : Prop where
  idle     : t.phase = .idle
  progress : t.received = []
  cfg      : t.cfg = s.cfg
  arg0     : t.arg0 = s.arg0
  arg1     : t.arg1 = s.arg1
  arg2     : t.arg2 = s.arg2
  err      : t.err = s.err
  errCode  : t.errCode = s.errCode
  errCmd   : t.errCmd = s.errCmd
  host     : t.host = s.host
  held     : t.held = s.held
  response : t.response = s.response
  turns    : t.turns = s.turns

/-- Every polynomial register is kept. -/
def KeepsPolys (s t : State) : Prop := ∀ r, t.poly r = s.poly r

/-- Every polynomial register but rd is kept. -/
def KeepsOtherPolys (rd : Reg) (s t : State) : Prop := ∀ r, r ≠ rd → t.poly r = s.poly r

/-- Every byte of STAGE reads as before: all of it, for a command that stores nothing. -/
def KeepsStage (s t : State) : Prop := t.stage = s.stage ∧ ∀ k, t.stage.read? k = s.stage.read? k

/-- RES0, RES1 and FLAG are kept. -/
def KeepsResults (s t : State) : Prop := t.res0 = s.res0 ∧ t.res1 = s.res1 ∧ t.flag = s.flag

/-- The frame of a command that writes one polynomial register and nothing else. -/
structure WritesOnly (rd : Reg) (s t : State) : Prop where
  completes : Completes s t
  others    : KeepsOtherPolys rd s t
  stage     : KeepsStage s t
  results   : KeepsResults s t
  draws     : t.draws = s.draws

/-- The frame of a command that keeps every polynomial register and all of STAGE. -/
structure WritesNoPoly (s t : State) : Prop where
  completes : Completes s t
  polys     : KeepsPolys s t
  stage     : KeepsStage s t
  draws     : t.draws = s.draws

/-- The ranges of 41_bit_addressing.md R81 on a register of width w: 0 <= start < w, 0 <= stop <= w, step >= 1. -/
def State.InRange (s : State) (w : Nat) : Prop :=
  0 ≤ s.arg0.toInt ∧ s.arg0.toInt < w ∧ 0 ≤ s.arg1.toInt ∧ s.arg1.toInt ≤ w ∧ 1 ≤ s.arg2.toInt

/-- Position j of the index sequence of R81: start + j*step. -/
def State.position (s : State) (j : Nat) : Nat := s.arg0.toInt.toNat + j * s.arg2.toInt.toNat

/-- The index sequence of R81 has m elements: exactly the j below m have start + j*step < stop. -/
def State.SeqHas (s : State) (m : Nat) : Prop := ∀ j : Nat, j < m ↔ (s.position j : Int) < s.arg1.toInt

/-- Every state element at the value of 10_state.md R39. -/
structure State.AtReset (t : State) : Prop where
  polys    : ∀ r, t.poly r = ⟨false, .big, 0, 0, []⟩
  args     : t.arg0 = 0 ∧ t.arg1 = 0 ∧ t.arg2 = 0
  results  : t.res0 = 0 ∧ t.res1 = 0
  status   : t.busy = false ∧ t.err = false ∧ t.flag = false ∧ t.statusWord = 0
  errors   : t.errCode = 0 ∧ t.errCmd = 0
  stage    : ∀ k, t.stage.read? k = none
  phase    : t.phase = .idle
  progress : t.received = [] ∧ t.bsReq = false

/-- Two registers no command can tell apart (R28): they differ at most in data[len..CAPB-1]. -/
structure PolyReg.SameSeen (p q : PolyReg) : Prop where
  valid : p.valid = q.valid
  order : p.order = q.order
  bits  : p.bits = q.bits
  len   : p.len = q.len
  data  : ∀ b, b < p.len → p.data.read? b = q.data.read? b

/-- Two states that differ at most in bytes no command can observe. -/
structure State.SameSeen (s t : State) : Prop where
  polys : ∀ r, (s.poly r).SameSeen (t.poly r)
  rest  : { s with polys := t.polys } = t

/-- The register a command writes whole (R21), if any. -/
def writesWhole : Instr → Option Reg
  | .load rd _ _ => some rd
  | .rand rd _ => some rd
  | .store _ => none
  | .info _ => none
  | .get _ => none
  | .set _ => none
  | .slice rd _ => some rd
  | .setr _ _ => none
  | .xor rd _ _ => some rd
  | .shl rd _ => some rd
  | .mul rd _ _ => some rd
  | .muls rd _ => some rd
  | .divt _ _ => none

/-- A reset pulse is the next turn. -/
def State.resetIsNext (s : State) : Prop := ∃ p ts, s.turns = .reset p :: ts

/-- The host's turn is next and this access is the host's next one. -/
def State.hostIsNext (s : State) (a : Access) (rest : List Access) (ts : List Turn) : Prop :=
  s.turns = .host :: ts ∧ s.host = a :: rest

/-- The state after an access has left the bus, before what the access itself changes. -/
def State.offBus (s : State) (rest : List Access) (ts : List Turn) (r : BusResponse) : State :=
  { s with turns := ts, host := rest, held := false, response := some r }

/-- n steps, one after another; a fault or a refusal ends the run. -/
def steps : Nat → State → Host.Outcome State Fault Refusal
  | 0, s => .next s
  | n + 1, s =>
    match step s with
    | .next t => steps n t
    | .fault e => .fault e
    | .refused e => .refused e

/-- Bytes of a buffer of CAPB bytes in canonical form. -/
def Memory.Within (m : Memory) (capb : Nat) : Prop := m.wf ∧ ∀ c ∈ m, c.1 < capb

/-- A polynomial register as every run keeps it: len within the buffer (R20), every byte of the value known (R26, R28),
and a register that holds no polynomial is as reset left it (R21). -/
structure PolyReg.Inv (capb : Nat) (p : PolyReg) : Prop where
  len     : p.len ≤ capb
  data    : p.data.Within capb
  known   : ∀ b, b < p.len → (p.data.read? b).isSome = true
  invalid : p.valid = false → p = PolyReg.reset

/-- A RAND is in flight and has received no more bytes than it needs (R38, R72). -/
def State.RandInFlight (s : State) : Prop :=
  ∃ w, s.phase = .busy w ∧ isRand w = true ∧ s.randWidth ≤ s.cfg.wmax ∧ s.received.length ≤ s.randLen

/-- The invariant of the machine. -/
structure State.Inv (s : State) : Prop where
  /-- 1 <= CAPB <= 2048 (R7) -/
  cfg      : s.cfg.Legal
  /-- every polynomial register (R20, R21, R26) -/
  polys    : ∀ r, (s.poly r).Inv s.cfg.capb
  /-- STAGE in canonical form, below CAPB (R44) -/
  stage    : s.stage.Within s.cfg.capb
  /-- a command is accepted only when ERR = 0 (R106, R123) -/
  noErr    : s.busy = true → s.err = false
  /-- ERRCODE values 6-15 are never produced (R101) -/
  errCode  : s.errCode.toNat ≤ 5
  /-- a recorded error has a code (R100, R101) -/
  errCoded : s.err = true → s.errCode ≠ 0
  /-- RES1 bits 29:12 read 0 (R34) -/
  res1     : s.res1.extractLsb' 12 18 = 0
  /-- byte-source progress belongs to a RAND in flight (R38) -/
  progress : s.received = [] ∨ s.RandInFlight
  /-- only an access the interlock holds is held (R123) -/
  held     : s.held = true → ∃ a rest, s.host = a :: rest ∧ a.isStatusRead = false

end Sys2Proof.Machine
end

