-- ==== Sys2Proof/Certificates/Slice0/Obligations.lean ====
section
/-! DEFINITION. The statements for the provers. Each docstring names the rule of spec/ it formalises, or the model's choice
it rests on with its log entry. A step is one turn of one agent, the oldest of `turns` (log 5): the statements about steps
say what each agent's turn does, in whatever order the turns come. -/

open Sys2Proof Sys2Proof.Machine

/-! ### Encoding (30_encoding.md) -/

/-- Decoding the word of a command gives the command back, for every command and every operand. -/
def Obligations.DecodeInvertsEncode : Prop := ∀ i : Instr, decode (encode i) = .ok i

/-- Every word the decoder accepts is the word of the command it gives: no bit of a word is dropped. -/
def Obligations.EncodeInvertsDecode : Prop := ∀ (w : Word) (i : Instr), decode w = .ok i → encode i = w

/-- R58. The decoder accepts exactly the words that agree with a row of R60 on every bit its mask covers; any other word
raises IllegalCommand, whatever else holds. -/
def Obligations.LegalWordsAreThoseOfTheTable : Prop :=
  (∀ w : Word, (∃ i, decode w = .ok i) ↔ ∃ r ∈ opcodeRows, w &&& r.mask = r.pattern) ∧
  (∀ (s : State) (w : Word) (ts : List Turn), s.phase = .busy w → s.turns = .unit :: ts →
    (¬ ∃ r ∈ opcodeRows, w &&& r.mask = r.pattern) →
    step s = .next ({ s with turns := ts }.raise .illegalCommand w))

/-- R60's column of patterns and masks: no word selects two rows, and the word of a command selects the row of its own
mnemonic and no other. -/
def Obligations.EachWordHasOneRow : Prop :=
  (∀ (w : Word), ∀ a ∈ opcodeRows, ∀ b ∈ opcodeRows, a.selects w = true → b.selects w = true → a = b) ∧
  (∀ i : Instr, ∀ r ∈ opcodeRows, r.selects (encode i) = true ↔ r.mnemonic = i.mnemonic)

/-- R67. The worked encodings, read and written, and the words that raise IllegalCommand. -/
def Obligations.WorkedEncodings : Prop :=
  (∀ c ∈ ([ (.load 0 false .big, 0x01000000), (.load 1 false .big, 0x01100000),
            (.load 3 true .little, 0x01300003), (.rand 2 .little, 0x02200001),
            (.store 3, 0x03030000), (.info 5, 0x04050000), (.get 0, 0x10000000), (.set 0, 0x11000000),
            (.slice 3 0, 0x12300000), (.setr 0 1, 0x13010000), (.xor 0 0 2, 0x20002000),
            (.shl 2 1, 0x21210000), (.mul 2 0 1, 0x22201000), (.muls 1 0, 0x23100000),
            (.divt 0 2, 0x24002000), (.xor 15 14 13, 0x20FED000) ] : List (Instr × Word)),
      decode c.2 = .ok c.1 ∧ encode c.1 = c.2) ∧
  (∀ w ∈ ([0x00000000, 0x05000000, 0x20000004, 0x21001000, 0x02000002, 0x24100000] : List Word),
    ∀ s : State, s.phase = .busy w → s.unitTurn = .next (s.raise .illegalCommand w))

/-! ### The layout mapping (10_state.md) -/

/-- R23. Where coefficient i of a polynomial of width w lies; distinct coefficients lie at distinct bits, and only the
first ceil(w/8) bytes are used, in either order. -/
def Obligations.LayoutPlacesCoefficients : Prop :=
  (∀ i w : Nat, i < w → loc i w .big = ((w + 7) / 8 - 1 - i / 8, i % 8) ∧ loc i w .little = (i / 8, i % 8)) ∧
  (∀ (i w : Nat) (o : LayoutOrder), i < w → (loc i w o).1 < (w + 7) / 8 ∧ (loc i w o).2 < 8) ∧
  (∀ (i j w : Nat) (o : LayoutOrder), i < w → j < w → loc i w o = loc j w o → i = j) ∧
  (∀ (p : PolyReg) (i : Nat), i < p.width →
    p.coef i = ((p.byte (loc i p.width p.order).1 >>> (loc i p.width p.order).2) &&& 1 == 1))

/-! ### The step and the errors (60_exceptions.md) -/

/-- When the unit has the turn and the accepted word decodes to i, the step is exec of i. The other two clauses are the
model's choice, which no rule of the spec gives: that a busy unit moves when no turn is left and no byte is awaited (DESIGN
CHOICE, log 5), and that right after `withFetchWord` the step runs the word put in place, with phase, ERR and byte-source
progress as acceptance leaves them (DESIGN CHOICE, log 4; DEDUCED, log 16). -/
def Obligations.StepRunsTheDecodedCommand : Prop :=
  ∀ (s : State) (w : Word) (i : Instr), decode w = .ok i →
    (∀ ts, s.phase = .busy w → s.turns = .unit :: ts → step s = exec i { s with turns := ts }) ∧
    (s.phase = .busy w → s.turns = [] → s.bsReq = false → step s = exec i s) ∧
    step (s.withFetchWord 32 w.toNat) =
      exec i { s with phase := .busy w, err := false, received := [] }

/-- R100. A command that raises an error writes ERRCODE, ERRCMD (its own word), ERR and BUSY, and nothing else of the
unit. -/
def Obligations.AnErrorChangesOnlyTheErrorRecord : Prop :=
  ∀ (s t : State) (ts : List Turn), s.turns = .unit :: ts → step s = .next t → s.err = false → t.err = true →
    ∃ (w : Word) (e : Err), s.phase = .busy w ∧
      t.errCode = e.code ∧ t.errCmd = w ∧ t.busy = false ∧ t.received = [] ∧
      t.polys = s.polys ∧ t.res0 = s.res0 ∧ t.res1 = s.res1 ∧ t.flag = s.flag ∧
      t.arg0 = s.arg0 ∧ t.arg1 = s.arg1 ∧ t.arg2 = s.arg2 ∧
      t.stage = s.stage ∧ (∀ k, t.stage.read? k = s.stage.read? k) ∧ t.cfg = s.cfg ∧
      t.host = s.host ∧ t.held = s.held ∧ t.response = s.response ∧ t.turns = ts ∧ t.draws = s.draws

/-- The codes of the table of 60_exceptions.md section 2, as the host reads ERRCODE after the error, with ERR = 1 and
BUSY = 0. -/
def Obligations.ErrorCodesAreThoseOfTheTable : Prop :=
  ∀ (s : State) (w : Word),
    (s.raise .indexOutOfRange w).readReg 0x008 = 1 ∧ (s.raise .sizeMismatch w).readReg 0x008 = 2 ∧
    (s.raise .invalidOperandType w).readReg 0x008 = 3 ∧ (s.raise .invalidWidth w).readReg 0x008 = 4 ∧
    (s.raise .illegalCommand w).readReg 0x008 = 5 ∧
    ∀ e, (s.raise e w).readReg 0x00C = w ∧ (s.raise e w).readReg 0x004 = (if s.flag then 6 else 2)

/-! ### Construction and transfer (40_construction.md) -/

/-- R71, LOAD: the count check, the descriptor, and the bytes of STAGE copied. (A byte of STAGE not written since reset
is a free value: `UnwrittenStageBytesAreFreeValues`.) -/
def Obligations.LoadConstructsFromStage : Prop :=
  ∀ (s : State) (rd : Reg) (d : Bool) (o : LayoutOrder), s.cfg.Legal →
    (s.arg0.toNat > s.cfg.capb →
      exec (.load rd d o) s = .next (s.raise .invalidWidth (encode (.load rd d o)))) ∧
    (s.arg0.toNat ≤ s.cfg.capb → ∃ t, exec (.load rd d o) s = .next t ∧
      (t.poly rd).valid = true ∧ (t.poly rd).order = o ∧ (t.poly rd).len = s.arg0.toNat ∧
      (t.poly rd).width = (if d then 8 * s.arg0.toNat else s.arg1.toNat) ∧
      (∀ k b, k < s.arg0.toNat → s.stage.read? k = some b → (t.poly rd).data.read? k = some b) ∧
      (∀ k, s.arg0.toNat ≤ k → (t.poly rd).data.read? k = (s.poly rd).data.read? k) ∧
      Completes s t ∧ KeepsOtherPolys rd s t ∧ KeepsStage s t ∧ KeepsResults s t)

/-- The model's form of "returns any value" for a byte of STAGE not written since reset (log 2): every read of one, by
LOAD or through the window, takes the next free value, and the count of free values moves past the bytes read. It holds
whatever the count is. -/
def Obligations.UnwrittenStageBytesAreFreeValues : Prop :=
  ∀ s : State,
    (∀ (rd : Reg) (d : Bool) (o : LayoutOrder), s.arg0.toNat ≤ s.cfg.capb →
      ∃ t, exec (.load rd d o) s = .next t ∧ t.draws = s.draws + s.arg0.toNat ∧
        ∀ k, k < s.arg0.toNat → s.stage.read? k = none →
          (t.poly rd).data.read? k = some (Config.draw (s.draws + k))) ∧
    (∀ (off : BitVec 12) (rest : List Access) (ts : List Turn), s.phase = .idle → 0x800 ≤ off.toNat →
      off.toNat - 0x800 < s.cfg.capb → s.hostIsNext ⟨false, off, .byte, 0⟩ rest ts →
      s.stage.read? (off.toNat - 0x800) = none →
      ∃ t v, step s = .next t ∧ t.response = some (.readDone v) ∧ v.extractLsb' 0 8 = Config.draw s.draws ∧
        t.draws = s.draws + 1)

/-- RAND as R72 describes it, in the model's form (log 7): the width check, before any byte is requested; the command
waits, unchanged, while it lacks bytes; then the value as delivered. -/
def Obligations.RandConstructsFromTheByteSource : Prop :=
  ∀ (s : State) (rd : Reg) (o : LayoutOrder),
    (s.arg1.toNat > 8 * s.cfg.capb →
      exec (.rand rd o) s = .next (s.raise .invalidWidth (encode (.rand rd o))) ∧ s.bsReq = false) ∧
    (s.arg1.toNat ≤ 8 * s.cfg.capb → s.received.length < ceil8 s.arg1.toNat →
      exec (.rand rd o) s = .next s ∧ (s.phase = .busy (encode (.rand rd o)) → s.bsReq = true)) ∧
    (s.arg1.toNat ≤ 8 * s.cfg.capb → ceil8 s.arg1.toNat ≤ s.received.length →
      s.bsReq = false ∧ ∃ t, exec (.rand rd o) s = .next t ∧
      (t.poly rd).valid = true ∧ (t.poly rd).order = o ∧ (t.poly rd).width = s.arg1.toNat ∧
      (t.poly rd).len = ceil8 s.arg1.toNat ∧
      (∀ k, k < ceil8 s.arg1.toNat → (t.poly rd).data.read? k = s.received[k]?) ∧
      (∀ k, ceil8 s.arg1.toNat ≤ k → (t.poly rd).data.read? k = (s.poly rd).data.read? k) ∧
      WritesOnly rd s t)

/-- A RAND that has received no byte yet ends once the source has delivered its ceil(w/8) bytes (log 5, log 7): after
one step for each byte and one of the unit, the register holds exactly those bytes, in the order of delivery. -/
def Obligations.RandEndsWithItsLastByte : Prop :=
  ∀ (s : State) (rd : Reg) (o : LayoutOrder) (bs : List Byte) (ts : List Turn),
    s.phase = .busy (encode (.rand rd o)) → s.received = [] → s.arg1.toNat ≤ 8 * s.cfg.capb →
    bs.length = ceil8 s.arg1.toNat → s.turns = bs.map .byte ++ .unit :: ts →
    ∃ t, steps (bs.length + 1) s = .next t ∧ t.phase = .idle ∧ t.err = s.err ∧ t.turns = ts ∧
      (t.poly rd).valid = true ∧ (t.poly rd).order = o ∧ (t.poly rd).width = s.arg1.toNat ∧
      (t.poly rd).len = bs.length ∧ (∀ k, k < bs.length → (t.poly rd).data.read? k = bs[k]?) ∧
      (∀ r, r ≠ rd → t.poly r = s.poly r)

/-- R73, STORE: the checks, and STAGE[0..len-1] and RES0 written. -/
def Obligations.StoreCopiesBytesToStage : Prop :=
  ∀ (s : State) (ra : Reg),
    ((s.poly ra).valid = false →
      exec (.store ra) s = .next (s.raise .invalidOperandType (encode (.store ra)))) ∧
    ((s.poly ra).valid = true → (s.poly ra).width > 8 * (s.poly ra).len →
      exec (.store ra) s = .next (s.raise .invalidWidth (encode (.store ra)))) ∧
    ((s.poly ra).Readable → ∃ t, exec (.store ra) s = .next t ∧
      (∀ k, k < (s.poly ra).len → t.stage.read? k = some ((s.poly ra).byte k)) ∧
      (∀ k, (s.poly ra).len ≤ k → t.stage.read? k = s.stage.read? k) ∧
      t.res0 = BitVec.ofNat 32 (s.poly ra).len ∧ t.res1 = s.res1 ∧ t.flag = s.flag ∧
      Completes s t ∧ KeepsPolys s t ∧ t.draws = s.draws)

/-- R74, INFO: never an error, whatever the register holds. -/
def Obligations.InfoReadsTheDescriptor : Prop :=
  ∀ (s : State) (ra : Reg), ∃ t, exec (.info ra) s = .next t ∧
    t.res0 = (s.poly ra).bits ∧
    t.res1.getLsbD 31 = (s.poly ra).valid ∧
    t.res1.getLsbD 30 = ((s.poly ra).order == .little) ∧
    t.res1.extractLsb' 12 18 = 0 ∧
    t.res1.extractLsb' 0 12 = BitVec.ofNat 12 (s.poly ra).len ∧
    t.flag = s.flag ∧ WritesNoPoly s t

/-! ### Bit addressing (41_bit_addressing.md) -/

/-- R80, GET. -/
def Obligations.GetReadsOneCoefficient : Prop :=
  ∀ (s : State) (ra : Reg),
    ((s.poly ra).valid = false →
      exec (.get ra) s = .next (s.raise .invalidOperandType (encode (.get ra)))) ∧
    ((s.poly ra).valid = true → (s.poly ra).width > 8 * (s.poly ra).len →
      exec (.get ra) s = .next (s.raise .invalidWidth (encode (.get ra)))) ∧
    ((s.poly ra).Readable → (s.arg0.toInt < 0 ∨ s.arg0.toInt ≥ (s.poly ra).width) →
      exec (.get ra) s = .next (s.raise .indexOutOfRange (encode (.get ra)))) ∧
    ((s.poly ra).Readable → 0 ≤ s.arg0.toInt → s.arg0.toInt < (s.poly ra).width →
      ∃ t, exec (.get ra) s = .next t ∧
        t.res0 = (if (s.poly ra).coef s.arg0.toInt.toNat then 1 else 0) ∧
        t.res1 = s.res1 ∧ t.flag = s.flag ∧ WritesNoPoly s t)

/-- R82, SET: the checks in order, the no-op at and beyond the width, and the one bit written. -/
def Obligations.SetWritesOneCoefficient : Prop :=
  ∀ (s : State) (rd : Reg),
    ((s.poly rd).valid = false →
      exec (.set rd) s = .next (s.raise .invalidOperandType (encode (.set rd)))) ∧
    ((s.poly rd).valid = true → (s.poly rd).width > 8 * (s.poly rd).len →
      exec (.set rd) s = .next (s.raise .invalidWidth (encode (.set rd)))) ∧
    ((s.poly rd).Readable → s.arg1.toNat > 1 →
      exec (.set rd) s = .next (s.raise .invalidOperandType (encode (.set rd)))) ∧
    ((s.poly rd).Readable → s.arg1.toNat ≤ 1 → s.arg0.toInt < 0 →
      exec (.set rd) s = .next (s.raise .indexOutOfRange (encode (.set rd)))) ∧
    ((s.poly rd).Readable → s.arg1.toNat ≤ 1 → s.arg0.toInt ≥ (s.poly rd).width →
      ∃ t, exec (.set rd) s = .next t ∧ KeepsPolys s t ∧ WritesOnly rd s t) ∧
    ((s.poly rd).Readable → s.arg1.toNat ≤ 1 → 0 ≤ s.arg0.toInt → s.arg0.toInt < (s.poly rd).width →
      ∃ t, exec (.set rd) s = .next t ∧
        (t.poly rd).valid = true ∧ (t.poly rd).order = (s.poly rd).order ∧
        (t.poly rd).bits = (s.poly rd).bits ∧ (t.poly rd).len = (s.poly rd).len ∧
        (t.poly rd).coef s.arg0.toInt.toNat = (s.arg1 == 1) ∧
        (∀ j, j < (s.poly rd).width → j ≠ s.arg0.toInt.toNat → (t.poly rd).coef j = (s.poly rd).coef j) ∧
        (∀ b k, k < 8 → loc s.arg0.toInt.toNat (s.poly rd).width (s.poly rd).order ≠ (b, k) →
          ((t.poly rd).byte b).getLsbD k = ((s.poly rd).byte b).getLsbD k) ∧
        WritesOnly rd s t)

/-- R83, SLICE: the checks in order and the condensed polynomial. -/
def Obligations.SliceExtractsACondensedPolynomial : Prop :=
  ∀ (s : State) (rd ra : Reg),
    ((s.poly ra).valid = false →
      exec (.slice rd ra) s = .next (s.raise .invalidOperandType (encode (.slice rd ra)))) ∧
    ((s.poly ra).valid = true → (s.poly ra).width > 8 * (s.poly ra).len →
      exec (.slice rd ra) s = .next (s.raise .invalidWidth (encode (.slice rd ra)))) ∧
    ((s.poly ra).Readable → ¬ s.InRange (s.poly ra).width →
      exec (.slice rd ra) s = .next (s.raise .indexOutOfRange (encode (.slice rd ra)))) ∧
    ((s.poly ra).Readable → s.InRange (s.poly ra).width →
      ∃ t m, exec (.slice rd ra) s = .next t ∧ s.SeqHas m ∧
        (t.poly rd).Fresh m (s.poly ra).order (fun j => (s.poly ra).coef (s.position j)) ∧
        WritesOnly rd s t)

/-- R84, SETR: the checks in order and the bits scattered; every bit at no position of the sequence is kept. -/
def Obligations.SetrScattersAPolynomial : Prop :=
  ∀ (s : State) (rd ra : Reg),
    ((s.poly ra).valid = false ∨ (s.poly rd).valid = false →
      exec (.setr rd ra) s = .next (s.raise .invalidOperandType (encode (.setr rd ra)))) ∧
    ((s.poly ra).valid = true → (s.poly rd).valid = true →
      ((s.poly ra).width > 8 * (s.poly ra).len ∨ (s.poly rd).width > 8 * (s.poly rd).len) →
      exec (.setr rd ra) s = .next (s.raise .invalidWidth (encode (.setr rd ra)))) ∧
    ((s.poly ra).Readable → (s.poly rd).Readable → (s.poly ra).order ≠ (s.poly rd).order →
      exec (.setr rd ra) s = .next (s.raise .invalidOperandType (encode (.setr rd ra)))) ∧
    ((s.poly ra).Readable → (s.poly rd).Readable → (s.poly ra).order = (s.poly rd).order →
      ¬ s.InRange (s.poly rd).width →
      exec (.setr rd ra) s = .next (s.raise .indexOutOfRange (encode (.setr rd ra)))) ∧
    (∀ m, (s.poly ra).Readable → (s.poly rd).Readable → (s.poly ra).order = (s.poly rd).order →
      s.InRange (s.poly rd).width → s.SeqHas m → (s.poly ra).width ≠ m →
      exec (.setr rd ra) s = .next (s.raise .sizeMismatch (encode (.setr rd ra)))) ∧
    (∀ m, (s.poly ra).Readable → (s.poly rd).Readable → (s.poly ra).order = (s.poly rd).order →
      s.InRange (s.poly rd).width → s.SeqHas m → (s.poly ra).width = m →
      ∃ t, exec (.setr rd ra) s = .next t ∧
        (t.poly rd).valid = true ∧ (t.poly rd).order = (s.poly rd).order ∧
        (t.poly rd).bits = (s.poly rd).bits ∧ (t.poly rd).len = (s.poly rd).len ∧
        (∀ j, j < m → (t.poly rd).coef (s.position j) = (s.poly ra).coef j) ∧
        (∀ b k, k < 8 → (∀ j, j < m → loc (s.position j) (s.poly rd).width (s.poly rd).order ≠ (b, k)) →
          ((t.poly rd).byte b).getLsbD k = ((s.poly rd).byte b).getLsbD k) ∧
        WritesOnly rd s t)

/-- R85. SLICE into another register and SETR of it back, with the same range (step 1, as in the rule, or any other),
leaves the register unchanged, and neither command raises an error. -/
def Obligations.SliceScatterRoundTrip : Prop :=
  ∀ (s : State) (pp pt : Reg), s.Inv → pt ≠ pp → (s.poly pp).Readable → s.err = false →
    s.InRange (s.poly pp).width →
    ∃ t u, exec (.slice pt pp) s = .next t ∧ exec (.setr pp pt) t = .next u ∧
      t.err = false ∧ u.err = false ∧ u.poly pp = s.poly pp

/-! ### Arithmetic (42_arithmetic.md) -/

/-- R90, XOR: the checks in order and the coefficientwise sum. -/
def Obligations.XorAddsCoefficientwise : Prop :=
  ∀ (s : State) (rd ra rb : Reg),
    ((s.poly ra).valid = false ∨ (s.poly rb).valid = false →
      exec (.xor rd ra rb) s = .next (s.raise .invalidOperandType (encode (.xor rd ra rb)))) ∧
    ((s.poly ra).valid = true → (s.poly rb).valid = true →
      ((s.poly ra).width > 8 * (s.poly ra).len ∨ (s.poly rb).width > 8 * (s.poly rb).len) →
      exec (.xor rd ra rb) s = .next (s.raise .invalidWidth (encode (.xor rd ra rb)))) ∧
    ((s.poly ra).Readable → (s.poly rb).Readable → (s.poly ra).order ≠ (s.poly rb).order →
      exec (.xor rd ra rb) s = .next (s.raise .invalidOperandType (encode (.xor rd ra rb)))) ∧
    ((s.poly ra).Readable → (s.poly rb).Readable → (s.poly ra).order = (s.poly rb).order →
      ∃ t, exec (.xor rd ra rb) s = .next t ∧
        (t.poly rd).Fresh (max (s.poly ra).width (s.poly rb).width) (s.poly ra).order
          (fun i => (decide (i < (s.poly ra).width) && (s.poly ra).coef i) ^^
            (decide (i < (s.poly rb).width) && (s.poly rb).coef i)) ∧
        WritesOnly rd s t)

/-- R91, SHL: the checks in order; width a.bits + n, the low n coefficients 0; nothing wraps or is cut off. -/
def Obligations.ShlMultipliesByAPower : Prop :=
  ∀ (s : State) (rd ra : Reg), s.cfg.Legal →
    ((s.poly ra).valid = false →
      exec (.shl rd ra) s = .next (s.raise .invalidOperandType (encode (.shl rd ra)))) ∧
    ((s.poly ra).valid = true → (s.poly ra).width > 8 * (s.poly ra).len →
      exec (.shl rd ra) s = .next (s.raise .invalidWidth (encode (.shl rd ra)))) ∧
    ((s.poly ra).Readable → (s.poly ra).width + s.arg0.toNat > 8 * s.cfg.capb →
      exec (.shl rd ra) s = .next (s.raise .invalidWidth (encode (.shl rd ra)))) ∧
    ((s.poly ra).Readable → (s.poly ra).width + s.arg0.toNat ≤ 8 * s.cfg.capb →
      ∃ t, exec (.shl rd ra) s = .next t ∧
        (t.poly rd).Fresh ((s.poly ra).width + s.arg0.toNat) (s.poly ra).order
          (fun i => decide (s.arg0.toNat ≤ i) && (s.poly ra).coef (i - s.arg0.toNat)) ∧
        WritesOnly rd s t)

/-- R92, MUL: the checks in order; width max(1, wa + wb - 1); coefficient i is 1 when an odd number of k have b[k] = 1
and a[i - k] = 1. -/
def Obligations.MulIsTheCarrylessProduct : Prop :=
  ∀ (s : State) (rd ra rb : Reg), s.cfg.Legal →
    ((s.poly ra).valid = false ∨ (s.poly rb).valid = false →
      exec (.mul rd ra rb) s = .next (s.raise .invalidOperandType (encode (.mul rd ra rb)))) ∧
    ((s.poly ra).valid = true → (s.poly rb).valid = true →
      ((s.poly ra).width > 8 * (s.poly ra).len ∨ (s.poly rb).width > 8 * (s.poly rb).len) →
      exec (.mul rd ra rb) s = .next (s.raise .invalidWidth (encode (.mul rd ra rb)))) ∧
    ((s.poly ra).Readable → (s.poly rb).Readable → (s.poly ra).order ≠ (s.poly rb).order →
      exec (.mul rd ra rb) s = .next (s.raise .invalidOperandType (encode (.mul rd ra rb)))) ∧
    ((s.poly ra).Readable → (s.poly rb).Readable → (s.poly ra).order = (s.poly rb).order →
      max 1 ((s.poly ra).width + (s.poly rb).width - 1) > 8 * s.cfg.capb →
      exec (.mul rd ra rb) s = .next (s.raise .invalidWidth (encode (.mul rd ra rb)))) ∧
    ((s.poly ra).Readable → (s.poly rb).Readable → (s.poly ra).order = (s.poly rb).order →
      max 1 ((s.poly ra).width + (s.poly rb).width - 1) ≤ 8 * s.cfg.capb →
      ∃ t, exec (.mul rd ra rb) s = .next t ∧
        (t.poly rd).Fresh (max 1 ((s.poly ra).width + (s.poly rb).width - 1)) (s.poly ra).order
          (fun i => decide (((List.range (s.poly rb).width).countP (fun k =>
            (s.poly rb).coef k && decide (k ≤ i ∧ i - k < (s.poly ra).width) && (s.poly ra).coef (i - k))) % 2 = 1)) ∧
        WritesOnly rd s t)

/-- R93, MULS: the checks in order; the same width, every coefficient ANDed with the scalar. -/
def Obligations.MulsMultipliesByOneBit : Prop :=
  ∀ (s : State) (rd ra : Reg),
    ((s.poly ra).valid = false →
      exec (.muls rd ra) s = .next (s.raise .invalidOperandType (encode (.muls rd ra)))) ∧
    ((s.poly ra).valid = true → (s.poly ra).width > 8 * (s.poly ra).len →
      exec (.muls rd ra) s = .next (s.raise .invalidWidth (encode (.muls rd ra)))) ∧
    ((s.poly ra).Readable → s.arg0.toNat > 1 →
      exec (.muls rd ra) s = .next (s.raise .invalidOperandType (encode (.muls rd ra)))) ∧
    ((s.poly ra).Readable → s.arg0.toNat ≤ 1 →
      ∃ t, exec (.muls rd ra) s = .next t ∧
        (t.poly rd).Fresh (s.poly ra).width (s.poly ra).order
          (fun i => (s.arg0 == 1) && (s.poly ra).coef i) ∧
        WritesOnly rd s t)

/-- R94, DIVT: the checks in order; FLAG and RES0 get Hsb(divisor) <= Hsb(dividend); no register is written. -/
def Obligations.DivtComparesHighestBits : Prop :=
  ∀ (s : State) (ra rb : Reg),
    ((s.poly ra).valid = false ∨ (s.poly rb).valid = false →
      exec (.divt ra rb) s = .next (s.raise .invalidOperandType (encode (.divt ra rb)))) ∧
    ((s.poly ra).valid = true → (s.poly rb).valid = true →
      ((s.poly ra).width > 8 * (s.poly ra).len ∨ (s.poly rb).width > 8 * (s.poly rb).len) →
      exec (.divt ra rb) s = .next (s.raise .invalidWidth (encode (.divt ra rb)))) ∧
    ((s.poly ra).Readable → (s.poly rb).Readable → (s.poly ra).order ≠ (s.poly rb).order →
      exec (.divt ra rb) s = .next (s.raise .invalidOperandType (encode (.divt ra rb)))) ∧
    ((s.poly ra).Readable → (s.poly rb).Readable → (s.poly ra).order = (s.poly rb).order →
      ∃ t, exec (.divt ra rb) s = .next t ∧
        t.flag = decide ((s.poly rb).hsb ≤ (s.poly ra).hsb) ∧
        t.res0 = (if (s.poly rb).hsb ≤ (s.poly ra).hsb then 1 else 0) ∧
        t.res1 = s.res1 ∧ WritesNoPoly s t)

/-- R27. Hsb is the largest index below bits whose coefficient is 1, and 0 when there is none. -/
def Obligations.HighestSetBit : Prop :=
  ∀ p : PolyReg,
    ((∃ i, i < p.width ∧ p.coef i = true) →
      p.hsb < p.width ∧ p.coef p.hsb = true ∧ ∀ i, i < p.width → p.coef i = true → i ≤ p.hsb) ∧
    ((∀ i, i < p.width → p.coef i = false) → p.hsb = 0)

/-- XOR, SHL, MULS and MUL are addition, multiplication by x^n, by a scalar and the product of GF(2)[x]: the polynomial
a register holds is the sum of x^i over its coefficients that are 1. -/
def Obligations.CommandsComputeInTheRingOfPolynomials : Prop :=
  ∀ (poly : PolyReg → Polynomial (ZMod 2)),
    (∀ p, poly p = (Finset.range p.width).sum (fun i => if p.coef i then Polynomial.X ^ i else 0)) →
  ∀ (s t : State) (rd ra rb : Reg), s.cfg.Legal → s.err = false → t.err = false →
    (exec (.xor rd ra rb) s = .next t → poly (t.poly rd) = poly (s.poly ra) + poly (s.poly rb)) ∧
    (exec (.shl rd ra) s = .next t → poly (t.poly rd) = Polynomial.X ^ s.arg0.toNat * poly (s.poly ra)) ∧
    (exec (.muls rd ra) s = .next t → poly (t.poly rd) = (s.arg0.toNat : Polynomial (ZMod 2)) * poly (s.poly ra)) ∧
    (exec (.mul rd ra rb) s = .next t → poly (t.poly rd) = poly (s.poly ra) * poly (s.poly rb))

/-- XOR is its own inverse: XOR of a and b, then of the result and b, answers a value of width max(wa, wb) that has a's
coefficients over a's width and 0 above. -/
def Obligations.XorIsItsOwnInverse : Prop :=
  ∀ (s : State) (rd re ra rb : Reg), rd ≠ rb → s.err = false →
    (s.poly ra).Readable → (s.poly rb).Readable → (s.poly ra).order = (s.poly rb).order →
    ∃ t u, exec (.xor rd ra rb) s = .next t ∧ exec (.xor re rd rb) t = .next u ∧ u.err = false ∧
      (u.poly re).width = max (s.poly ra).width (s.poly rb).width ∧
      (∀ i, i < (s.poly ra).width → (u.poly re).coef i = (s.poly ra).coef i) ∧
      (∀ i, (s.poly ra).width ≤ i → i < (u.poly re).width → (u.poly re).coef i = false)

/-- The rotate expansion of 30_encoding.md section 5, run from an idle unit with no error: pd gets a's width and order,
and coefficient i of it is a's coefficient (i - n) mod w. -/
def Obligations.RotlExpansionRotates : Prop :=
  ∀ (s : State) (pd pa pt : Reg) (n w : Nat), s.cfg.Legal → s.phase = .idle → s.err = false →
    (s.poly pa).Readable → (s.poly pa).width = w → (Pseudo.rotl pd pa n w pt).wf = true →
    w + n ≤ 8 * s.cfg.capb →
    ∃ t, issueAll (Pseudo.rotl pd pa n w pt).expand s = .next t ∧ t.err = false ∧ t.phase = .idle ∧
      (t.poly pd).valid = true ∧ (t.poly pd).width = w ∧ (t.poly pd).order = (s.poly pa).order ∧
      (∀ i, i < w → (t.poly pd).coef i = (s.poly pa).coef ((i + (w - n)) % w)) ∧
      (∀ r, r ≠ pd → r ≠ pt → t.poly r = s.poly r)

/-- The long division of section 2, run from an idle unit with no error on a divisor of width at least 2 whose top
coefficient is 1: the remainder register keeps its width and holds N mod D, the checksum register holds the same in width
D.bits - 1, and the divisor is unchanged. -/
def Obligations.LongDivisionLeavesTheRemainder : Prop :=
  ∀ (poly : PolyReg → Polynomial (ZMod 2)),
    (∀ p, poly p = (Finset.range p.width).sum (fun i => if p.coef i then Polynomial.X ^ i else 0)) →
  ∀ (s : State) (pn pd pt pc : Reg), s.cfg.Legal → s.phase = .idle → s.err = false →
    [pn, pd, pt, pc].Nodup → (s.poly pn).Readable → (s.poly pd).Readable →
    (s.poly pn).order = (s.poly pd).order → (s.poly pn).width ≤ 8 * s.cfg.capb →
    2 ≤ (s.poly pd).width → (s.poly pd).width ≤ (s.poly pn).width →
    (s.poly pd).coef ((s.poly pd).width - 1) = true →
    ∃ t, longDivision pn pd pt pc s = .next t ∧ t.err = false ∧ t.phase = .idle ∧
      (t.poly pn).width = (s.poly pn).width ∧ poly (t.poly pn) = poly (s.poly pn) %ₘ poly (s.poly pd) ∧
      (t.poly pc).width = (s.poly pd).width - 1 ∧ poly (t.poly pc) = poly (s.poly pn) %ₘ poly (s.poly pd) ∧
      t.poly pd = s.poly pd

/-! ### Rules about the whole machine -/

/-- Every step keeps the invariant of the machine, from every state that meets it, and the parameters. (The fields
`progress` and `held` of the invariant are about the model's form of a waiting RAND and of a held access: log 7, log 9.) -/
def Obligations.EveryStepKeepsTheInvariant : Prop :=
  ∀ s t : State, s.Inv → step s = .next t → t.Inv ∧ t.cfg = s.cfg

/-- The invariant holds right after reset. -/
def Obligations.TheInvariantHoldsAtReset : Prop := State.reset.Inv

/-- FLAG is written only by DIVT: a step that changes it runs a DIVT or is a reset. -/
def Obligations.OnlyDivtWritesFlag : Prop :=
  ∀ s t : State, step s = .next t → t.flag ≠ s.flag →
    (∃ w ra rb, s.phase = .busy w ∧ decode w = .ok (.divt ra rb) ∧ t.phase = .idle) ∨ s.resetIsNext

/-- R33. The host writes and reads ARG0-ARG2; a step that changes one is the host's write of it, with the value written,
or a reset, with 0, so no command writes one; and the reset value is 0. -/
def Obligations.OnlyTheHostWritesArguments : Prop :=
  (∀ s t : State, step s = .next t →
    (t.arg0 ≠ s.arg0 →
      (∃ a rest, s.host = a :: rest ∧ a.we = true ∧ a.off = 0x010 ∧ t.arg0 = a.wdata) ∨
        (s.resetIsNext ∧ t.arg0 = 0)) ∧
    (t.arg1 ≠ s.arg1 →
      (∃ a rest, s.host = a :: rest ∧ a.we = true ∧ a.off = 0x014 ∧ t.arg1 = a.wdata) ∨
        (s.resetIsNext ∧ t.arg1 = 0)) ∧
    (t.arg2 ≠ s.arg2 →
      (∃ a rest, s.host = a :: rest ∧ a.we = true ∧ a.off = 0x018 ∧ t.arg2 = a.wdata) ∨
        (s.resetIsNext ∧ t.arg2 = 0))) ∧
  (∀ (s : State) (v : Word) (rest : List Access) (ts : List Turn), s.phase = .idle →
    (s.hostIsNext (w32 0x010 v) rest ts → step s = .next { s.offBus rest ts .writeDone with arg0 := v }) ∧
    (s.hostIsNext (w32 0x014 v) rest ts → step s = .next { s.offBus rest ts .writeDone with arg1 := v }) ∧
    (s.hostIsNext (w32 0x018 v) rest ts → step s = .next { s.offBus rest ts .writeDone with arg2 := v }) ∧
    (s.hostIsNext (r32 0x010) rest ts → step s = .next (s.offBus rest ts (.readDone s.arg0))) ∧
    (s.hostIsNext (r32 0x014) rest ts → step s = .next (s.offBus rest ts (.readDone s.arg1))) ∧
    (s.hostIsNext (r32 0x018) rest ts → step s = .next (s.offBus rest ts (.readDone s.arg2)))) ∧
  State.reset.arg0 = 0 ∧ State.reset.arg1 = 0 ∧ State.reset.arg2 = 0

/-- R21. A command that reads a register with valid = 0 raises InvalidOperandType, INFO never does; a register becomes
valid when LOAD, RAND, SLICE, XOR, SHL, MUL or MULS writes it whole, and only then; reset makes it invalid, and nothing
else does. -/
def Obligations.ValidityFollowsConstruction : Prop :=
  (∀ (i : Instr) (s : State), (∃ r ∈ operandsOf i, (s.poly r).valid = false) →
    exec i s = .next (s.raise .invalidOperandType (encode i))) ∧
  (∀ (ra : Reg) (s t : State), exec (.info ra) s = .next t → t.err = s.err) ∧
  (∀ (s t : State) (r : Reg), step s = .next t → (s.poly r).valid = false → (t.poly r).valid = true →
    ∃ w i, s.phase = .busy w ∧ decode w = .ok i ∧ writesWhole i = some r) ∧
  (∀ (i : Instr) (s t : State) (r : Reg) (w : Word), s.phase = .busy w → s.err = false → writesWhole i = some r →
    exec i s = .next t → t.phase = .idle → t.err = false → (t.poly r).valid = true) ∧
  (∀ (s : State) (r : Reg), s.resetIsNext → ∃ t, step s = .next t ∧ (t.poly r).valid = false) ∧
  (∀ (s t : State) (r : Reg), step s = .next t → (s.poly r).valid = true → (t.poly r).valid = false →
    s.resetIsNext)

/-- R34. A step that changes RES0 runs GET, DIVT, STORE or INFO, and one that changes RES1 runs INFO, without raising an
error, or it is a reset, with 0; so a host write changes neither. The register then holds what the rule says, and the host
reads it. -/
def Obligations.OnlyReadingCommandsWriteResults : Prop :=
  (∀ s t : State, step s = .next t → t.res0 ≠ s.res0 →
    (∃ w i, s.phase = .busy w ∧ decode w = .ok i ∧ t.err = s.err ∧
      ((∃ ra, i = .get ra ∧ t.res0 = (if (s.poly ra).coef s.arg0.toInt.toNat then 1 else 0)) ∨
       (∃ ra rb, i = .divt ra rb ∧ t.res0 = (if t.flag then 1 else 0) ∧
         t.flag = decide ((s.poly rb).hsb ≤ (s.poly ra).hsb)) ∨
       (∃ ra, i = .store ra ∧ t.res0 = BitVec.ofNat 32 (s.poly ra).len) ∨
       (∃ ra, i = .info ra ∧ t.res0 = (s.poly ra).bits))) ∨
    (s.resetIsNext ∧ t.res0 = 0)) ∧
  (∀ s t : State, step s = .next t → t.res1 ≠ s.res1 →
    (∃ w ra, s.phase = .busy w ∧ decode w = .ok (.info ra) ∧ t.err = s.err ∧
      t.res1.getLsbD 31 = (s.poly ra).valid ∧ t.res1.getLsbD 30 = ((s.poly ra).order == .little) ∧
      t.res1.extractLsb' 12 18 = 0 ∧ t.res1.extractLsb' 0 12 = BitVec.ofNat 12 (s.poly ra).len) ∨
    (s.resetIsNext ∧ t.res1 = 0)) ∧
  (∀ (s : State) (rest : List Access) (ts : List Turn), s.phase = .idle →
    (s.hostIsNext (r32 0x020) rest ts → step s = .next (s.offBus rest ts (.readDone s.res0))) ∧
    (s.hostIsNext (r32 0x024) rest ts → step s = .next (s.offBus rest ts (.readDone s.res1)))) ∧
  State.reset.res0 = 0 ∧ State.reset.res1 = 0

/-- Commands other than LOAD and STORE neither read nor write STAGE: with other contents of STAGE (and another count of
drawn values) they do the same to everything else. -/
def Obligations.OtherCommandsDoNotTouchStage : Prop :=
  ∀ (i : Instr) (s t : State) (m : Memory) (n : Nat),
    (∀ rd d o, i ≠ .load rd d o) → (∀ ra, i ≠ .store ra) → exec i s = .next t →
    t.stage = s.stage ∧ t.draws = s.draws ∧
      exec i { s with stage := m, draws := n } = .next { t with stage := m, draws := n }

/-- The bytes data[len..CAPB-1] of a register are observable through no command: from two states that differ at most in
them, a command goes to two states that differ at most in them. -/
def Obligations.BytesBeyondLenAreUnobservable : Prop :=
  ∀ (i : Instr) (s s' t : State), s.SameSeen s' → exec i s = .next t →
    ∃ t', exec i s' = .next t' ∧ t.SameSeen t'

/-- Every command answers a next state; a step stops exactly when no turn is left and a RAND waits for a byte, the stuck
state of 70_reset_and_hazards.md section 3 (the model's reading, log 6). -/
def Obligations.OnlyASilentByteSourceStopsTheMachine : Prop :=
  (∀ (i : Instr) (s : State), ∃ t, exec i s = .next t) ∧
  (∀ s : State, (∀ t, step s ≠ .next t) ↔ (s.turns = [] ∧ s.bsReq = true)) ∧
  (∀ s : State, s.turns = [] → s.bsReq = true → step s = .fault .byteSourceSilent)

/-! ### The host window and the interlock (20_memory.md, 70_reset_and_hazards.md) -/

/-- A RAND that waits (log 7) stays busy and changes no register: under the unit's turn nothing changes, under the host's turn
only the interface does, and a byte the source presents is received in order. -/
def Obligations.AWaitingRandStaysBusy : Prop :=
  ∀ (s : State) (ts : List Turn), s.bsReq = true →
    (s.turns = .unit :: ts → step s = .next { s with turns := ts }) ∧
    (s.turns = .host :: ts → ∃ t, step s = .next t ∧ t.bsReq = true ∧ t.phase = s.phase ∧
      t.received = s.received ∧ t.polys = s.polys ∧ t.stage = s.stage) ∧
    (∀ b, s.turns = .byte b :: ts →
      step s = .next { s with turns := ts, received := s.received ++ [b] })

/-- A byte transfers only while the unit requests it (log 7): with bs_req = 0 a presented byte changes nothing. -/
def Obligations.NoByteTransfersUnrequested : Prop :=
  ∀ (s : State) (b : Byte) (ts : List Turn), s.bsReq = false → s.turns = .byte b :: ts →
    step s = .next { s with turns := ts }

/-- The interlock (log 9 says which accesses count as STATUS reads): while the unit is busy a STATUS read returns
BUSY = 1, ERR = 0 and the old FLAG and changes nothing; every other access is held and changes nothing. When the unit is idle the access completes. -/
def Obligations.TheInterlockHoldsEveryAccessButAStatusRead : Prop :=
  ∀ (s : State) (a : Access) (rest : List Access) (ts : List Turn), s.hostIsNext a rest ts →
    (s.busy = true → s.err = false → a.we = false → a.off = 0x004 → a.size = .word →
      step s = .next (s.offBus rest ts (.readDone (if s.flag then 5 else 1)))) ∧
    (s.busy = true → (a.we = true ∨ a.off ≠ 0x004 ∨ a.size ≠ .word) →
      step s = .next { s with turns := ts, held := true }) ∧
    (s.busy = false → ∃ t r, step s = .next t ∧ t.host = rest ∧ t.held = false ∧ t.response = some r)

/-- R106. A CMD write to an idle unit is dropped while ERR = 1 and accepted otherwise; while BUSY = 1 it is held; an
accepted command is executed, or raises IllegalCommand, and ends with BUSY = 0, unless it is a RAND that waits. -/
def Obligations.CommandAcceptance : Prop :=
  ∀ (s : State) (ts : List Turn),
    (∀ w rest, s.hostIsNext (w32 0x000 w) rest ts →
      (s.phase = .idle → s.err = true → step s = .next (s.offBus rest ts .writeDone)) ∧
      (s.phase = .idle → s.err = false →
        step s = .next { s.offBus rest ts .writeDone with phase := .busy w }) ∧
      (s.busy = true → step s = .next { s with turns := ts, held := true })) ∧
    (∀ w, s.phase = .busy w → s.turns = .unit :: ts →
      (∀ i, decode w = .ok i → step s = exec i { s with turns := ts }) ∧
      (∀ u, decode w = .error u → step s = .next ({ s with turns := ts }.raise .illegalCommand w)) ∧
      ∃ t, step s = .next t ∧ (t.busy = false ∨ (s.bsReq = true ∧ t = { s with turns := ts })))

/-- R105. A STATUS write with bit 1 set clears ERR and leaves ERRCODE and ERRCMD; the unit then accepts a command. While
ERR = 1 on an idle unit no step but a reset changes the error record or a register, and only that write clears ERR. -/
def Obligations.ClearingAnError : Prop :=
  (∀ (s : State) (v : Word) (rest : List Access) (ts : List Turn),
    s.phase = .idle → s.hostIsNext (w32 0x004 v) rest ts → v.getLsbD 1 = true →
    step s = .next { s.offBus rest ts .writeDone with err := false }) ∧
  (∀ (s : State) (w : Word) (rest : List Access) (ts : List Turn),
    s.phase = .idle → s.err = false → s.hostIsNext (w32 0x000 w) rest ts →
    ∃ t, step s = .next t ∧ t.phase = .busy w) ∧
  (∀ s t : State, s.phase = .idle → s.err = true → step s = .next t → ¬ s.resetIsNext →
    t.phase = .idle ∧ t.errCode = s.errCode ∧ t.errCmd = s.errCmd ∧ t.polys = s.polys ∧
    (t.err = false → ∃ a rest, s.host = a :: rest ∧ a.we = true ∧ a.off = 0x004 ∧ a.wdata.getLsbD 1 = true))

/-- A STATUS write without bit 1 changes nothing of the unit. -/
def Obligations.OtherStatusBitsIgnoreWrites : Prop :=
  ∀ (s : State) (v : Word) (rest : List Access) (ts : List Turn),
    s.phase = .idle → s.hostIsNext (w32 0x004 v) rest ts → v.getLsbD 1 = false →
    step s = .next (s.offBus rest ts .writeDone)

/-- R42. In 0x000-0x7FF only aligned 32-bit accesses, in 0x800-0xFFF aligned accesses of 8, 16 or 32 bits; any other
access gets a bus error with read data 0 and changes nothing in the unit, ERR included. -/
def Obligations.IllegalAccessesGetABusError : Prop :=
  ∀ (s : State) (a : Access) (rest : List Access) (ts : List Turn),
    s.phase = .idle → s.hostIsNext a rest ts →
    let legal := (a.off < 0x800 ∧ a.size = .word ∧ a.off % 4 = 0) ∨
      (0x800 ≤ a.off ∧ (a.size = .byte ∨ (a.size = .half ∧ a.off % 2 = 0) ∨ (a.size = .word ∧ a.off % 4 = 0)))
    (¬ legal → step s = .next (s.offBus rest ts (.busError 0))) ∧
    (legal → ∃ t r, step s = .next t ∧ t.response = some r ∧ ∀ v, r ≠ .busError v)

/-- A read has no side effect at any offset: it changes nothing of the unit (the model's count of drawn values apart,
log 2). -/
def Obligations.ReadsHaveNoSideEffect : Prop :=
  ∀ (s t : State) (a : Access) (rest : List Access) (ts : List Turn),
    s.hostIsNext a rest ts → a.we = false → step s = .next t →
    t = { s with turns := t.turns, host := t.host, held := t.held, response := t.response, draws := t.draws }

/-- R35. ID and PARAM as the host reads them, whatever the state: ID is "GF2P", PARAM holds NPREG = 0x10 and CAPB, every
other bit 0; for CAPB = 32 it is 0x00100020. A write to either is ignored. -/
def Obligations.IdAndParamAreConstants : Prop :=
  ∀ (s : State) (rest : List Access) (ts : List Turn), s.cfg.Legal → s.phase = .idle →
    (s.hostIsNext (r32 0x028) rest ts → step s = .next (s.offBus rest ts (.readDone 0x47463250))) ∧
    (s.hostIsNext (r32 0x02C) rest ts →
      ∃ v : Word, step s = .next (s.offBus rest ts (.readDone v)) ∧
        v.extractLsb' 24 8 = 0 ∧ v.extractLsb' 16 8 = 0x10 ∧ v.extractLsb' 12 4 = 0 ∧
        (v.extractLsb' 0 12).toNat = s.cfg.capb ∧ (s.cfg.capb = 32 → v = 0x00100020)) ∧
    (∀ v, s.hostIsNext (w32 0x028 v) rest ts ∨ s.hostIsNext (w32 0x02C v) rest ts →
      step s = .next (s.offBus rest ts .writeDone))

/-- The registers as the host reads them from an idle unit: CMD and the reserved offsets read 0, STATUS shows ERR and
FLAG, and every other register its value. -/
def Obligations.RegisterReads : Prop :=
  ∀ (s : State) (off : BitVec 12) (rest : List Access) (ts : List Turn),
    s.phase = .idle → off.toNat % 4 = 0 → off.toNat < 0x800 → s.hostIsNext (r32 off) rest ts →
    ∃ v : Word, step s = .next (s.offBus rest ts (.readDone v)) ∧
      (off = 0x000 → v = 0) ∧
      (off = 0x004 → v.getLsbD 0 = false ∧ v.getLsbD 1 = s.err ∧ v.getLsbD 2 = s.flag ∧ v.extractLsb' 3 29 = 0) ∧
      (off = 0x008 → v.extractLsb' 0 4 = s.errCode ∧ v.extractLsb' 4 28 = 0) ∧
      (off = 0x00C → v = s.errCmd) ∧ (off = 0x010 → v = s.arg0) ∧ (off = 0x014 → v = s.arg1) ∧
      (off = 0x018 → v = s.arg2) ∧ (off = 0x01C → v = 0) ∧ (off = 0x020 → v = s.res0) ∧
      (off = 0x024 → v = s.res1) ∧ (0x030 ≤ off.toNat → v = 0)

/-- A 32-bit write below 0x800 to anything but CMD, STATUS and ARG0-ARG2 is ignored; a write of an argument register
stores the value and does nothing else. -/
def Obligations.RegisterWrites : Prop :=
  ∀ (s : State) (off : BitVec 12) (v : Word) (rest : List Access) (ts : List Turn),
    s.phase = .idle → off.toNat % 4 = 0 → off.toNat < 0x800 → s.hostIsNext (w32 off v) rest ts →
    (off = 0x010 → step s = .next { s.offBus rest ts .writeDone with arg0 := v }) ∧
    (off = 0x014 → step s = .next { s.offBus rest ts .writeDone with arg1 := v }) ∧
    (off = 0x018 → step s = .next { s.offBus rest ts .writeDone with arg2 := v }) ∧
    (off ≠ 0x000 → off ≠ 0x004 → off ≠ 0x010 → off ≠ 0x014 → off ≠ 0x018 →
      step s = .next (s.offBus rest ts .writeDone))

/-- R45. STAGE through the window by 16- and 32-bit accesses, little-endian: a write puts lane j at STAGE[k + j] and nowhere else, a read gathers
the bytes the same way, and a byte at or above CAPB reads 0 and is not written. -/
def Obligations.StageIsLittleEndian : Prop :=
  ∀ (s : State) (a : Access) (rest : List Access) (ts : List Turn) (n : Nat),
    s.phase = .idle → s.hostIsNext a rest ts → 0x800 ≤ a.off →
    ((a.size = .half ∧ n = 2 ∧ a.off % 2 = 0) ∨ (a.size = .word ∧ n = 4 ∧ a.off % 4 = 0)) →
    (a.we = true → ∃ t, step s = .next t ∧ t = { s.offBus rest ts .writeDone with stage := t.stage } ∧
      ∀ k, t.stage.read? k =
        if a.off - 0x800 ≤ k ∧ k < a.off - 0x800 + n ∧ k < s.cfg.capb
        then some (a.wdata.extractLsb' (8 * (k - (a.off - 0x800))) 8) else s.stage.read? k) ∧
    (a.we = false → ∃ t v, step s = .next t ∧ t = { s.offBus rest ts (.readDone v) with draws := t.draws } ∧
      (∀ j, j < n → s.cfg.capb ≤ a.off - 0x800 + j → v.extractLsb' (8 * j) 8 = 0) ∧
      (∀ j b, j < n → a.off - 0x800 + j < s.cfg.capb → s.stage.read? (a.off - 0x800 + j) = some b →
        v.extractLsb' (8 * j) 8 = b))

/-- The model's reading of a narrow access (log 10): an 8- or 16-bit read stands in the low bits, every higher bit 0, and
a narrow write takes the low bits only; an 8-bit access reads or writes the one byte of STAGE at its offset. -/
def Obligations.NarrowAccessesUseTheLowBits : Prop :=
  ∀ (s : State) (a : Access) (rest : List Access) (ts : List Turn) (n : Nat),
    s.phase = .idle → s.hostIsNext a rest ts → 0x800 ≤ a.off →
    ((a.size = .byte ∧ n = 1) ∨ (a.size = .half ∧ n = 2 ∧ a.off % 2 = 0)) →
    (a.we = false → ∃ t v, step s = .next t ∧ t.response = some (.readDone v) ∧
      ∀ i, 8 * n ≤ i → v.getLsbD i = false) ∧
    (a.we = true → ∀ v : Word, v.extractLsb' 0 (8 * n) = a.wdata.extractLsb' 0 (8 * n) →
      step { s with host := { a with wdata := v } :: rest } = step s) ∧
    (a.size = .byte → a.we = true → ∃ t, step s = .next t ∧
      t = { s.offBus rest ts .writeDone with stage := t.stage } ∧
      ∀ k, t.stage.read? k =
        if k = a.off - 0x800 ∧ k < s.cfg.capb then some (a.wdata.extractLsb' 0 8) else s.stage.read? k) ∧
    (a.size = .byte → a.we = false → ∃ t v, step s = .next t ∧
      t = { s.offBus rest ts (.readDone v) with draws := t.draws } ∧
      (s.cfg.capb ≤ a.off - 0x800 → v = 0) ∧
      (∀ b, a.off - 0x800 < s.cfg.capb → s.stage.read? (a.off - 0x800) = some b → v = b.setWidth 32))

/-- Reset gives every state element its reset value, from every state: a command in flight is abandoned and records no
error, and an access on the bus leaves it unfinished, with a free response (log 11, log 12). State.reset has the same
values. -/
def Obligations.ResetGivesTheResetValues : Prop :=
  State.reset.AtReset ∧
  (∀ (s : State) (presented : Bool) (ts : List Turn), s.turns = .reset presented :: ts →
    ∃ t, step s = .next t ∧ t.AtReset ∧ t.cfg = s.cfg ∧ t.held = false ∧ t.turns = ts ∧
      (∀ a rest, s.host = a :: rest → (s.held = true ∨ presented = true) →
        t.host = rest ∧ ∃ v, t.response = some (.abandoned v)) ∧
      (s.held = false → presented = false → t.host = s.host ∧ t.response = s.response))
end

