-- ==== Sys2Proof/Laws/Encoding.lean ====
section
/-! SUPPORT. The fields of a packed word, and a word packed from its own fields (30_encoding.md R57). -/

namespace Sys2Proof

theorem getLsbD_regWord (r : Reg) (n : Nat) : (regWord r).getLsbD n = r.val.testBit n := by
  have h : r.val < 16 := r.isLt
  simp only [regWord, BitVec.getLsbD_ofNat]
  by_cases hn : n < 32
  · simp [hn]
  · rw [Nat.testBit_lt_two_pow (lt_of_lt_of_le h (le_trans (by norm_num) (Nat.pow_le_pow_right (n := 2) (by norm_num) (show 4 ≤ n by omega))))]
    simp

theorem regWord_high (r : Reg) {n : Nat} (h : 4 ≤ n) : (regWord r).getLsbD n = false := by
  rw [getLsbD_regWord]
  exact Nat.testBit_lt_two_pow (lt_of_lt_of_le r.isLt (Nat.pow_le_pow_right (n := 2) (by norm_num) h))

theorem bitWord_bit (b : Bool) (n : Nat) : (bitWord b).getLsbD n = (decide (n = 0) && b) := by
  unfold bitWord
  rw [BitVec.getLsbD_setWidth, BitVec.getLsbD_ofBool]
  by_cases h : n = 0 <;> simp [h]

/-- Bit n of a packed word. -/
theorem getLsbD_pack (opc : Word) (rd ra rb : Reg) (d o : Bool) (n : Nat) (hn : n < 32) :
    (pack opc rd ra rb d o).getLsbD n =
      ((decide (24 ≤ n) && opc.getLsbD (n - 24)) ||
       (decide (20 ≤ n) && (regWord rd).getLsbD (n - 20)) ||
       (decide (16 ≤ n) && (regWord ra).getLsbD (n - 16)) ||
       (decide (12 ≤ n) && (regWord rb).getLsbD (n - 12)) ||
       (decide (n = 1) && d) || (decide (n = 0) && o)) := by
  simp only [pack, BitVec.getLsbD_or, BitVec.getLsbD_shiftLeft, bitWord_bit, hn, decide_true, Bool.true_and]
  have h : ∀ k, (!decide (n < k)) = decide (k ≤ n) := by
    intro k; by_cases hk : n < k <;> simp [hk] <;> omega
  simp only [h]
  congr 2
  rcases n with _ | _ | n
  · simp
  · simp
  · simp

theorem opcField_pack (opc : Word) (h : opc.toNat < 256) (rd ra rb : Reg) (d o : Bool) :
    opcField (pack opc rd ra rb d o) = opc.toNat := by
  have : (pack opc rd ra rb d o).extractLsb' 24 8 = opc.setWidth 8 := by
    apply BitVec.eq_of_getLsbD_eq
    intro n hn
    rw [BitVec.getLsbD_extractLsb', getLsbD_pack _ _ _ _ _ _ _ (by omega), BitVec.getLsbD_setWidth,
      regWord_high rd (by omega), regWord_high ra (by omega), regWord_high rb (by omega)]
    have h1 : 24 + n - 24 = n := by omega
    have h2 : ¬ 24 + n = 1 := by omega
    have h3 : ¬ 24 + n = 0 := by omega
    simp [hn, h1, h2]
  unfold opcField
  rw [this, BitVec.toNat_setWidth]
  exact Nat.mod_eq_of_lt h

theorem opc_high {opc : Word} (h : opc.toNat < 256) {n : Nat} (hn : 8 ≤ n) : opc.getLsbD n = false := by
  rw [BitVec.getLsbD]
  exact Nat.testBit_lt_two_pow (lt_of_lt_of_le h (Nat.pow_le_pow_right (n := 2) (by norm_num) hn))

theorem fin_eq_of_bits {a b : Reg} (h : ∀ n, n < 4 → a.val.testBit n = b.val.testBit n) : a = b := by
  apply Fin.ext
  apply Nat.eq_of_testBit_eq
  intro n
  by_cases hn : n < 4
  · exact h n hn
  · rw [Nat.testBit_lt_two_pow (lt_of_lt_of_le a.isLt (Nat.pow_le_pow_right (n := 2) (by norm_num) (show 4 ≤ n by omega))),
      Nat.testBit_lt_two_pow (lt_of_lt_of_le b.isLt (Nat.pow_le_pow_right (n := 2) (by norm_num) (show 4 ≤ n by omega)))]

theorem testBit_rdField (w : Word) (n : Nat) : (rdField w).val.testBit n = (decide (n < 4) && w.getLsbD (20 + n)) := by
  show ((w.extractLsb' 20 4).toNat).testBit n = _
  rw [BitVec.testBit_toNat, BitVec.getLsbD_extractLsb']

theorem testBit_raField (w : Word) (n : Nat) : (raField w).val.testBit n = (decide (n < 4) && w.getLsbD (16 + n)) := by
  show ((w.extractLsb' 16 4).toNat).testBit n = _
  rw [BitVec.testBit_toNat, BitVec.getLsbD_extractLsb']

theorem testBit_rbField (w : Word) (n : Nat) : (rbField w).val.testBit n = (decide (n < 4) && w.getLsbD (12 + n)) := by
  show ((w.extractLsb' 12 4).toNat).testBit n = _
  rw [BitVec.testBit_toNat, BitVec.getLsbD_extractLsb']

theorem rdField_pack (opc : Word) (rd ra rb : Reg) (d o : Bool) : rdField (pack opc rd ra rb d o) = rd := by
  apply fin_eq_of_bits
  intro n hn
  rw [testBit_rdField, getLsbD_pack _ _ _ _ _ _ _ (by omega), regWord_high ra (by omega), regWord_high rb (by omega),
    getLsbD_regWord]
  have h1 : 20 + n - 20 = n := by omega
  have h2 : ¬ 24 ≤ 20 + n := by omega
  have h3 : ¬ 20 + n = 1 := by omega
  simp [hn, h1, h2, h3]

theorem raField_pack (opc : Word) (rd ra rb : Reg) (d o : Bool) : raField (pack opc rd ra rb d o) = ra := by
  apply fin_eq_of_bits
  intro n hn
  rw [testBit_raField, getLsbD_pack _ _ _ _ _ _ _ (by omega), regWord_high rb (by omega), getLsbD_regWord ra]
  have h1 : 16 + n - 16 = n := by omega
  have h2 : ¬ 24 ≤ 16 + n := by omega
  have h3 : ¬ 16 + n = 1 := by omega
  have h4 : ¬ 20 ≤ 16 + n := by omega
  simp [hn, h1, h2, h3, h4]

theorem rbField_pack (opc : Word) (rd ra rb : Reg) (d o : Bool) : rbField (pack opc rd ra rb d o) = rb := by
  apply fin_eq_of_bits
  intro n hn
  rw [testBit_rbField, getLsbD_pack _ _ _ _ _ _ _ (by omega), getLsbD_regWord rb]
  have h1 : 12 + n - 12 = n := by omega
  have h2 : ¬ 24 ≤ 12 + n := by omega
  have h3 : ¬ 12 + n = 1 := by omega
  have h4 : ¬ 20 ≤ 12 + n := by omega
  have h5 : ¬ 16 ≤ 12 + n := by omega
  simp [hn, h1, h2, h3, h4, h5]

theorem reservedField_pack (opc : Word) (rd ra rb : Reg) (d o : Bool) : reservedField (pack opc rd ra rb d o) = 0 := by
  apply BitVec.eq_of_getLsbD_eq
  intro n hn
  unfold reservedField
  rw [BitVec.getLsbD_extractLsb', getLsbD_pack _ _ _ _ _ _ _ (by omega)]
  have h2 : ¬ 24 ≤ 2 + n := by omega
  have h3 : ¬ 2 + n = 1 := by omega
  have h4 : ¬ 20 ≤ 2 + n := by omega
  have h5 : ¬ 16 ≤ 2 + n := by omega
  have h6 : ¬ 12 ≤ 2 + n := by omega
  simp [h2, h3, h4, h5, h6]

theorem dField_pack (opc : Word) (rd ra rb : Reg) (d o : Bool) : dField (pack opc rd ra rb d o) = d := by
  unfold dField
  rw [getLsbD_pack _ _ _ _ _ _ _ (by omega)]
  simp

theorem oField_pack (opc : Word) (rd ra rb : Reg) (d o : Bool) :
    oField (pack opc rd ra rb d o) = if o then .little else .big := by
  unfold oField
  rw [getLsbD_pack _ _ _ _ _ _ _ (by omega)]
  simp

/-- A word whose reserved bits are 0 is packed from its own fields. -/
theorem pack_fields (w : Word) (h : reservedField w = 0) :
    pack (BitVec.ofNat 32 (opcField w)) (rdField w) (raField w) (rbField w) (dField w) (oField w).isLittle = w := by
  apply BitVec.eq_of_getLsbD_eq
  intro n hn
  have hr : ∀ k, k < 10 → w.getLsbD (2 + k) = false := by
    intro k hk
    have := congrArg (fun v => v.getLsbD k) h
    simpa [reservedField, BitVec.getLsbD_extractLsb', hk] using this
  have ho : (oField w).isLittle = w.getLsbD 0 := by
    unfold oField; cases w.getLsbD 0 <;> rfl
  have hopc : (BitVec.ofNat 32 (opcField w)).getLsbD (n - 24) = w.getLsbD (24 + (n - 24)) := by
    rw [BitVec.getLsbD_ofNat, opcField, BitVec.testBit_toNat, BitVec.getLsbD_extractLsb']
    have h1 : n - 24 < 32 := by omega
    have h2 : n - 24 < 8 := by omega
    simp [h1, h2]
  rw [getLsbD_pack _ _ _ _ _ _ _ hn, hopc, getLsbD_regWord, getLsbD_regWord, getLsbD_regWord, testBit_rdField,
    testBit_raField, testBit_rbField, ho, dField]
  by_cases h24 : 24 ≤ n
  · have e1 : 24 + (n - 24) = n := by omega
    have e2 : ¬ n - 20 < 4 := by omega
    have e3 : ¬ n - 16 < 4 := by omega
    have e4 : ¬ n - 12 < 4 := by omega
    have e5 : ¬ n = 1 := by omega
    have e6 : ¬ n = 0 := by omega
    simp [h24, e1, e2, e3, e4, e5, e6]
  · by_cases h20 : 20 ≤ n
    · have e1 : 20 + (n - 20) = n := by omega
      have e2 : n - 20 < 4 := by omega
      have e3 : ¬ n - 16 < 4 := by omega
      have e4 : ¬ n - 12 < 4 := by omega
      have e5 : ¬ n = 1 := by omega
      have e6 : ¬ n = 0 := by omega
      simp [h24, h20, e1, e2, e3, e4, e5, e6]
    · by_cases h16 : 16 ≤ n
      · have e1 : 16 + (n - 16) = n := by omega
        have e3 : n - 16 < 4 := by omega
        have e4 : ¬ n - 12 < 4 := by omega
        have e5 : ¬ n = 1 := by omega
        have e6 : ¬ n = 0 := by omega
        simp [h24, h20, h16, e1, e3, e4, e5, e6]
      · by_cases h12 : 12 ≤ n
        · have e1 : 12 + (n - 12) = n := by omega
          have e4 : n - 12 < 4 := by omega
          have e5 : ¬ n = 1 := by omega
          have e6 : ¬ n = 0 := by omega
          simp [h24, h20, h16, h12, e1, e4, e5, e6]
        · by_cases h2 : 2 ≤ n
          · have e := hr (n - 2) (by omega)
            rw [show 2 + (n - 2) = n by omega] at e
            have e5 : ¬ n = 1 := by omega
            have e6 : ¬ n = 0 := by omega
            simp [h24, h20, h16, h12, e5, e6, e]
          · have : n = 0 ∨ n = 1 := by omega
            rcases this with rfl | rfl <;> simp

end Sys2Proof
end

