-- ==== Sys2Proof/Laws/Memory.lean ====
section
/-! SUPPORT. The laws of bytes by index: read after write, the canonical form, extensionality. -/

namespace Sys2Proof.Machine.Memory

open Sys2Proof

@[simp] theorem read?_nil (a : Nat) : read? [] a = none := rfl

theorem read?_cons (c : Host.Cell) (m : Memory) (a : Nat) :
    read? (c :: m) a = if c.1 = a then some c.2 else read? m a := rfl

/-- Below the first index nothing is listed. -/
theorem read?_none_of_lt {m : Memory} {a : Nat} (h : ∀ c ∈ m, a < c.1) : read? m a = none := by
  induction m with
  | nil => rfl
  | cons c m ih =>
    have h1 := h c (by simp)
    rw [read?_cons, if_neg (by omega)]
    exact ih (fun d hd => h d (by simp [hd]))

/-- Reading after a write: the written byte at its index, the old contents elsewhere. -/
theorem read?_write (m : Memory) (a b : Nat) (v : Byte) :
    read? (write m a v) b = if a = b then some v else read? m b := by
  induction m with
  | nil => simp [write, read?_cons]
  | cons c m ih =>
    by_cases h1 : a < c.1
    · simp only [write, if_pos h1]
      rw [read?_cons]
    · by_cases h2 : a = c.1
      · simp only [write, if_neg h1, if_pos h2, read?_cons]
        by_cases h3 : a = b <;> simp [h3, ← h2]
      · simp only [write, if_neg h1, if_neg h2, read?_cons, ih]
        by_cases h3 : c.1 = b
        · have : a ≠ b := by omega
          simp [h3, this]
        · simp [h3]

theorem read?_write_same (m : Memory) (a : Nat) (v : Byte) : read? (write m a v) a = some v := by
  simp [read?_write]

theorem read?_write_other (m : Memory) {a b : Nat} (h : a ≠ b) (v : Byte) :
    read? (write m a v) b = read? m b := by
  simp [read?_write, h]

/-- A write lists no index but its own. -/
theorem mem_write {m : Memory} {a : Nat} {v : Byte} {c : Host.Cell} (h : c ∈ write m a v) :
    c.1 = a ∨ c ∈ m := by
  induction m with
  | nil => simp [write] at h; simp [h]
  | cons d m ih =>
    simp only [write] at h
    split_ifs at h with h1 h2
    · simp at h; rcases h with h | h | h <;> simp [h]
    · simp at h; rcases h with h | h <;> simp [h]
    · simp at h
      rcases h with h | h
      · simp [h]
      · rcases ih h with h | h <;> simp [h]

/-- A write keeps the canonical form. -/
theorem write_wf {m : Memory} (h : wf m) (a : Nat) (v : Byte) : wf (write m a v) := by
  induction m with
  | nil => simp [write, wf]
  | cons c m ih =>
    have hp := List.pairwise_cons.mp h
    simp only [write]
    split_ifs with h1 h2
    · refine List.pairwise_cons.mpr ⟨?_, h⟩
      intro d hd
      rcases List.mem_cons.mp hd with rfl | hd
      · exact h1
      · exact Nat.lt_trans h1 (hp.1 d hd)
    · refine List.pairwise_cons.mpr ⟨?_, hp.2⟩
      intro d hd
      have := hp.1 d hd
      simp only; omega
    · refine List.pairwise_cons.mpr ⟨?_, ih hp.2⟩
      intro d hd
      rcases mem_write hd with hd | hd
      · omega
      · exact hp.1 d hd

/-- Writing the byte a listed index already holds changes nothing. -/
theorem write_read? {m : Memory} (h : wf m) {a : Nat} {v : Byte} (hr : read? m a = some v) :
    write m a v = m := by
  induction m with
  | nil => simp at hr
  | cons c m ih =>
    have hp := List.pairwise_cons.mp h
    rw [read?_cons] at hr
    by_cases h1 : c.1 = a
    · rw [if_pos h1] at hr
      simp only [write, if_neg (show ¬ a < c.1 by omega), if_pos h1.symm]
      rw [← Option.some.inj hr, ← h1]
    · rw [if_neg h1] at hr
      have h2 : ¬ a < c.1 := by
        intro h2
        rw [read?_none_of_lt (fun d hd => Nat.lt_trans h2 (hp.1 d hd))] at hr
        cases hr
      simp only [write, if_neg h2, if_neg (show ¬ a = c.1 from fun e => h1 e.symm), ih hp.2 hr]

/-- Canonical contents that read alike are equal data. -/
theorem ext_read? {m n : Memory} (hm : wf m) (hn : wf n) (h : ∀ a, read? m a = read? n a) : m = n := by
  induction m generalizing n with
  | nil =>
    cases n with
    | nil => rfl
    | cons d n => have := h d.1; simp [read?_cons] at this
  | cons c m ih =>
    cases n with
    | nil => have := h c.1; simp [read?_cons] at this
    | cons d n =>
      have hp := List.pairwise_cons.mp hm
      have hq := List.pairwise_cons.mp hn
      have hc : c.1 = d.1 := by
        rcases Nat.lt_trichotomy c.1 d.1 with hl | he | hl
        · have h1 := h c.1
          rw [read?_cons, if_pos rfl, read?_cons, if_neg (by omega),
            read?_none_of_lt (fun e he => Nat.lt_trans hl (hq.1 e he))] at h1
          cases h1
        · exact he
        · have h1 := h d.1
          rw [read?_cons, if_neg (by omega), read?_cons, if_pos rfl,
            read?_none_of_lt (fun e he => Nat.lt_trans hl (hp.1 e he))] at h1
          cases h1
      have hv : c.2 = d.2 := by
        have h1 := h c.1
        rw [read?_cons, if_pos rfl, read?_cons, if_pos hc.symm] at h1
        exact Option.some.inj h1
      have : c = d := Prod.ext hc hv
      subst this
      congr 1
      refine ih hp.2 hq.2 fun a => ?_
      have h1 := h a
      rw [read?_cons, read?_cons] at h1
      by_cases ha : c.1 = a
      · rw [read?_none_of_lt (fun e he => ha ▸ hp.1 e he), read?_none_of_lt (fun e he => ha ▸ hq.1 e he)]
      · simpa [ha] using h1

@[simp] theorem writeBytes_nil (m : Memory) (a : Nat) : writeBytes m a [] = m := rfl

@[simp] theorem writeBytes_cons (m : Memory) (a : Nat) (v : Byte) (vs : List Byte) :
    writeBytes m a (v :: vs) = writeBytes (write m a v) (a + 1) vs := rfl

/-- Reading after a run of bytes was written: the run inside it, the old contents outside. -/
theorem read?_writeBytes (m : Memory) (a : Nat) (vs : List Byte) (b : Nat) :
    read? (writeBytes m a vs) b = if a ≤ b then (vs[b - a]?).or (read? m b) else read? m b := by
  induction vs generalizing m a with
  | nil => simp
  | cons v vs ih =>
    rw [writeBytes_cons, ih, read?_write]
    by_cases h1 : a + 1 ≤ b
    · have h2 : a ≤ b := by omega
      have h3 : b - a = (b - (a + 1)) + 1 := by omega
      have h4 : a ≠ b := by omega
      simp [h1, h2, h3, h4]
    · by_cases h2 : a = b
      · subst h2; simp
      · have h3 : ¬ a ≤ b := by omega
        simp [h1, h2, h3]

theorem writeBytes_wf {m : Memory} (h : wf m) (a : Nat) (vs : List Byte) : wf (writeBytes m a vs) := by
  induction vs generalizing m a with
  | nil => exact h
  | cons v vs ih => exact ih (write_wf h a v) (a + 1)

theorem mem_writeBytes {m : Memory} {a : Nat} {vs : List Byte} {c : Host.Cell}
    (h : c ∈ writeBytes m a vs) : c.1 < a + vs.length ∨ c ∈ m := by
  induction vs generalizing m a with
  | nil => exact Or.inr h
  | cons v vs ih =>
    rcases ih h with h | h
    · left; simp only [List.length_cons]; omega
    · rcases mem_write h with h | h
      · left; simp only [List.length_cons]; omega
      · exact Or.inr h

theorem read?_zeros (n b : Nat) : read? (zeros n) b = if b < n then some 0 else none := by
  have key : ∀ l : List Nat, read? (l.map (fun k => (k, (0 : Byte)))) b = if b ∈ l then some 0 else none := by
    intro l
    induction l with
    | nil => simp
    | cons x l ih =>
      rw [List.map_cons, read?_cons, ih]
      by_cases h : x = b
      · simp [h]
      · have : b ≠ x := fun e => h e.symm
        simp [h, this]
  simpa [zeros] using key (List.range n)

theorem zeros_wf (n : Nat) : wf (zeros n) := by
  unfold wf zeros
  rw [List.pairwise_map]
  exact List.pairwise_lt_range

theorem mem_zeros {n : Nat} {c : Host.Cell} (h : c ∈ zeros n) : c.1 < n := by
  simp [zeros] at h
  obtain ⟨k, hk, rfl⟩ := h
  exact hk

end Sys2Proof.Machine.Memory
end

