-- ==== Sys2Proof/Laws/Polynomial.lean ====
section
/-! SUPPORT. The laws of the layout mapping, of fresh values, of coefficient writes and of index sequences. -/

namespace Sys2Proof.Machine

open Sys2Proof

theorem ceil8_mul_le (w : Nat) : w ≤ 8 * ceil8 w := by unfold ceil8; omega

theorem ceil8_le {w n : Nat} (h : w ≤ 8 * n) : ceil8 w ≤ n := by unfold ceil8; omega

theorem ceil8_mul (n : Nat) : ceil8 (8 * n) = n := by unfold ceil8; omega

/-- Every coefficient lies in the first ceil(bits/8) bytes (R23). -/
theorem loc_fst_lt {i w : Nat} (h : i < w) (ord : LayoutOrder) : (loc i w ord).1 < ceil8 w := by
  cases ord <;> simp only [loc, ceil8] <;> omega

theorem loc_snd_lt (i w : Nat) (ord : LayoutOrder) : (loc i w ord).2 < 8 := by
  cases ord <;> simp only [loc] <;> omega

/-- Two coefficients never share a place (R23). -/
theorem loc_inj {i j w : Nat} (hi : i < w) (hj : j < w) {ord : LayoutOrder} (h : loc i w ord = loc j w ord) :
    i = j := by
  cases ord <;> simp only [loc, Prod.mk.injEq, ceil8] at h <;> omega

theorem getLsbD_bitByte (v : Bool) {k n : Nat} (hk : k < 8) : (bitByte v k).getLsbD n = (decide (n = k) && v) := by
  unfold bitByte
  by_cases hn : n < 8
  · rw [BitVec.getLsbD_shiftLeft, BitVec.getLsbD_setWidth]
    by_cases h1 : n < k
    · have : n ≠ k := by omega
      simp [h1, this]
    · by_cases h2 : n = k
      · subst h2; simp [hn]
      · have h3 : n - k ≠ 0 := by omega
        simp [hn, h1, h2, BitVec.getLsbD_ofBool, h3]
  · rw [BitVec.getLsbD_of_ge _ _ (by omega)]
    have : n ≠ k := by omega
    simp [this]

/-! ### Fresh values -/

/-- The bytes Make builds, after the coefficients below m. -/
def makeBytes (w : Nat) (ord : LayoutOrder) (f : Nat → Bool) (m : Nat) : Memory :=
  (List.range m).foldl (fun d i => orBit d (loc i w ord) (f i)) (Memory.zeros (ceil8 w))

theorem makeBytes_succ (w : Nat) (ord : LayoutOrder) (f : Nat → Bool) (m : Nat) :
    makeBytes w ord f (m + 1) = orBit (makeBytes w ord f m) (loc m w ord) (f m) := by
  simp [makeBytes, List.range_succ]

theorem makeBytes_wf (w : Nat) (ord : LayoutOrder) (f : Nat → Bool) (m : Nat) : (makeBytes w ord f m).wf := by
  induction m with
  | zero => exact Memory.zeros_wf _
  | succ m ih => rw [makeBytes_succ]; exact Memory.write_wf ih _ _

theorem mem_makeBytes {w : Nat} {ord : LayoutOrder} {f : Nat → Bool} {m : Nat} (hm : m ≤ w) {c : Host.Cell}
    (h : c ∈ makeBytes w ord f m) : c.1 < ceil8 w := by
  induction m with
  | zero => exact Memory.mem_zeros h
  | succ m ih =>
    rw [makeBytes_succ] at h
    rcases Memory.mem_write h with h | h
    · rw [h]; exact loc_fst_lt hm ord
    · exact ih (by omega) h

/-- Bit k of byte b after the coefficients below m: set exactly by a coefficient placed there. -/
theorem read?_makeBytes {w : Nat} (ord : LayoutOrder) (f : Nat → Bool) {m : Nat} (hm : m ≤ w) (b : Nat) :
    if b < ceil8 w then
      ∃ v, (makeBytes w ord f m).read? b = some v ∧
        ∀ k, v.getLsbD k = true ↔ ∃ i, i < m ∧ loc i w ord = (b, k) ∧ f i = true
    else (makeBytes w ord f m).read? b = none := by
  induction m with
  | zero =>
    split_ifs with h
    · exact ⟨0, by simp [makeBytes, Memory.read?_zeros, h], by simp⟩
    · simp [makeBytes, Memory.read?_zeros, h]
  | succ m ih =>
    have ih := ih (by omega)
    have hlt := loc_fst_lt (show m < w by omega) ord
    rw [makeBytes_succ, orBit, Memory.read?_write]
    by_cases hb : (loc m w ord).1 = b
    · rw [if_pos hb]
      rw [hb] at hlt ⊢
      rw [if_pos hlt] at ih ⊢
      obtain ⟨v, hv, hbits⟩ := ih
      refine ⟨_, rfl, fun k => ?_⟩
      rw [hv, Option.getD_some, BitVec.getLsbD_or, getLsbD_bitByte _ (loc_snd_lt _ _ _), Bool.or_eq_true, hbits]
      constructor
      · rintro (⟨i, hi, hl, hf⟩ | hk)
        · exact ⟨i, by omega, hl, hf⟩
        · simp at hk
          exact ⟨m, by omega, by rw [hk.1, ← hb], hk.2⟩
      · rintro ⟨i, hi, hl, hf⟩
        by_cases him : i = m
        · subst him; right; simp [hl, hf]
        · left; exact ⟨i, by omega, hl, hf⟩
    · rw [if_neg hb]
      split_ifs with h
      · rw [if_pos h] at ih
        obtain ⟨v, hv, hbits⟩ := ih
        refine ⟨v, hv, fun k => ?_⟩
        rw [hbits]
        constructor
        · rintro ⟨i, hi, hl, hf⟩; exact ⟨i, by omega, hl, hf⟩
        · rintro ⟨i, hi, hl, hf⟩
          by_cases him : i = m
          · subst him; exact absurd (by rw [hl]) hb
          · exact ⟨i, by omega, hl, hf⟩
      · rw [if_neg h] at ih; exact ih

@[simp] theorem make_valid (w ord f) : (make w ord f).valid = true := rfl
@[simp] theorem make_order (w ord f) : (make w ord f).order = ord := rfl
@[simp] theorem make_len (w ord f) : (make w ord f).len = ceil8 w := rfl
theorem make_data (w ord f) : (make w ord f).data = makeBytes w ord f w := rfl

theorem make_width {w : Nat} (hw : w < 2 ^ 32) (ord f) : (make w ord f).width = w := by
  simpa [make, PolyReg.width] using hw

theorem make_byte {w : Nat} (ord : LayoutOrder) (f : Nat → Bool) {b : Nat} (hb : b < ceil8 w) (k : Nat) :
    ((make w ord f).byte b).getLsbD k = true ↔ ∃ i, i < w ∧ loc i w ord = (b, k) ∧ f i = true := by
  have h := read?_makeBytes ord f (le_refl w) b
  rw [if_pos hb] at h
  obtain ⟨v, hv, hbits⟩ := h
  rw [PolyReg.byte, make_data, hv, Option.getD_some, hbits]

theorem make_coef {w : Nat} (hw : w < 2 ^ 32) (ord : LayoutOrder) (f : Nat → Bool) {i : Nat} (hi : i < w) :
    (make w ord f).coef i = f i := by
  rw [Bool.eq_iff_iff, PolyReg.coef, make_width hw, make_order, make_byte ord f (loc_fst_lt hi ord)]
  constructor
  · rintro ⟨j, hj, hl, hf⟩
    rw [← loc_inj hj hi hl]; exact hf
  · intro hf; exact ⟨i, hi, rfl, hf⟩

/-- Make builds the fresh value it names (R26). -/
theorem make_fresh {w : Nat} (hw : w < 2 ^ 32) (ord : LayoutOrder) (f : Nat → Bool) :
    (make w ord f).Fresh w ord f where
  valid := rfl
  order := rfl
  width := make_width hw ord f
  len := rfl
  coef := fun _ hi => make_coef hw ord f hi
  known := by
    intro b hb
    have h := read?_makeBytes ord f (le_refl w) b
    rw [if_pos (by simpa using hb)] at h
    obtain ⟨v, hv, _⟩ := h
    rw [make_data, hv]; rfl
  padding := by
    intro b k hb _ hno
    rw [Bool.eq_false_iff]
    intro h
    obtain ⟨i, hi, hl, _⟩ := (make_byte ord f (by simpa using hb) k).mp h
    exact hno i hi hl

/-- A fresh value that fits keeps the register invariant. -/
theorem make_inv {w capb : Nat} (h : w ≤ 8 * capb) (ord : LayoutOrder) (f : Nat → Bool) :
    (make w ord f).Inv capb where
  len := ceil8_le h
  data := ⟨makeBytes_wf w ord f w, fun _ hc => lt_of_lt_of_le (mem_makeBytes (le_refl w) hc) (ceil8_le h)⟩
  known := by
    intro b hb
    have h := read?_makeBytes ord f (le_refl w) b
    rw [if_pos (by simpa using hb)] at h
    obtain ⟨v, hv, _⟩ := h
    rw [make_data, hv]; rfl
  invalid := by simp

/-! ### Coefficient writes -/

@[simp] theorem setCoef_valid (p : PolyReg) (i v) : (p.setCoef i v).valid = p.valid := rfl
@[simp] theorem setCoef_order (p : PolyReg) (i v) : (p.setCoef i v).order = p.order := rfl
@[simp] theorem setCoef_bits (p : PolyReg) (i v) : (p.setCoef i v).bits = p.bits := rfl
@[simp] theorem setCoef_len (p : PolyReg) (i v) : (p.setCoef i v).len = p.len := rfl
@[simp] theorem setCoef_width (p : PolyReg) (i v) : (p.setCoef i v).width = p.width := rfl

/-- Bit k of byte b after one coefficient was written: v at its place, the old bit elsewhere. -/
theorem setCoef_bit (p : PolyReg) (i : Nat) (v : Bool) (b k : Nat) (hk : k < 8) :
    ((p.setCoef i v).byte b).getLsbD k =
      if loc i p.width p.order = (b, k) then v else (p.byte b).getLsbD k := by
  have hs := loc_snd_lt i p.width p.order
  unfold PolyReg.setCoef
  by_cases hb : (loc i p.width p.order).1 = b
  · subst hb
    rw [PolyReg.byte]
    simp only [Memory.read?_write_same, Option.getD_some, BitVec.getLsbD_or, BitVec.getLsbD_and,
      BitVec.getLsbD_not, getLsbD_bitByte _ hs]
    by_cases h : (loc i p.width p.order).2 = k
    · have e : loc i p.width p.order = ((loc i p.width p.order).1, k) := Prod.ext rfl h
      rw [if_pos e]; simp [h, hk]
    · have e : loc i p.width p.order ≠ ((loc i p.width p.order).1, k) := fun e => h (congrArg Prod.snd e)
      rw [if_neg e]
      have : ¬ k = (loc i p.width p.order).2 := fun e => h e.symm
      simp [this, hk]
  · rw [if_neg (fun e => hb (congrArg Prod.fst e)), PolyReg.byte, PolyReg.byte]
    simp only [Memory.read?_write_other _ hb]

/-- A coefficient write changes that coefficient and no other (R82). -/
theorem setCoef_coef (p : PolyReg) {i j : Nat} (hi : i < p.width) (hj : j < p.width) (v : Bool) :
    (p.setCoef i v).coef j = if i = j then v else p.coef j := by
  rw [PolyReg.coef, setCoef_width, setCoef_order, setCoef_bit _ _ _ _ _ (loc_snd_lt _ _ _), PolyReg.coef]
  by_cases h : i = j
  · simp [h]
  · rw [if_neg h, if_neg]
    intro e
    exact h (loc_inj hi hj e)

/-- A coefficient write lists the byte it lies in and leaves every other byte as it was. -/
theorem setCoef_read?_other (p : PolyReg) (i : Nat) (v : Bool) {b : Nat} (h : (loc i p.width p.order).1 ≠ b) :
    (p.setCoef i v).data.read? b = p.data.read? b :=
  Memory.read?_write_other _ h _

theorem setCoef_known (p : PolyReg) (i : Nat) (v : Bool) {b : Nat} (h : (p.data.read? b).isSome = true) :
    ((p.setCoef i v).data.read? b).isSome = true := by
  unfold PolyReg.setCoef
  simp only [Memory.read?_write]
  split_ifs <;> simp [h]

theorem setCoef_within {p : PolyReg} {capb i : Nat} (h : p.data.Within capb)
    (hi : (loc i p.width p.order).1 < capb) (v : Bool) : (p.setCoef i v).data.Within capb := by
  refine ⟨Memory.write_wf h.1 _ _, fun c hc => ?_⟩
  rcases Memory.mem_write hc with hc | hc
  · rw [hc]; exact hi
  · exact h.2 c hc

/-- A coefficient write inside the width keeps the register invariant. -/
theorem setCoef_inv {p : PolyReg} {capb i : Nat} (h : p.Inv capb) (hv : p.valid = true)
    (hw : p.width ≤ 8 * p.len) (hi : i < p.width) (v : Bool) : (p.setCoef i v).Inv capb where
  len := h.len
  data := setCoef_within h.data
    (lt_of_lt_of_le (loc_fst_lt hi p.order) (le_trans (ceil8_le hw) h.len)) v
  known := fun b hb => setCoef_known p i v (h.known b hb)
  invalid := by simp [hv]

/-- Writing the value a coefficient already has changes nothing (R82), data included. -/
theorem setCoef_self {p : PolyReg} {capb i : Nat} (h : p.Inv capb) (hw : p.width ≤ 8 * p.len) (hi : i < p.width) :
    p.setCoef i (p.coef i) = p := by
  have hb := h.known _ (lt_of_lt_of_le (loc_fst_lt hi p.order) (ceil8_le hw))
  obtain ⟨x, hx⟩ := Option.isSome_iff_exists.mp hb
  have hs := loc_snd_lt i p.width p.order
  have hbyte : p.byte (loc i p.width p.order).1 = x := by simp [PolyReg.byte, hx]
  have hnew : (x &&& ~~~(bitByte true (loc i p.width p.order).2)) |||
      bitByte (p.coef i) (loc i p.width p.order).2 = x := by
    apply BitVec.eq_of_getLsbD_eq
    intro k hk
    rw [BitVec.getLsbD_or, BitVec.getLsbD_and, BitVec.getLsbD_not, getLsbD_bitByte _ hs, getLsbD_bitByte _ hs,
      PolyReg.coef, hbyte]
    by_cases e : k = (loc i p.width p.order).2 <;> simp [e, hk, hs]
  unfold PolyReg.setCoef
  simp only [hbyte, hnew, Memory.write_read? h.data.1 hx]

@[simp] theorem scatter_nil_left (p : PolyReg) (vs) : p.scatter [] vs = p := by
  unfold PolyReg.scatter; rfl
@[simp] theorem scatter_nil_right (p : PolyReg) (is) : p.scatter is [] = p := by
  unfold PolyReg.scatter; cases is <;> rfl
@[simp] theorem scatter_cons (p : PolyReg) (i is v vs) :
    p.scatter (i :: is) (v :: vs) = (p.setCoef i v).scatter is vs := by
  rw [PolyReg.scatter]

/-- What a scatter never changes (R84). -/
theorem scatter_keeps (p : PolyReg) (is : List Nat) (vs : List Bool) :
    (p.scatter is vs).valid = p.valid ∧ (p.scatter is vs).order = p.order ∧
      (p.scatter is vs).bits = p.bits ∧ (p.scatter is vs).len = p.len := by
  induction is generalizing p vs with
  | nil => simp
  | cons i is ih =>
    cases vs with
    | nil => simp
    | cons v vs => rw [scatter_cons]; exact ih (p.setCoef i v) vs

theorem scatter_inv {p : PolyReg} {capb : Nat} {is : List Nat} (h : p.Inv capb) (hv : p.valid = true)
    (hw : p.width ≤ 8 * p.len) (his : ∀ i ∈ is, i < p.width) (vs : List Bool) :
    (p.scatter is vs).Inv capb := by
  induction is generalizing p vs with
  | nil => simpa using h
  | cons i is ih =>
    cases vs with
    | nil => simpa using h
    | cons v vs =>
      rw [scatter_cons]
      exact ih (setCoef_inv h hv hw (his i (by simp)) v) hv hw
        (fun j hj => his j (by simp [hj])) vs

/-- A bit no position of the scatter lies at keeps its value. -/
theorem scatter_bit_other (p : PolyReg) (is : List Nat) (vs : List Bool) {b k : Nat} (hk : k < 8)
    (h : ∀ i ∈ is, loc i p.width p.order ≠ (b, k)) :
    ((p.scatter is vs).byte b).getLsbD k = (p.byte b).getLsbD k := by
  induction is generalizing p vs with
  | nil => simp
  | cons i is ih =>
    cases vs with
    | nil => simp
    | cons v vs =>
      rw [scatter_cons, ih (p.setCoef i v) vs (fun j hj => h j (by simp [hj])),
        setCoef_bit _ _ _ _ _ hk, if_neg (h i (by simp))]

/-- The coefficients after a scatter to distinct positions inside the width (R84). -/
theorem scatter_coef (p : PolyReg) (is : List Nat) (vs : List Bool) (hlen : is.length = vs.length)
    (hnd : is.Nodup) (his : ∀ i ∈ is, i < p.width) :
    (∀ j, j < p.width → j ∉ is → (p.scatter is vs).coef j = p.coef j) ∧
    (∀ n (hn : n < is.length), (p.scatter is vs).coef is[n] = vs[n]'(hlen ▸ hn)) := by
  induction is generalizing p vs with
  | nil => simp
  | cons i is ih =>
    cases vs with
    | nil => simp at hlen
    | cons v vs =>
      have hi := his i (by simp)
      have hnd' := List.nodup_cons.mp hnd
      obtain ⟨h1, h2⟩ := ih (p.setCoef i v) vs (by simpa using hlen) hnd'.2
        (fun j hj => his j (by simp [hj]))
      rw [scatter_cons]
      constructor
      · intro j hj hji
        simp only [List.mem_cons, not_or] at hji
        rw [h1 j hj hji.2, setCoef_coef p hi hj, if_neg (fun e => hji.1 e.symm)]
      · intro n hn
        cases n with
        | zero =>
          simp only [List.getElem_cons_zero]
          rw [h1 i hi hnd'.1, setCoef_coef p hi hi, if_pos rfl]
        | succ n => simpa using h2 n (by simpa using hn)

/-- Scattering the coefficients the positions already hold changes nothing, data included (R84, R85). -/
theorem scatter_self {p : PolyReg} {capb : Nat} (h : p.Inv capb) (hw : p.width ≤ 8 * p.len) (is : List Nat)
    (his : ∀ i ∈ is, i < p.width) : p.scatter is (is.map p.coef) = p := by
  induction is with
  | nil => simp
  | cons i is ih =>
    rw [List.map_cons, scatter_cons, setCoef_self h hw (his i (by simp))]
    exact ih (fun j hj => his j (by simp [hj]))

/-! ### Index sequences -/

/-- What is in Seq(start, stop, step) (R81): start + k*step while that is below stop. -/
theorem mem_seq {start stop step : Nat} (hs : 1 ≤ step) (i : Nat) :
    i ∈ seq start stop step ↔ ∃ k, i = start + k * step ∧ i < stop := by
  simp only [seq, List.mem_map, List.mem_range, seqLen]
  have key : ∀ k, start < stop → (k < (stop - start + step - 1) / step ↔ start + k * step < stop) := by
    intro k hlt
    rw [Nat.lt_div_iff_mul_lt (by omega)]
    constructor <;> intro h <;> omega
  constructor
  · rintro ⟨k, hk, rfl⟩
    split_ifs at hk with h
    · exact ⟨k, rfl, (key k h).mp hk⟩
    · omega
  · rintro ⟨k, rfl, hk⟩
    have hlt : start < stop := by
      have := Nat.zero_le (k * step); omega
    exact ⟨k, by rw [if_pos hlt]; exact (key k hlt).mpr hk, rfl⟩

@[simp] theorem length_seq (start stop step : Nat) : (seq start stop step).length = seqLen start stop step := by
  simp [seq]

theorem getElem_seq {start stop step n : Nat} (h : n < (seq start stop step).length) :
    (seq start stop step)[n] = start + n * step := by
  simp [seq]

theorem seq_nodup {start stop step : Nat} (hs : 1 ≤ step) : (seq start stop step).Nodup := by
  unfold seq
  refine (List.nodup_range).map ?_
  intro a b h
  exact Nat.eq_of_mul_eq_mul_right (by omega) (show a * step = b * step by simpa using h)

end Sys2Proof.Machine
end

