-- ==== Sys2Proof/Laws/State.lean ====
section
/-! SUPPORT. One lemma per field per update of State, each true by rfl, so that no proof unfolds a record update. -/

namespace Sys2Proof.Machine.State

open Sys2Proof

/-! ### setPoly -/

@[simp] theorem setPoly_cfg (s : State) (r : Reg) (p : PolyReg) : (s.setPoly r p).cfg = s.cfg := rfl
@[simp] theorem setPoly_polys (s : State) (r : Reg) (p : PolyReg) : (s.setPoly r p).polys = s.polys.set r p := rfl
@[simp] theorem setPoly_arg0 (s : State) (r : Reg) (p : PolyReg) : (s.setPoly r p).arg0 = s.arg0 := rfl
@[simp] theorem setPoly_arg1 (s : State) (r : Reg) (p : PolyReg) : (s.setPoly r p).arg1 = s.arg1 := rfl
@[simp] theorem setPoly_arg2 (s : State) (r : Reg) (p : PolyReg) : (s.setPoly r p).arg2 = s.arg2 := rfl
@[simp] theorem setPoly_res0 (s : State) (r : Reg) (p : PolyReg) : (s.setPoly r p).res0 = s.res0 := rfl
@[simp] theorem setPoly_res1 (s : State) (r : Reg) (p : PolyReg) : (s.setPoly r p).res1 = s.res1 := rfl
@[simp] theorem setPoly_flag (s : State) (r : Reg) (p : PolyReg) : (s.setPoly r p).flag = s.flag := rfl
@[simp] theorem setPoly_err (s : State) (r : Reg) (p : PolyReg) : (s.setPoly r p).err = s.err := rfl
@[simp] theorem setPoly_errCode (s : State) (r : Reg) (p : PolyReg) : (s.setPoly r p).errCode = s.errCode := rfl
@[simp] theorem setPoly_errCmd (s : State) (r : Reg) (p : PolyReg) : (s.setPoly r p).errCmd = s.errCmd := rfl
@[simp] theorem setPoly_stage (s : State) (r : Reg) (p : PolyReg) : (s.setPoly r p).stage = s.stage := rfl
@[simp] theorem setPoly_phase (s : State) (r : Reg) (p : PolyReg) : (s.setPoly r p).phase = s.phase := rfl
@[simp] theorem setPoly_received (s : State) (r : Reg) (p : PolyReg) : (s.setPoly r p).received = s.received := rfl
@[simp] theorem setPoly_host (s : State) (r : Reg) (p : PolyReg) : (s.setPoly r p).host = s.host := rfl
@[simp] theorem setPoly_held (s : State) (r : Reg) (p : PolyReg) : (s.setPoly r p).held = s.held := rfl
@[simp] theorem setPoly_response (s : State) (r : Reg) (p : PolyReg) : (s.setPoly r p).response = s.response := rfl
@[simp] theorem setPoly_turns (s : State) (r : Reg) (p : PolyReg) : (s.setPoly r p).turns = s.turns := rfl
@[simp] theorem setPoly_draws (s : State) (r : Reg) (p : PolyReg) : (s.setPoly r p).draws = s.draws := rfl

/-! ### setRes0 -/

@[simp] theorem setRes0_cfg (s : State) (v : Word) : (s.setRes0 v).cfg = s.cfg := rfl
@[simp] theorem setRes0_polys (s : State) (v : Word) : (s.setRes0 v).polys = s.polys := rfl
@[simp] theorem setRes0_arg0 (s : State) (v : Word) : (s.setRes0 v).arg0 = s.arg0 := rfl
@[simp] theorem setRes0_arg1 (s : State) (v : Word) : (s.setRes0 v).arg1 = s.arg1 := rfl
@[simp] theorem setRes0_arg2 (s : State) (v : Word) : (s.setRes0 v).arg2 = s.arg2 := rfl
@[simp] theorem setRes0_res0 (s : State) (v : Word) : (s.setRes0 v).res0 = v := rfl
@[simp] theorem setRes0_res1 (s : State) (v : Word) : (s.setRes0 v).res1 = s.res1 := rfl
@[simp] theorem setRes0_flag (s : State) (v : Word) : (s.setRes0 v).flag = s.flag := rfl
@[simp] theorem setRes0_err (s : State) (v : Word) : (s.setRes0 v).err = s.err := rfl
@[simp] theorem setRes0_errCode (s : State) (v : Word) : (s.setRes0 v).errCode = s.errCode := rfl
@[simp] theorem setRes0_errCmd (s : State) (v : Word) : (s.setRes0 v).errCmd = s.errCmd := rfl
@[simp] theorem setRes0_stage (s : State) (v : Word) : (s.setRes0 v).stage = s.stage := rfl
@[simp] theorem setRes0_phase (s : State) (v : Word) : (s.setRes0 v).phase = s.phase := rfl
@[simp] theorem setRes0_received (s : State) (v : Word) : (s.setRes0 v).received = s.received := rfl
@[simp] theorem setRes0_host (s : State) (v : Word) : (s.setRes0 v).host = s.host := rfl
@[simp] theorem setRes0_held (s : State) (v : Word) : (s.setRes0 v).held = s.held := rfl
@[simp] theorem setRes0_response (s : State) (v : Word) : (s.setRes0 v).response = s.response := rfl
@[simp] theorem setRes0_turns (s : State) (v : Word) : (s.setRes0 v).turns = s.turns := rfl
@[simp] theorem setRes0_draws (s : State) (v : Word) : (s.setRes0 v).draws = s.draws := rfl
@[simp] theorem setRes0_poly (s : State) (v : Word) (q : Reg) : (s.setRes0 v).poly q = s.poly q := rfl

/-! ### setRes1 -/

@[simp] theorem setRes1_cfg (s : State) (v : Word) : (s.setRes1 v).cfg = s.cfg := rfl
@[simp] theorem setRes1_polys (s : State) (v : Word) : (s.setRes1 v).polys = s.polys := rfl
@[simp] theorem setRes1_arg0 (s : State) (v : Word) : (s.setRes1 v).arg0 = s.arg0 := rfl
@[simp] theorem setRes1_arg1 (s : State) (v : Word) : (s.setRes1 v).arg1 = s.arg1 := rfl
@[simp] theorem setRes1_arg2 (s : State) (v : Word) : (s.setRes1 v).arg2 = s.arg2 := rfl
@[simp] theorem setRes1_res0 (s : State) (v : Word) : (s.setRes1 v).res0 = s.res0 := rfl
@[simp] theorem setRes1_res1 (s : State) (v : Word) : (s.setRes1 v).res1 = v := rfl
@[simp] theorem setRes1_flag (s : State) (v : Word) : (s.setRes1 v).flag = s.flag := rfl
@[simp] theorem setRes1_err (s : State) (v : Word) : (s.setRes1 v).err = s.err := rfl
@[simp] theorem setRes1_errCode (s : State) (v : Word) : (s.setRes1 v).errCode = s.errCode := rfl
@[simp] theorem setRes1_errCmd (s : State) (v : Word) : (s.setRes1 v).errCmd = s.errCmd := rfl
@[simp] theorem setRes1_stage (s : State) (v : Word) : (s.setRes1 v).stage = s.stage := rfl
@[simp] theorem setRes1_phase (s : State) (v : Word) : (s.setRes1 v).phase = s.phase := rfl
@[simp] theorem setRes1_received (s : State) (v : Word) : (s.setRes1 v).received = s.received := rfl
@[simp] theorem setRes1_host (s : State) (v : Word) : (s.setRes1 v).host = s.host := rfl
@[simp] theorem setRes1_held (s : State) (v : Word) : (s.setRes1 v).held = s.held := rfl
@[simp] theorem setRes1_response (s : State) (v : Word) : (s.setRes1 v).response = s.response := rfl
@[simp] theorem setRes1_turns (s : State) (v : Word) : (s.setRes1 v).turns = s.turns := rfl
@[simp] theorem setRes1_draws (s : State) (v : Word) : (s.setRes1 v).draws = s.draws := rfl
@[simp] theorem setRes1_poly (s : State) (v : Word) (q : Reg) : (s.setRes1 v).poly q = s.poly q := rfl

/-! ### setFlag -/

@[simp] theorem setFlag_cfg (s : State) (v : Bool) : (s.setFlag v).cfg = s.cfg := rfl
@[simp] theorem setFlag_polys (s : State) (v : Bool) : (s.setFlag v).polys = s.polys := rfl
@[simp] theorem setFlag_arg0 (s : State) (v : Bool) : (s.setFlag v).arg0 = s.arg0 := rfl
@[simp] theorem setFlag_arg1 (s : State) (v : Bool) : (s.setFlag v).arg1 = s.arg1 := rfl
@[simp] theorem setFlag_arg2 (s : State) (v : Bool) : (s.setFlag v).arg2 = s.arg2 := rfl
@[simp] theorem setFlag_res0 (s : State) (v : Bool) : (s.setFlag v).res0 = s.res0 := rfl
@[simp] theorem setFlag_res1 (s : State) (v : Bool) : (s.setFlag v).res1 = s.res1 := rfl
@[simp] theorem setFlag_flag (s : State) (v : Bool) : (s.setFlag v).flag = v := rfl
@[simp] theorem setFlag_err (s : State) (v : Bool) : (s.setFlag v).err = s.err := rfl
@[simp] theorem setFlag_errCode (s : State) (v : Bool) : (s.setFlag v).errCode = s.errCode := rfl
@[simp] theorem setFlag_errCmd (s : State) (v : Bool) : (s.setFlag v).errCmd = s.errCmd := rfl
@[simp] theorem setFlag_stage (s : State) (v : Bool) : (s.setFlag v).stage = s.stage := rfl
@[simp] theorem setFlag_phase (s : State) (v : Bool) : (s.setFlag v).phase = s.phase := rfl
@[simp] theorem setFlag_received (s : State) (v : Bool) : (s.setFlag v).received = s.received := rfl
@[simp] theorem setFlag_host (s : State) (v : Bool) : (s.setFlag v).host = s.host := rfl
@[simp] theorem setFlag_held (s : State) (v : Bool) : (s.setFlag v).held = s.held := rfl
@[simp] theorem setFlag_response (s : State) (v : Bool) : (s.setFlag v).response = s.response := rfl
@[simp] theorem setFlag_turns (s : State) (v : Bool) : (s.setFlag v).turns = s.turns := rfl
@[simp] theorem setFlag_draws (s : State) (v : Bool) : (s.setFlag v).draws = s.draws := rfl
@[simp] theorem setFlag_poly (s : State) (v : Bool) (q : Reg) : (s.setFlag v).poly q = s.poly q := rfl

/-! ### setStage -/

@[simp] theorem setStage_cfg (s : State) (m : Memory) : (s.setStage m).cfg = s.cfg := rfl
@[simp] theorem setStage_polys (s : State) (m : Memory) : (s.setStage m).polys = s.polys := rfl
@[simp] theorem setStage_arg0 (s : State) (m : Memory) : (s.setStage m).arg0 = s.arg0 := rfl
@[simp] theorem setStage_arg1 (s : State) (m : Memory) : (s.setStage m).arg1 = s.arg1 := rfl
@[simp] theorem setStage_arg2 (s : State) (m : Memory) : (s.setStage m).arg2 = s.arg2 := rfl
@[simp] theorem setStage_res0 (s : State) (m : Memory) : (s.setStage m).res0 = s.res0 := rfl
@[simp] theorem setStage_res1 (s : State) (m : Memory) : (s.setStage m).res1 = s.res1 := rfl
@[simp] theorem setStage_flag (s : State) (m : Memory) : (s.setStage m).flag = s.flag := rfl
@[simp] theorem setStage_err (s : State) (m : Memory) : (s.setStage m).err = s.err := rfl
@[simp] theorem setStage_errCode (s : State) (m : Memory) : (s.setStage m).errCode = s.errCode := rfl
@[simp] theorem setStage_errCmd (s : State) (m : Memory) : (s.setStage m).errCmd = s.errCmd := rfl
@[simp] theorem setStage_stage (s : State) (m : Memory) : (s.setStage m).stage = m := rfl
@[simp] theorem setStage_phase (s : State) (m : Memory) : (s.setStage m).phase = s.phase := rfl
@[simp] theorem setStage_received (s : State) (m : Memory) : (s.setStage m).received = s.received := rfl
@[simp] theorem setStage_host (s : State) (m : Memory) : (s.setStage m).host = s.host := rfl
@[simp] theorem setStage_held (s : State) (m : Memory) : (s.setStage m).held = s.held := rfl
@[simp] theorem setStage_response (s : State) (m : Memory) : (s.setStage m).response = s.response := rfl
@[simp] theorem setStage_turns (s : State) (m : Memory) : (s.setStage m).turns = s.turns := rfl
@[simp] theorem setStage_draws (s : State) (m : Memory) : (s.setStage m).draws = s.draws := rfl
@[simp] theorem setStage_poly (s : State) (m : Memory) (q : Reg) : (s.setStage m).poly q = s.poly q := rfl

/-! ### drawn -/

@[simp] theorem drawn_cfg (s : State) (n : Nat) : (s.drawn n).cfg = s.cfg := rfl
@[simp] theorem drawn_polys (s : State) (n : Nat) : (s.drawn n).polys = s.polys := rfl
@[simp] theorem drawn_arg0 (s : State) (n : Nat) : (s.drawn n).arg0 = s.arg0 := rfl
@[simp] theorem drawn_arg1 (s : State) (n : Nat) : (s.drawn n).arg1 = s.arg1 := rfl
@[simp] theorem drawn_arg2 (s : State) (n : Nat) : (s.drawn n).arg2 = s.arg2 := rfl
@[simp] theorem drawn_res0 (s : State) (n : Nat) : (s.drawn n).res0 = s.res0 := rfl
@[simp] theorem drawn_res1 (s : State) (n : Nat) : (s.drawn n).res1 = s.res1 := rfl
@[simp] theorem drawn_flag (s : State) (n : Nat) : (s.drawn n).flag = s.flag := rfl
@[simp] theorem drawn_err (s : State) (n : Nat) : (s.drawn n).err = s.err := rfl
@[simp] theorem drawn_errCode (s : State) (n : Nat) : (s.drawn n).errCode = s.errCode := rfl
@[simp] theorem drawn_errCmd (s : State) (n : Nat) : (s.drawn n).errCmd = s.errCmd := rfl
@[simp] theorem drawn_stage (s : State) (n : Nat) : (s.drawn n).stage = s.stage := rfl
@[simp] theorem drawn_phase (s : State) (n : Nat) : (s.drawn n).phase = s.phase := rfl
@[simp] theorem drawn_received (s : State) (n : Nat) : (s.drawn n).received = s.received := rfl
@[simp] theorem drawn_host (s : State) (n : Nat) : (s.drawn n).host = s.host := rfl
@[simp] theorem drawn_held (s : State) (n : Nat) : (s.drawn n).held = s.held := rfl
@[simp] theorem drawn_response (s : State) (n : Nat) : (s.drawn n).response = s.response := rfl
@[simp] theorem drawn_turns (s : State) (n : Nat) : (s.drawn n).turns = s.turns := rfl
@[simp] theorem drawn_draws (s : State) (n : Nat) : (s.drawn n).draws = s.draws + n := rfl
@[simp] theorem drawn_poly (s : State) (n : Nat) (q : Reg) : (s.drawn n).poly q = s.poly q := rfl

/-! ### finish -/

@[simp] theorem finish_cfg (s : State) : (s.finish).cfg = s.cfg := rfl
@[simp] theorem finish_polys (s : State) : (s.finish).polys = s.polys := rfl
@[simp] theorem finish_arg0 (s : State) : (s.finish).arg0 = s.arg0 := rfl
@[simp] theorem finish_arg1 (s : State) : (s.finish).arg1 = s.arg1 := rfl
@[simp] theorem finish_arg2 (s : State) : (s.finish).arg2 = s.arg2 := rfl
@[simp] theorem finish_res0 (s : State) : (s.finish).res0 = s.res0 := rfl
@[simp] theorem finish_res1 (s : State) : (s.finish).res1 = s.res1 := rfl
@[simp] theorem finish_flag (s : State) : (s.finish).flag = s.flag := rfl
@[simp] theorem finish_err (s : State) : (s.finish).err = s.err := rfl
@[simp] theorem finish_errCode (s : State) : (s.finish).errCode = s.errCode := rfl
@[simp] theorem finish_errCmd (s : State) : (s.finish).errCmd = s.errCmd := rfl
@[simp] theorem finish_stage (s : State) : (s.finish).stage = s.stage := rfl
@[simp] theorem finish_phase (s : State) : (s.finish).phase = .idle := rfl
@[simp] theorem finish_received (s : State) : (s.finish).received = [] := rfl
@[simp] theorem finish_host (s : State) : (s.finish).host = s.host := rfl
@[simp] theorem finish_held (s : State) : (s.finish).held = s.held := rfl
@[simp] theorem finish_response (s : State) : (s.finish).response = s.response := rfl
@[simp] theorem finish_turns (s : State) : (s.finish).turns = s.turns := rfl
@[simp] theorem finish_draws (s : State) : (s.finish).draws = s.draws := rfl
@[simp] theorem finish_poly (s : State) (q : Reg) : (s.finish).poly q = s.poly q := rfl

/-! ### raise -/

@[simp] theorem raise_cfg (s : State) (e : Err) (w : Word) : (s.raise e w).cfg = s.cfg := rfl
@[simp] theorem raise_polys (s : State) (e : Err) (w : Word) : (s.raise e w).polys = s.polys := rfl
@[simp] theorem raise_arg0 (s : State) (e : Err) (w : Word) : (s.raise e w).arg0 = s.arg0 := rfl
@[simp] theorem raise_arg1 (s : State) (e : Err) (w : Word) : (s.raise e w).arg1 = s.arg1 := rfl
@[simp] theorem raise_arg2 (s : State) (e : Err) (w : Word) : (s.raise e w).arg2 = s.arg2 := rfl
@[simp] theorem raise_res0 (s : State) (e : Err) (w : Word) : (s.raise e w).res0 = s.res0 := rfl
@[simp] theorem raise_res1 (s : State) (e : Err) (w : Word) : (s.raise e w).res1 = s.res1 := rfl
@[simp] theorem raise_flag (s : State) (e : Err) (w : Word) : (s.raise e w).flag = s.flag := rfl
@[simp] theorem raise_err (s : State) (e : Err) (w : Word) : (s.raise e w).err = true := rfl
@[simp] theorem raise_errCode (s : State) (e : Err) (w : Word) : (s.raise e w).errCode = e.code := rfl
@[simp] theorem raise_errCmd (s : State) (e : Err) (w : Word) : (s.raise e w).errCmd = w := rfl
@[simp] theorem raise_stage (s : State) (e : Err) (w : Word) : (s.raise e w).stage = s.stage := rfl
@[simp] theorem raise_phase (s : State) (e : Err) (w : Word) : (s.raise e w).phase = .idle := rfl
@[simp] theorem raise_received (s : State) (e : Err) (w : Word) : (s.raise e w).received = [] := rfl
@[simp] theorem raise_host (s : State) (e : Err) (w : Word) : (s.raise e w).host = s.host := rfl
@[simp] theorem raise_held (s : State) (e : Err) (w : Word) : (s.raise e w).held = s.held := rfl
@[simp] theorem raise_response (s : State) (e : Err) (w : Word) : (s.raise e w).response = s.response := rfl
@[simp] theorem raise_turns (s : State) (e : Err) (w : Word) : (s.raise e w).turns = s.turns := rfl
@[simp] theorem raise_draws (s : State) (e : Err) (w : Word) : (s.raise e w).draws = s.draws := rfl
@[simp] theorem raise_poly (s : State) (e : Err) (w : Word) (q : Reg) : (s.raise e w).poly q = s.poly q := rfl

/-! ### clearErr -/

@[simp] theorem clearErr_cfg (s : State) : (s.clearErr).cfg = s.cfg := rfl
@[simp] theorem clearErr_polys (s : State) : (s.clearErr).polys = s.polys := rfl
@[simp] theorem clearErr_arg0 (s : State) : (s.clearErr).arg0 = s.arg0 := rfl
@[simp] theorem clearErr_arg1 (s : State) : (s.clearErr).arg1 = s.arg1 := rfl
@[simp] theorem clearErr_arg2 (s : State) : (s.clearErr).arg2 = s.arg2 := rfl
@[simp] theorem clearErr_res0 (s : State) : (s.clearErr).res0 = s.res0 := rfl
@[simp] theorem clearErr_res1 (s : State) : (s.clearErr).res1 = s.res1 := rfl
@[simp] theorem clearErr_flag (s : State) : (s.clearErr).flag = s.flag := rfl
@[simp] theorem clearErr_err (s : State) : (s.clearErr).err = false := rfl
@[simp] theorem clearErr_errCode (s : State) : (s.clearErr).errCode = s.errCode := rfl
@[simp] theorem clearErr_errCmd (s : State) : (s.clearErr).errCmd = s.errCmd := rfl
@[simp] theorem clearErr_stage (s : State) : (s.clearErr).stage = s.stage := rfl
@[simp] theorem clearErr_phase (s : State) : (s.clearErr).phase = s.phase := rfl
@[simp] theorem clearErr_received (s : State) : (s.clearErr).received = s.received := rfl
@[simp] theorem clearErr_host (s : State) : (s.clearErr).host = s.host := rfl
@[simp] theorem clearErr_held (s : State) : (s.clearErr).held = s.held := rfl
@[simp] theorem clearErr_response (s : State) : (s.clearErr).response = s.response := rfl
@[simp] theorem clearErr_turns (s : State) : (s.clearErr).turns = s.turns := rfl
@[simp] theorem clearErr_draws (s : State) : (s.clearErr).draws = s.draws := rfl
@[simp] theorem clearErr_poly (s : State) (q : Reg) : (s.clearErr).poly q = s.poly q := rfl

/-! ### respond -/

@[simp] theorem respond_cfg (s : State) (a : BusResponse) : (s.respond a).cfg = s.cfg := rfl
@[simp] theorem respond_polys (s : State) (a : BusResponse) : (s.respond a).polys = s.polys := rfl
@[simp] theorem respond_arg0 (s : State) (a : BusResponse) : (s.respond a).arg0 = s.arg0 := rfl
@[simp] theorem respond_arg1 (s : State) (a : BusResponse) : (s.respond a).arg1 = s.arg1 := rfl
@[simp] theorem respond_arg2 (s : State) (a : BusResponse) : (s.respond a).arg2 = s.arg2 := rfl
@[simp] theorem respond_res0 (s : State) (a : BusResponse) : (s.respond a).res0 = s.res0 := rfl
@[simp] theorem respond_res1 (s : State) (a : BusResponse) : (s.respond a).res1 = s.res1 := rfl
@[simp] theorem respond_flag (s : State) (a : BusResponse) : (s.respond a).flag = s.flag := rfl
@[simp] theorem respond_err (s : State) (a : BusResponse) : (s.respond a).err = s.err := rfl
@[simp] theorem respond_errCode (s : State) (a : BusResponse) : (s.respond a).errCode = s.errCode := rfl
@[simp] theorem respond_errCmd (s : State) (a : BusResponse) : (s.respond a).errCmd = s.errCmd := rfl
@[simp] theorem respond_stage (s : State) (a : BusResponse) : (s.respond a).stage = s.stage := rfl
@[simp] theorem respond_phase (s : State) (a : BusResponse) : (s.respond a).phase = s.phase := rfl
@[simp] theorem respond_received (s : State) (a : BusResponse) : (s.respond a).received = s.received := rfl
@[simp] theorem respond_host (s : State) (a : BusResponse) : (s.respond a).host = s.host := rfl
@[simp] theorem respond_held (s : State) (a : BusResponse) : (s.respond a).held = s.held := rfl
@[simp] theorem respond_response (s : State) (a : BusResponse) : (s.respond a).response = some a := rfl
@[simp] theorem respond_turns (s : State) (a : BusResponse) : (s.respond a).turns = s.turns := rfl
@[simp] theorem respond_draws (s : State) (a : BusResponse) : (s.respond a).draws = s.draws := rfl
@[simp] theorem respond_poly (s : State) (a : BusResponse) (q : Reg) : (s.respond a).poly q = s.poly q := rfl

/-! ### Reading a register after it was written -/

/-- P[q] after `P[r] <- p` (00_scope.md R12). -/
theorem setPoly_poly (s : State) (r q : Reg) (p : PolyReg) :
    (s.setPoly r p).poly q = if r = q then p else s.poly q := by
  simp only [poly, setPoly]
  by_cases h : r = q
  · subst h; simp
  · have : r.val ≠ q.val := fun e => h (Fin.ext e)
    simp [h, this]

@[simp] theorem setPoly_poly_same (s : State) (r : Reg) (p : PolyReg) : (s.setPoly r p).poly r = p := by
  simp [setPoly_poly]

theorem setPoly_poly_other (s : State) {r q : Reg} (h : q ≠ r) (p : PolyReg) :
    (s.setPoly r p).poly q = s.poly q := by
  simp [setPoly_poly, Ne.symm h]

@[simp] theorem reset_poly (r : Reg) : reset.poly r = PolyReg.reset := by
  simp [poly, reset]

/-! ### STATUS.BUSY -/

theorem busy_idle {s : State} (h : s.phase = .idle) : s.busy = false := by simp [busy, h]

theorem busy_busy {s : State} {w : Word} (h : s.phase = .busy w) : s.busy = true := by simp [busy, h]

theorem busy_iff (s : State) : s.busy = true ↔ ∃ w, s.phase = .busy w := by
  unfold busy
  cases h : s.phase <;> simp

@[simp] theorem finish_busy (s : State) : s.finish.busy = false := rfl
@[simp] theorem raise_busy (s : State) (e : Err) (w : Word) : (s.raise e w).busy = false := rfl

end Sys2Proof.Machine.State
end

