-- ==== Sys2Proof/Laws/Exec.lean ====
section
/-! SUPPORT. What a command can do, said once: it raises the error of its first broken precondition, or it takes its
effect and ends (60_exceptions.md R100, R103, R104). -/

namespace Sys2Proof.Machine

open Sys2Proof

@[simp] theorem firstError_nil : firstError [] = none := rfl

@[simp] theorem firstError_cons (b : Bool) (e : Err) (cs : Checks) :
    firstError ((b, e) :: cs) = if b then some e else firstError cs := rfl

theorem firstError_append (cs ds : Checks) :
    firstError (cs ++ ds) = (firstError cs).or (firstError ds) := by
  induction cs with
  | nil => rfl
  | cons c cs ih =>
    obtain ⟨b, e⟩ := c
    cases b <;> simp [ih]

theorem command_of_none {cmd : Word} {s : State} {cs : Checks} {t : State} (h : firstError cs = none) :
    command cmd s cs t = .next t.finish := by
  simp [command, h]

theorem command_of_some {cmd : Word} {s : State} {cs : Checks} {t : State} {e : Err}
    (h : firstError cs = some e) : command cmd s cs t = .next (s.raise e cmd) := by
  simp [command, h]

/-- The inversion of a command: it always answers a next state, and that is the error entry or its effect. -/
theorem command_cases {cmd : Word} {s : State} {cs : Checks} {t u : State}
    (h : command cmd s cs t = .next u) :
    (∃ e, firstError cs = some e ∧ u = s.raise e cmd) ∨ (firstError cs = none ∧ u = t.finish) := by
  unfold command at h
  cases hf : firstError cs with
  | some e => rw [hf] at h; left; exact ⟨e, rfl, by injection h with h; exact h.symm⟩
  | none => rw [hf] at h; right; exact ⟨rfl, by injection h with h; exact h.symm⟩

theorem command_answers (cmd : Word) (s : State) (cs : Checks) (t : State) :
    ∃ u, command cmd s cs t = .next u := by
  unfold command
  cases firstError cs <;> exact ⟨_, rfl⟩

/-! ### The operand checks (R102) -/

theorem widthOk_iff (p : PolyReg) : p.widthOk = true ↔ p.width ≤ 8 * p.len := by simp [PolyReg.widthOk]

theorem readable_iff (p : PolyReg) : p.Readable ↔ p.valid = true ∧ p.widthOk = true := by
  rw [widthOk_iff]; rfl

/-- The checks on one operand pass exactly when it is readable. -/
theorem firstError_checkOperands_one (s : State) (r : Reg) :
    firstError (s.checkOperands [r]) =
      if (s.poly r).valid = false then some .invalidOperandType
      else if (s.poly r).widthOk = false then some .invalidWidth else none := by
  simp [State.checkOperands]

/-- The checks on two operands: both validities, then both widths. -/
theorem firstError_checkOperands_two (s : State) (r q : Reg) :
    firstError (s.checkOperands [r, q]) =
      if (s.poly r).valid = false ∨ (s.poly q).valid = false then some .invalidOperandType
      else if (s.poly r).widthOk = false ∨ (s.poly q).widthOk = false then some .invalidWidth else none := by
  cases h1 : (s.poly r).valid <;> cases h2 : (s.poly q).valid <;>
    cases h3 : (s.poly r).widthOk <;> cases h4 : (s.poly q).widthOk <;>
    simp [State.checkOperands, h1, h2, h3, h4]

theorem checkOperands_one_pass {s : State} {r : Reg} (h : (s.poly r).Readable) :
    firstError (s.checkOperands [r]) = none := by
  rw [readable_iff] at h
  simp [firstError_checkOperands_one, h]

theorem checkOperands_two_pass {s : State} {r q : Reg} (h : (s.poly r).Readable) (k : (s.poly q).Readable) :
    firstError (s.checkOperands [r, q]) = none := by
  rw [readable_iff] at h k
  simp [firstError_checkOperands_two, h, k]

/-- If the checks of a command that begins with one operand's pass, the operand is readable and the rest pass. -/
theorem checkOperands_one_inv {s : State} {r : Reg} {cs : Checks}
    (h : firstError (s.checkOperands [r] ++ cs) = none) : (s.poly r).Readable ∧ firstError cs = none := by
  rw [firstError_append, firstError_checkOperands_one] at h
  split_ifs at h with h1 h2
  · simp at h
  · simp at h
  · exact ⟨(readable_iff _).mpr ⟨by simpa using h1, by simpa using h2⟩, by simpa using h⟩

/-- The same for a command that begins with the checks of two operands. -/
theorem checkOperands_two_inv {s : State} {r q : Reg} {cs : Checks}
    (h : firstError (s.checkOperands [r, q] ++ cs) = none) :
    (s.poly r).Readable ∧ (s.poly q).Readable ∧ firstError cs = none := by
  rw [firstError_append, firstError_checkOperands_two] at h
  split_ifs at h with h1 h2
  · simp at h
  · simp at h
  · simp only [not_or, Bool.not_eq_false] at h1 h2
    exact ⟨(readable_iff _).mpr ⟨h1.1, h2.1⟩, (readable_iff _).mpr ⟨h1.2, h2.2⟩, by simpa using h⟩

theorem checkOrder_pass {s : State} {r q : Reg} (h : (s.poly r).order = (s.poly q).order) :
    firstError (s.checkOrder r q) = none := by
  simp [State.checkOrder, h]

theorem checkOrder_fail {s : State} {r q : Reg} (h : (s.poly r).order ≠ (s.poly q).order) :
    firstError (s.checkOrder r q) = some .invalidOperandType := by
  simp [State.checkOrder, h]

/-- If the range checks pass, every position of the sequence lies inside the width (R81). -/
theorem positions_lt {s : State} {p : PolyReg} (h : firstError (s.seqCheck p) = none) :
    1 ≤ s.stride.toNat ∧ ∀ i ∈ s.positions, i < p.width := by
  simp only [State.seqCheck, firstError_cons, firstError_nil, decide_eq_true_eq] at h
  split_ifs at h with h1 h2 h3
  have hk : 1 ≤ s.stride.toNat := by omega
  refine ⟨hk, fun i hi => ?_⟩
  obtain ⟨k, _, hlt⟩ := (mem_seq hk i).mp hi
  omega

/-- The range checks pass exactly in the ranges of R81. -/
theorem firstError_seqCheck (s : State) (p : PolyReg) :
    (s.InRange p.width → firstError (s.seqCheck p) = none) ∧
    (¬ s.InRange p.width → firstError (s.seqCheck p) = some .indexOutOfRange) := by
  have h1 : s.start = s.arg0.toInt := rfl
  have h2 : s.stop = s.arg1.toInt := rfl
  have h3 : s.stride = s.arg2.toInt := rfl
  simp only [State.seqCheck, firstError_cons, firstError_nil, decide_eq_true_eq, State.InRange]
  constructor
  · intro h
    rw [if_neg (by omega), if_neg (by omega), if_neg (by omega)]
  · intro h
    by_cases c1 : s.start < 0 ∨ s.start ≥ p.width
    · rw [if_pos c1]
    · rw [if_neg c1]
      by_cases c2 : s.stop < 0 ∨ s.stop > p.width
      · rw [if_pos c2]
      · rw [if_neg c2, if_pos (by omega)]

/-- Element j of the sequence (R81). -/
theorem getElem_positions (s : State) {j : Nat} (h : j < s.positions.length) :
    s.positions[j] = s.position j :=
  getElem_seq h

/-- The length of the sequence, said without the division (R81). -/
theorem seqHas_length {s : State} {w : Nat} (h : s.InRange w) : s.SeqHas s.positions.length := by
  obtain ⟨h0, _, h1, _, h2⟩ := h
  intro j
  have hp : s.positions.length = seqLen s.start.toNat s.stop.toNat s.stride.toNat := length_seq _ _ _
  have e1 : s.start = s.arg0.toInt := rfl
  have e2 : s.stop = s.arg1.toInt := rfl
  have e3 : s.stride = s.arg2.toInt := rfl
  rw [hp, e1, e2, e3, State.position, seqLen]
  have hstep : 1 ≤ s.arg2.toInt.toNat := by omega
  generalize s.arg0.toInt.toNat = a at *
  generalize hb : s.arg1.toInt.toNat = b
  have hb' : s.arg1.toInt = b := by omega
  rw [hb']
  generalize s.arg2.toInt.toNat = k at *
  have hj := Nat.zero_le (j * k)
  split_ifs with hlt
  · rw [Nat.lt_div_iff_mul_lt (by omega)]
    constructor <;> intro h <;> omega
  · constructor <;> intro h <;> omega

/-- Only one length fits (R81). -/
theorem seqHas_unique {s : State} {m n : Nat} (hm : s.SeqHas m) (hn : s.SeqHas n) : m = n := by
  rcases Nat.lt_trichotomy m n with h | h | h
  · exact absurd ((hm m).mpr ((hn m).mp h)) (by omega)
  · exact h
  · exact absurd ((hn n).mpr ((hm n).mp h)) (by omega)

/-- A sequence of the ranges of R81 has no more positions than the register has coefficients. -/
theorem positions_length_le {s : State} {p : PolyReg} (h : s.InRange p.width) : s.positions.length ≤ p.width := by
  have hs := positions_lt ((firstError_seqCheck s p).1 h)
  have hsub : s.positions.toFinset ⊆ Finset.range p.width := by
    intro i hi
    exact Finset.mem_range.mpr (hs.2 i (List.mem_toFinset.mp hi))
  have hnd : s.positions.Nodup := seq_nodup hs.1
  have := Finset.card_le_card hsub
  rwa [List.toFinset_card_of_nodup hnd, Finset.card_range] at this

/-! ### Frames -/

theorem completes_finish {s t : State} (h : t.cfg = s.cfg ∧ t.arg0 = s.arg0 ∧ t.arg1 = s.arg1 ∧ t.arg2 = s.arg2 ∧
    t.err = s.err ∧ t.errCode = s.errCode ∧ t.errCmd = s.errCmd ∧ t.host = s.host ∧ t.held = s.held ∧
    t.response = s.response ∧ t.turns = s.turns) : Completes s t.finish := by
  obtain ⟨h1, h2, h3, h4, h5, h6, h7, h8, h9, h10, h11⟩ := h
  constructor <;> simp [*]

/-- A command whose effect is one register write writes only that register. -/
theorem writesOnly_setPoly (s : State) (r : Reg) (p : PolyReg) : WritesOnly r s (s.setPoly r p).finish where
  completes := completes_finish (by simp)
  others := fun q hq => by simp [State.setPoly_poly_other _ hq]
  stage := by simp [KeepsStage]
  results := by simp [KeepsResults]
  draws := rfl

end Sys2Proof.Machine
end

