-- ==== Sys2Proof/Laws/PerInstr.lean ====
section
/-! SUPPORT. Statements made per instruction, one lemma for each constructor of `Instr`. -/

namespace Sys2Proof.Laws.EncodingSelectsItsOpcode

open Sys2Proof

/-- The word of a command carries the opcode of its own row of the table of R60, and its reserved bits are 0. -/
def Statement (i : Instr) : Prop :=
  (∃ r ∈ opcodeRows, r.mnemonic = i.mnemonic ∧ opcField (encode i) = opcField r.pattern) ∧
    reservedField (encode i) = 0

/-- A packed word with the opcode of row n. -/
theorem of_pack {i : Instr} {opc : Word} {rd ra rb : Reg} {d o : Bool} (n : Nat) (hn : n < opcodeRows.length)
    (he : encode i = pack opc rd ra rb d o) (hm : opcodeRows[n].mnemonic = i.mnemonic)
    (hb : opc.toNat < 256) (ho : opc.toNat = opcField opcodeRows[n].pattern) : Statement i := by
  refine ⟨⟨opcodeRows[n], List.getElem_mem _, hm, ?_⟩, ?_⟩
  · rw [he, opcField_pack _ hb, ho]
  · rw [he, reservedField_pack]

theorem load (rd : Reg) (d : Bool) (o : LayoutOrder) : Statement (.load rd d o) := of_pack 0 (by decide) rfl rfl (by decide) (by decide)

theorem rand (rd : Reg) (o : LayoutOrder) : Statement (.rand rd o) := of_pack 1 (by decide) rfl rfl (by decide) (by decide)

theorem store (ra : Reg) : Statement (.store ra) := of_pack 2 (by decide) rfl rfl (by decide) (by decide)

theorem info (ra : Reg) : Statement (.info ra) := of_pack 3 (by decide) rfl rfl (by decide) (by decide)

theorem get (ra : Reg) : Statement (.get ra) := of_pack 4 (by decide) rfl rfl (by decide) (by decide)

theorem set (rd : Reg) : Statement (.set rd) := of_pack 5 (by decide) rfl rfl (by decide) (by decide)

theorem slice (rd ra : Reg) : Statement (.slice rd ra) := of_pack 6 (by decide) rfl rfl (by decide) (by decide)

theorem setr (rd ra : Reg) : Statement (.setr rd ra) := of_pack 7 (by decide) rfl rfl (by decide) (by decide)

theorem xor (rd ra rb : Reg) : Statement (.xor rd ra rb) := of_pack 8 (by decide) rfl rfl (by decide) (by decide)

theorem shl (rd ra : Reg) : Statement (.shl rd ra) := of_pack 9 (by decide) rfl rfl (by decide) (by decide)

theorem mul (rd ra rb : Reg) : Statement (.mul rd ra rb) := of_pack 10 (by decide) rfl rfl (by decide) (by decide)

theorem muls (rd ra : Reg) : Statement (.muls rd ra) := of_pack 11 (by decide) rfl rfl (by decide) (by decide)

theorem divt (ra rb : Reg) : Statement (.divt ra rb) := of_pack 12 (by decide) rfl rfl (by decide) (by decide)

end Sys2Proof.Laws.EncodingSelectsItsOpcode
end

