-- ==== Sys2Proof/Laws/Turns.lean ====
section
/-! SUPPORT. What a command and a turn can do, said once (60_exceptions.md R104, R106; 70_reset_and_hazards.md R123). -/

namespace Sys2Proof.Machine

open Sys2Proof

/-- A RAND that still needs bytes (40_construction.md R72, 70_reset_and_hazards.md R127). -/
def Waits (i : Instr) (s : State) : Prop :=
  (∃ rd o, i = .rand rd o) ∧ s.randWidth ≤ s.cfg.wmax ∧ s.received.length < s.randLen

/-- What a command's effect never changes. -/
structure Untouched (s t : State) : Prop where
  cfg      : t.cfg = s.cfg
  arg0     : t.arg0 = s.arg0
  arg1     : t.arg1 = s.arg1
  arg2     : t.arg2 = s.arg2
  err      : t.err = s.err
  errCode  : t.errCode = s.errCode
  errCmd   : t.errCmd = s.errCmd
  host     : t.host = s.host
  held     : t.held = s.held
  response : t.response = s.response
  turns    : t.turns = s.turns

theorem Untouched.completes {s t : State} (h : Untouched s t) : Completes s t.finish :=
  completes_finish ⟨h.cfg, h.arg0, h.arg1, h.arg2, h.err, h.errCode, h.errCmd, h.host, h.held, h.response, h.turns⟩

theorem Untouched.refl (s : State) : Untouched s s := ⟨rfl, rfl, rfl, rfl, rfl, rfl, rfl, rfl, rfl, rfl, rfl⟩

/-- The inversion of exec: a waiting RAND changes nothing, an error is the error entry with the command's own word, and
anything else completes. -/
theorem exec_cases {i : Instr} {s t : State} (h : exec i s = .next t) :
    (Waits i s ∧ t = s) ∨ (∃ e, t = s.raise e (encode i)) ∨ Completes s t := by
  have key : ∀ {cs : Checks} {u : State}, command (encode i) s cs u = .next t → Untouched s u →
      (Waits i s ∧ t = s) ∨ (∃ e, t = s.raise e (encode i)) ∨ Completes s t := by
    intro cs u hc hu
    rcases command_cases hc with ⟨e, _, rfl⟩ | ⟨_, rfl⟩
    · exact .inr (.inl ⟨e, rfl⟩)
    · exact .inr (.inr hu.completes)
  have hset : ∀ r p, Untouched s (s.setPoly r p) := fun r p => ⟨rfl, rfl, rfl, rfl, rfl, rfl, rfl, rfl, rfl, rfl, rfl⟩
  cases i with
  | load rd d o => exact key h ⟨rfl, rfl, rfl, rfl, rfl, rfl, rfl, rfl, rfl, rfl, rfl⟩
  | rand rd o =>
    simp only [exec, execRand] at h
    split_ifs at h with hw
    · left
      refine ⟨⟨⟨rd, o, rfl⟩, hw⟩, ?_⟩
      injection h with h; exact h.symm
    · exact key h (hset _ _)
  | store ra => exact key h ⟨rfl, rfl, rfl, rfl, rfl, rfl, rfl, rfl, rfl, rfl, rfl⟩
  | info ra =>
    simp only [exec, execInfo] at h
    exact key h ⟨rfl, rfl, rfl, rfl, rfl, rfl, rfl, rfl, rfl, rfl, rfl⟩
  | get ra => exact key h ⟨rfl, rfl, rfl, rfl, rfl, rfl, rfl, rfl, rfl, rfl, rfl⟩
  | set rd =>
    refine key h ?_
    split_ifs
    · exact Untouched.refl s
    · exact hset _ _
  | slice rd ra => exact key h (hset _ _)
  | setr rd ra => exact key h (hset _ _)
  | xor rd ra rb => exact key h (hset _ _)
  | shl rd ra => exact key h (hset _ _)
  | mul rd ra rb => exact key h (hset _ _)
  | muls rd ra => exact key h (hset _ _)
  | divt ra rb => exact key h ⟨rfl, rfl, rfl, rfl, rfl, rfl, rfl, rfl, rfl, rfl, rfl⟩

/-- A busy unit lets only a STATUS read through (R123). -/
theorem mayComplete_busy {s : State} {a : Access} (h : s.busy = true) :
    s.mayComplete a = a.isStatusRead := by
  simp [State.mayComplete, h]

/-- An idle unit lets every access through (R123). -/
theorem mayComplete_idle {s : State} {a : Access} (h : s.busy = false) : s.mayComplete a = true := by
  simp [State.mayComplete, h]

/-- A STATUS read answers the status word and changes nothing of the unit (R43, R123). -/
theorem access_statusRead {s : State} {a : Access} (h : a.isStatusRead = true) :
    s.access a = s.respond (.readDone s.statusWord) := by
  simp only [Access.isStatusRead, Bool.and_eq_true, Bool.not_eq_true', beq_iff_eq] at h
  obtain ⟨⟨h1, h2⟩, h3⟩ := h
  have hwf : a.wf = true := by simp [Access.wf, h3, h2]
  simp [State.access, hwf, h2, h1, Access.stageBase, State.readReg]

/-- A read changes nothing of the unit but the count of drawn values (R43). -/
theorem access_read {s : State} {a : Access} (h : a.we = false) :
    ∃ r n, s.access a = (s.drawn n).respond r := by
  simp only [State.access, h, Bool.false_eq_true, if_false]
  split_ifs with h1 h2
  · exact ⟨.busError 0, 0, rfl⟩
  · exact ⟨.readDone (s.readReg a.off), 0, rfl⟩
  · exact ⟨_, _, rfl⟩

/-- An illegal access gets a bus error and changes nothing (R42). -/
theorem access_illegal {s : State} {a : Access} (h : a.wf = false) : s.access a = s.respond (.busError 0) := by
  simp [State.access, h]

/-- What no host access ever changes: only a CMD write moves the phase, only a STATUS write clears ERR, only ARG writes
and STAGE writes store (R43). -/
theorem access_keeps (s : State) (a : Access) :
    (s.access a).polys = s.polys ∧ (s.access a).res0 = s.res0 ∧ (s.access a).res1 = s.res1 ∧
    (s.access a).flag = s.flag ∧ (s.access a).errCode = s.errCode ∧ (s.access a).errCmd = s.errCmd ∧
    (s.access a).cfg = s.cfg ∧ (s.access a).received = s.received ∧ (s.access a).host = s.host ∧
    (s.access a).held = s.held ∧ (s.access a).turns = s.turns := by
  have hw : ∀ off v, (s.writeReg off v).polys = s.polys ∧ (s.writeReg off v).res0 = s.res0 ∧
      (s.writeReg off v).res1 = s.res1 ∧ (s.writeReg off v).flag = s.flag ∧ (s.writeReg off v).errCode = s.errCode ∧
      (s.writeReg off v).errCmd = s.errCmd ∧ (s.writeReg off v).cfg = s.cfg ∧
      (s.writeReg off v).received = s.received ∧ (s.writeReg off v).host = s.host ∧
      (s.writeReg off v).held = s.held ∧ (s.writeReg off v).turns = s.turns := by
    intro off v
    unfold State.writeReg
    split
    · unfold State.acceptCommand; split_ifs <;> simp
    · unfold State.writeStatus; split_ifs <;> simp
    all_goals simp
  unfold State.access
  split_ifs
  · simp
  · simpa using hw a.off a.wdata
  · simp
  · simp [State.stageWrite]
  · simp

/-- The host's turn keeps registers, results, FLAG, the error record, parameters and byte-source progress. -/
theorem hostTurn_keeps (s : State) :
    s.hostTurn.polys = s.polys ∧ s.hostTurn.res0 = s.res0 ∧ s.hostTurn.res1 = s.res1 ∧
    s.hostTurn.flag = s.flag ∧ s.hostTurn.errCode = s.errCode ∧ s.hostTurn.errCmd = s.errCmd ∧
    s.hostTurn.cfg = s.cfg ∧ s.hostTurn.received = s.received := by
  unfold State.hostTurn
  split
  · simp
  · split_ifs
    · have := access_keeps { s with host := ‹_›, held := false } ‹Access›
      simp [this]
    · simp

/-- The byte source's turn changes at most the bytes received. -/
theorem byteTurn_keeps (s : State) (b : Byte) : s.byteTurn b = { s with received := (s.byteTurn b).received } := by
  unfold State.byteTurn; split_ifs <;> rfl

/-- The unit's turn: nothing happens (an idle unit, a waiting RAND), an error is entered with the accepted word or the
command's own, or the decoded command completes. -/
theorem unitTurn_cases {s t : State} (h : s.unitTurn = .next t) :
    (t = s ∧ (s.busy = false ∨ s.bsReq = true)) ∨
    (∃ w e, s.phase = .busy w ∧ (t = s.raise e w ∨ ∃ i, decode w = .ok i ∧ t = s.raise e (encode i))) ∨
    (∃ w i, s.phase = .busy w ∧ decode w = .ok i ∧ exec i s = .next t ∧ Completes s t) := by
  unfold State.unitTurn at h
  split at h
  · rename_i hp
    injection h with h
    exact .inl ⟨h.symm, .inl (State.busy_idle hp)⟩
  · rename_i w hp
    split at h
    · injection h with h
      exact .inr (.inl ⟨w, _, hp, .inl h.symm⟩)
    · rename_i i hd
      rcases exec_cases h with ⟨⟨⟨rd, o, rfl⟩, hw⟩, rfl⟩ | ⟨e, rfl⟩ | hc
      · exact .inl ⟨rfl, .inr (by simp [State.bsReq, hp, isRand, hd, hw])⟩
      · exact .inr (.inl ⟨w, e, hp, .inr ⟨i, hd, rfl⟩⟩)
      · exact .inr (.inr ⟨w, i, hp, hd, h, hc⟩)

/-- A step is one turn of one agent, taken from the state with that turn removed (or from the state itself, when no
turn is left). -/
theorem step_cases {s t : State} (h : step s = .next t) :
    ∃ u, (∃ ts, u = { s with turns := ts }) ∧
      (t = u.hostTurn ∨ (∃ b, t = u.byteTurn b) ∨ u.unitTurn = .next t ∨
        ((∃ p, t = u.resetTurn p) ∧ s.resetIsNext)) := by
  unfold step State.advance at h
  split at h
  · rename_i tn ts heq
    refine ⟨{ s with turns := ts }, ⟨ts, rfl⟩, ?_⟩
    cases tn <;> simp only [State.take] at h
    · injection h with h; simp [h]
    · simp [h]
    · injection h with h; right; left; exact ⟨_, h.symm⟩
    · injection h with h; right; right; right; exact ⟨⟨_, h.symm⟩, _, _, heq⟩
  · split_ifs at h
    refine ⟨s, ⟨s.turns, rfl⟩, ?_⟩
    unfold State.defaultTurn at h
    split_ifs at h <;> simp only [State.take] at h
    · simp [h]
    · injection h with h; simp [h]

/-- Every command answers a next state (R104, R106). -/
theorem exec_answers (i : Instr) (s : State) : ∃ t, exec i s = .next t := by
  cases i with
  | rand rd o =>
    simp only [exec, execRand]
    split_ifs
    · exact ⟨_, rfl⟩
    · exact command_answers _ _ _ _
  | info ra =>
    simp only [exec, execInfo]
    exact command_answers _ _ _ _
  | _ => exact command_answers _ _ _ _

/-- The unit's turn answers a next state. -/
theorem unitTurn_answers (s : State) : ∃ t, s.unitTurn = .next t := by
  unfold State.unitTurn
  split
  · exact ⟨_, rfl⟩
  · split
    · exact ⟨_, rfl⟩
    · exact exec_answers _ _

/-- The host's turn on its next access (R123). -/
theorem hostTurn_cons {s : State} {a : Access} {rest : List Access} (h : s.host = a :: rest) :
    s.hostTurn = if s.mayComplete a then ({ s with host := rest, held := false } : State).access a
      else { s with held := true } := by
  unfold State.hostTurn
  split
  · simp_all
  · rename_i x y hh
    rw [hh] at h
    injection h with h1 h2
    rw [h1, h2]

/-- A step in which the idle unit lets the host's next access through. -/
theorem step_host_idle {s : State} {a : Access} {rest : List Access} {ts : List Turn}
    (h : s.hostIsNext a rest ts) (hb : s.busy = false) :
    step s = .next (({ s with turns := ts, host := rest, held := false } : State).access a) := by
  have hi : ({ s with turns := ts } : State).busy = false := hb
  simp only [step, State.advance, h.1, State.take]
  rw [hostTurn_cons (s := { s with turns := ts }) h.2, if_pos (mayComplete_idle hi)]

/-- A step in which the busy unit holds the host's next access (R123). -/
theorem step_host_held {s : State} {a : Access} {rest : List Access} {ts : List Turn}
    (h : s.hostIsNext a rest ts) (hb : s.busy = true) (ha : a.isStatusRead = false) :
    step s = .next { s with turns := ts, held := true } := by
  have hi : ({ s with turns := ts } : State).busy = true := hb
  simp only [step, State.advance, h.1, State.take]
  rw [hostTurn_cons (s := { s with turns := ts }) h.2, if_neg (by rw [mayComplete_busy hi, ha]; simp)]

/-- A step in which the busy unit answers a STATUS read (R123). -/
theorem step_host_status {s : State} {a : Access} {rest : List Access} {ts : List Turn}
    (h : s.hostIsNext a rest ts) (hb : s.busy = true) (ha : a.isStatusRead = true) :
    step s = .next (s.offBus rest ts (.readDone s.statusWord)) := by
  have hi : ({ s with turns := ts } : State).busy = true := hb
  simp only [step, State.advance, h.1, State.take]
  rw [hostTurn_cons (s := { s with turns := ts }) h.2, if_pos (by rw [mayComplete_busy hi, ha]),
    access_statusRead ha]
  rfl

/-- A legal write below 0x800 goes to the registers (R41). -/
theorem access_registerWrite {s : State} {a : Access} (h : a.wf = true) (hw : a.we = true)
    (hl : a.off < Access.stageBase) : s.access a = (s.writeReg a.off a.wdata).respond .writeDone := by
  simp [State.access, h, hw, hl]

/-- A legal read below 0x800 comes from the registers (R41). -/
theorem access_registerRead {s : State} {a : Access} (h : a.wf = true) (hw : a.we = false)
    (hl : a.off < Access.stageBase) : s.access a = s.respond (.readDone (s.readReg a.off)) := by
  simp [State.access, h, hw, hl]

end Sys2Proof.Machine
end

