-- ==== Sys2Proof/Tests/Slice0.lean ====
section
/-! SUPPORT. The model's own tests. Expected values are those of spec/95_test_vectors.md and of the worked encodings of
30_encoding.md R67, or are worked out by hand from the encoding rows of R60. The last part gives, for every obligation
that has hypotheses, concrete states and operands that meet them, clause by clause. -/

namespace Sys2Proof.Tests

open Sys2Proof Sys2Proof.Machine

/-! ### Builders -/

/-- A register as `L(order, [bytes], bits)` of 95_test_vectors.md leaves it. -/
def reg (o : LayoutOrder) (bytes : List Byte) (bits : Word) : PolyReg :=
  ⟨true, o, bits, bytes.length, Memory.writeBytes [] 0 bytes⟩

/-- A small state: reset, with these argument registers and these polynomial registers. -/
def st (a0 a1 a2 : Word) (regs : List (Reg × PolyReg)) : State :=
  regs.foldl (fun s r => s.setPoly r.1 r.2) { State.reset with arg0 := a0, arg1 := a1, arg2 := a2 }

/-- The next state of an outcome. -/
def next? : Host.Outcome State Fault Refusal → Option State
  | .next t => some t
  | _ => none

/-- What a command leaves, seen through `f`. -/
def after {α : Type} (i : Instr) (s : State) (f : State → α) : Option α := (next? (exec i s)).map f

/-- The bytes of a register that belong to its value. -/
def bytesOf (s : State) (r : Reg) : List (Option Byte) := (List.range (s.poly r).len).map (s.poly r).data.read?

/-- The error record: ERR and ERRCODE. -/
def errOf (s : State) : Bool × BitVec 4 := (s.err, s.errCode)

/-- The host's turn on one access to an idle unit that holds STAGE and error as given. -/
def hst (a : Access) (ph : Phase) (err : Bool) : State :=
  { State.reset with host := [a], turns := [.host], phase := ph, err := err }

/-- A state busy with the word, the unit's turn next. -/
def busyWith (w : Word) (s : State) : State := { s with phase := .busy w, turns := [.unit] }

def pA5 : PolyReg := reg .little [0xA5] 8
def p35 : PolyReg := reg .big [0x35, 0xB0] 14
def p13 : PolyReg := reg .big [0x13] 5
/-- A register whose declared width exceeds its buffer. -/
def pOver : PolyReg := reg .big [0x01, 0x02] 17

/-! ### Decoding: a word written out for every command (R60: OPC, RD, RA, RB, reserved, D, O) -/

theorem test_decode_load : decode 0b00000001_1111_0000_0000_0000000000_1_1 = .ok (.load 15 true .little) := by decide
theorem test_decode_load_arg1 : decode 0b00000001_0010_0000_0000_0000000000_0_0 = .ok (.load 2 false .big) := by decide
theorem test_decode_rand : decode 0b00000010_0010_0000_0000_0000000000_0_1 = .ok (.rand 2 .little) := by decide
theorem test_decode_store : decode 0b00000011_0000_0011_0000_0000000000_0_0 = .ok (.store 3) := by decide
theorem test_decode_info : decode 0b00000100_0000_0101_0000_0000000000_0_0 = .ok (.info 5) := by decide
theorem test_decode_get : decode 0b00010000_0000_0110_0000_0000000000_0_0 = .ok (.get 6) := by decide
theorem test_decode_set : decode 0b00010001_1001_0000_0000_0000000000_0_0 = .ok (.set 9) := by decide
theorem test_decode_slice : decode 0b00010010_0011_1100_0000_0000000000_0_0 = .ok (.slice 3 12) := by decide
theorem test_decode_setr : decode 0b00010011_0100_0001_0000_0000000000_0_0 = .ok (.setr 4 1) := by decide
theorem test_decode_xor : decode 0b00100000_1111_1110_1101_0000000000_0_0 = .ok (.xor 15 14 13) := by decide
theorem test_decode_shl : decode 0b00100001_0010_0001_0000_0000000000_0_0 = .ok (.shl 2 1) := by decide
theorem test_decode_mul : decode 0b00100010_0010_0100_1000_0000000000_0_0 = .ok (.mul 2 4 8) := by decide
theorem test_decode_muls : decode 0b00100011_0001_0111_0000_0000000000_0_0 = .ok (.muls 1 7) := by decide
theorem test_decode_divt : decode 0b00100100_0000_0000_0010_0000000000_0_0 = .ok (.divt 0 2) := by decide

/-- The illegal words of L2.1 that name an unassigned opcode. -/
theorem test_decode_unassigned : decode 0x00000000 = .error .unassignedOpcode ∧
    decode 0x05000000 = .error .unassignedOpcode ∧ decode 0x14000000 = .error .unassignedOpcode ∧
    decode 0x25000000 = .error .unassignedOpcode ∧ decode 0xFF000000 = .error .unassignedOpcode := by decide

/-- The illegal words of L2.1 that set a must-be-zero bit. -/
theorem test_decode_mustBeZero : decode 0x20000004 = .error .mustBeZero ∧ decode 0x20000800 = .error .mustBeZero ∧
    decode 0x21001000 = .error .mustBeZero ∧ decode 0x02000002 = .error .mustBeZero ∧
    decode 0x24100000 = .error .mustBeZero ∧ decode 0x03100000 = .error .mustBeZero ∧
    decode 0x11010000 = .error .mustBeZero ∧ decode 0x20000001 = .error .mustBeZero := by decide

theorem test_decodeTableWord : decodeTableWord 32 0x12300000 = some (.slice 3 0) ∧ decodeTableWord 32 0 = none := by
  decide

/-! ### Well-formedness: an ill-formed term for each check -/

theorem test_word_refused_opcode : wordLegal 0x05000000 = false := by decide
theorem test_word_refused_reserved : wordLegal 0x20000004 = false := by decide
theorem test_word_refused_rd : wordLegal 0x24100000 = false := by decide
theorem test_word_refused_ra : wordLegal 0x11010000 = false := by decide
theorem test_word_refused_rb : wordLegal 0x21001000 = false := by decide
theorem test_word_refused_d : wordLegal 0x02000002 = false := by decide
theorem test_word_refused_o : wordLegal 0x20000001 = false := by decide
theorem test_word_accepted : wordLegal 0x01F00003 = true ∧ wordLegal 0x24000000 = true := by decide
theorem test_rows_apart : opcodeRows.Pairwise (fun a b => a.overlaps b = false) := by decide

theorem test_access_refused_narrow_register : (⟨false, 0x004, .byte, 0⟩ : Access).wf = false := by decide
theorem test_access_refused_misaligned : (⟨false, 0x801, .half, 0⟩ : Access).wf = false ∧
    (⟨false, 0x006, .word, 0⟩ : Access).wf = false := by decide
theorem test_access_refused_size3 : (⟨false, 0x800, .reserved, 0⟩ : Access).wf = false := by decide
theorem test_access_accepted : (⟨false, 0x801, .byte, 0⟩ : Access).wf = true ∧
    (⟨false, 0xFFC, .word, 0⟩ : Access).wf = true := by decide

theorem test_pseudo_refused_rotl : (Pseudo.rotl 1 0 0 8 2).wf = false ∧ (Pseudo.rotl 1 0 9 8 2).wf = false ∧
    (Pseudo.rotl 1 0 0 0 2).wf = false ∧ (Pseudo.rotl 1 0 3 8 1).wf = false := by decide
theorem test_pseudo_refused_rotr : (Pseudo.rotr 1 0 8 8 2).wf = false ∧ (Pseudo.rotr 1 0 0 0 2).wf = false ∧
    (Pseudo.rotr 1 0 3 8 1).wf = false := by decide
theorem test_pseudo_refused_loadi : (Pseudo.loadi 0 .big (List.replicate 2049 0) 8).wf = false ∧
    (Pseudo.loadiDefw 0 .big (List.replicate 2049 0)).wf = false := by
  constructor <;> simp only [Pseudo.wf, List.length_replicate] <;> decide
theorem test_pseudo_accepted : (Pseudo.rotl 1 0 8 8 2).wf = true ∧ (Pseudo.rotr 1 0 0 8 2).wf = true := by decide

/-! ### One command each (L1, L2.2 - L2.10) -/

/-- L2.2, rows 1 and 2: the same bytes in either order. -/
theorem test_load_orders :
    after (.load 4 false .big) { st 2 12 0 [] with stage := [(0, 0xAB), (1, 0xCD)] }
      (fun t => ((t.poly 4).val, (t.poly 4).len)) = some (0xBCD, 2) ∧
    after (.load 4 false .little) { st 2 12 0 [] with stage := [(0, 0xAB), (1, 0xCD)] }
      (fun t => ((t.poly 4).val, (t.poly 4).len)) = some (0xDAB, 2) := by decide

/-- L2.2, row 5: a declared width above the buffer is stored without error. -/
theorem test_load_overwide :
    after (.load 6 false .big) { st 2 17 0 [] with stage := [(0, 1), (1, 2)] }
      (fun t => (errOf t, (t.poly 6).width, (t.poly 6).len)) = some ((false, 0), 17, 2) := by decide

/-- L1.9: exactly two bytes are taken, most significant first. -/
theorem test_rand_big :
    after (.rand 2 .big) { st 0 12 0 [] with received := [0xAB, 0xCD] }
      (fun t => ((t.poly 2).val, (t.poly 2).len, bytesOf t 2)) = some (0xBCD, 2, [some 0xAB, some 0xCD]) := by decide

/-- L2.2: RAND of width 257 raises InvalidWidth and requests no byte. -/
theorem test_rand_tooWide :
    after (.rand 2 .big) (st 0 257 0 []) errOf = some (true, 4) ∧
      (busyWith 0x02200000 (st 0 257 0 [])).bsReq = false := by decide

/-- L2.2: the padding bit comes back as loaded. -/
theorem test_store_padding :
    after (.store 0) (st 0 0 0 [(0, reg .big [0xFF] 7)]) (fun t => (t.stage, t.res0)) = some ([(0, 0xFF)], 1) := by decide

/-- L2.2: STORE of an over-wide register. -/
theorem test_store_overwide :
    after (.store 1) (st 0 0 0 [(1, reg .little [1, 2] 40)]) (fun t => (errOf t, t.errCmd)) =
      some ((true, 4), 0x03010000) := by decide

/-- L2.2: INFO of the same register and of a reset one. -/
theorem test_info :
    after (.info 1) (st 0 0 0 [(1, reg .little [1, 2] 40)]) (fun t => (t.res0, t.res1)) = some (0x28, 0xC0000002) ∧
    after (.info 9) (st 0 0 0 []) (fun t => (t.res0, t.res1, t.err)) = some (0, 0, false) := by decide

/-- L2.3: coefficients 13 and 0 of 0x35B0. -/
theorem test_get_big :
    after (.get 0) (st 13 0 0 [(0, p35)]) State.res0 = some 1 ∧
    after (.get 0) (st 0 0 0 [(0, p35)]) State.res0 = some 0 := by decide

/-- L1.7: get(bits) and get(-1). -/
theorem test_get_outOfRange :
    after (.get 0) (st 8 0 0 [(0, pA5)]) (fun t => (errOf t, t.errCmd)) = some ((true, 1), 0x10000000) ∧
    after (.get 0) (st 0xFFFFFFFF 0 0 [(0, pA5)]) errOf = some (true, 1) := by decide

/-- L2.3: SET of coefficient 13 in BIG order writes byte 0. -/
theorem test_set_big :
    after (.set 0) (st 13 0 0 [(0, p35)]) (fun t => bytesOf t 0) = some [some 0x15, some 0xB0] := by decide

/-- L2.3: beyond the width nothing happens; the value is checked before the index. -/
theorem test_set_corners :
    after (.set 0) (st 7 0 0 [(0, reg .big [0xFF] 7)]) (fun t => (t.err, bytesOf t 0)) = some (false, [some 0xFF]) ∧
    after (.set 0) (st 0xFFFFFFFF 2 0 [(0, pA5)]) errOf = some (true, 3) := by decide

/-- L2.4: indices 1, 3, 5, 7, and a BIG slice of 10 coefficients. -/
theorem test_slice :
    after (.slice 1 0) (st 1 8 2 [(0, pA5)]) (fun t => ((t.poly 1).val, (t.poly 1).width)) = some (0xC, 4) ∧
    after (.slice 1 0) (st 4 14 1 [(0, p35)]) (fun t => bytesOf t 1) = some [some 0x03, some 0x5B] := by decide

/-- L2.4: an empty range, and a step of -1. -/
theorem test_slice_ranges :
    after (.slice 1 0) (st 5 2 1 [(0, pA5)]) (fun t => (t.err, (t.poly 1).width, (t.poly 1).len)) = some (false, 0, 0) ∧
    after (.slice 1 0) (st 0 4 0xFFFFFFFF [(0, pA5)]) errOf = some (true, 1) := by decide

/-- L2.5: positions 1, 3, 5, 7 get 1, 1, 0, 0; the receiver is its own value. -/
theorem test_setr :
    after (.setr 0 1) (st 1 8 2 [(0, pA5), (1, reg .little [0x03] 4)]) (fun t => bytesOf t 0) = some [some 0x0F] ∧
    after (.setr 0 0) (st 0 8 1 [(0, pA5)]) (fun t => bytesOf t 0) = some [some 0xA5] := by decide

/-- L2.5: the size is checked last. -/
theorem test_setr_errors :
    after (.setr 0 1) (st 0 6 1 [(0, pA5), (1, reg .little [0x03] 4)]) errOf = some (true, 2) ∧
    after (.setr 0 1) (st 1 8 0 [(0, pA5), (1, reg .little [0x03] 3)]) errOf = some (true, 1) ∧
    after (.setr 0 1) (st 1 8 2 [(0, pA5), (1, reg .big [0x03] 4)]) errOf = some (true, 3) := by decide

/-- L2.6, row 2, and a source that is the destination. -/
theorem test_xor :
    after (.xor 2 0 1) (st 0 0 0 [(0, p35), (1, p13)]) (fun t => ((t.poly 2).width, bytesOf t 2)) =
      some (14, [some 0x35, some 0xA3]) ∧
    after (.xor 0 0 0) (st 0 0 0 [(0, p35)]) (fun t => bytesOf t 0) = some [some 0, some 0] := by decide

/-- L2.6: every validity before any width. -/
theorem test_xor_priority :
    after (.xor 2 0 7) (st 0 0 0 [(0, reg .big [0x35] 9)]) errOf = some (true, 3) ∧
    after (.xor 2 0 1) (st 0 0 0 [(0, reg .big [0x35] 9), (1, p13)]) errOf = some (true, 4) := by decide

/-- L2.7: the shift across a byte boundary in each order; padding is normalised. -/
theorem test_shl :
    after (.shl 2 1) (st 9 0 0 [(1, p13)]) (fun t => ((t.poly 2).width, bytesOf t 2)) = some (14, [some 0x26, some 0]) ∧
    after (.shl 2 1) (st 6 0 0 [(1, reg .little [0x05] 3)]) (fun t => bytesOf t 2) = some [some 0x40, some 0x01] ∧
    after (.shl 2 1) (st 0 0 0 [(1, reg .big [0xFF] 7)]) (fun t => bytesOf t 2) = some [some 0x7F] := by decide

/-- L2.7: the amount is unsigned and nothing wraps. -/
theorem test_shl_tooFar :
    after (.shl 2 1) (st 249 0 0 [(1, reg .big [0xFF] 8)]) errOf = some (true, 4) ∧
    after (.shl 2 1) (st 0xFFFFFFFF 0 0 [(1, reg .big [0xFF] 8)]) errOf = some (true, 4) := by decide

/-- L1.4: shift-and-XOR, not integer multiplication; L2.8, row 2. -/
theorem test_mul :
    after (.mul 2 0 1) (st 0 0 0 [(0, reg .big [0x0D] 4), (1, reg .big [0x0B] 4)])
      (fun t => ((t.poly 2).width, (t.poly 2).val)) = some (7, 0x7F) ∧
    after (.mul 2 2 2) (st 0 0 0 [(2, reg .big [0x05] 3)])
      (fun t => ((t.poly 2).width, (t.poly 2).val)) = some (5, 0x11) := by decide

/-- L2.8: the width never falls below 1. -/
theorem test_mul_floor :
    after (.mul 2 0 1) (st 0 0 0 [(0, reg .big [0x01] 1), (1, reg .big [] 0)])
      (fun t => ((t.poly 2).width, (t.poly 2).len, (t.poly 2).val)) = some (1, 1, 0) := by decide

/-- L2.9. -/
theorem test_muls :
    after (.muls 1 0) (st 0 0 0 [(0, pA5)]) (fun t => ((t.poly 1).width, (t.poly 1).val)) = some (8, 0) ∧
    after (.muls 1 0) (st 1 0 0 [(0, reg .big [0xFF] 7)]) (fun t => bytesOf t 1) = some [some 0x7F] ∧
    after (.muls 1 0) (st 2 0 0 [(0, pA5)]) errOf = some (true, 3) := by decide

/-- L1.5: highest set bits 5 and 5, then 5 and 6. -/
theorem test_divt :
    after (.divt 0 1) (st 0 0 0 [(0, reg .big [0x20] 8), (1, reg .big [0x21] 8)]) (fun t => (t.flag, t.res0)) =
      some (true, 1) ∧
    after (.divt 0 1) (st 0 0 0 [(0, reg .big [0x20] 8), (1, reg .big [0x40] 8)]) (fun t => (t.flag, t.res0)) =
      some (false, 0) := by decide

/-- L2.10: an all-zero divisor divides; the widths do not matter. -/
theorem test_divt_zero :
    after (.divt 0 1) (st 0 0 0 [(0, reg .big [0x00] 8), (1, reg .big [0x00] 8)]) State.flag = some true ∧
    after (.divt 0 1) (st 0 0 0 [(0, reg .big [0x00, 0x01] 16), (1, reg .big [0x03] 2)]) State.flag = some false := by
  decide

/-! ### The host window (L2.11) -/

theorem test_read_id_param : (State.reset.access (r32 0x028)).response = some (.readDone 0x47463250) ∧
    (State.reset.access (r32 0x02C)).response = some (.readDone 0x00100020) := by decide

theorem test_stage_lanes :
    ((State.reset.access (w32 0x800 0x0000B035)).access ⟨false, 0x800, .byte, 0⟩).response = some (.readDone 0x35) ∧
    ((State.reset.access (w32 0x800 0x0000B035)).access ⟨false, 0x801, .byte, 0⟩).response = some (.readDone 0xB0) ∧
    ((State.reset.access (w32 0x800 0x0000B035)).access ⟨false, 0x802, .half, 0⟩).response = some (.readDone 0) := by
  decide

theorem test_bus_errors : (State.reset.access ⟨false, 0x801, .half, 0⟩).response = some (.busError 0) ∧
    (State.reset.access ⟨false, 0x004, .byte, 0⟩).response = some (.busError 0) ∧
    (State.reset.access ⟨false, 0x006, .word, 0⟩).response = some (.busError 0) ∧
    (State.reset.access ⟨false, 0x820, .half, 0⟩).response = some (.readDone 0) := by decide

/-- CAPB = 30: the two upper bytes lie beyond STAGE. -/
theorem test_stage_edge :
    (({ State.reset with cfg := ⟨30⟩ } : State).access (w32 0x81C 0x44332211)).stage = [(28, 0x11), (29, 0x22)] ∧
    ((({ State.reset with cfg := ⟨30⟩ } : State).access (w32 0x81C 0x44332211)).access (r32 0x81C)).response =
      some (.readDone 0x00002211) := by decide

/-- An illegal word raises error 5; the CMD write after it is dropped; only bit 1 of STATUS clears ERR. -/
theorem test_error_record :
    (next? (issue (w32 0x000 0x05000000) { State.reset with flag := true })).map
      (fun t => (t.statusWord, t.errCodeWord, t.errCmd)) = some (6, 5, 0x05000000) ∧
    (next? (issue (w32 0x000 0x01000002) (hst (r32 0) .idle true))).map (fun t => (t.poly 0).valid) = some false ∧
    ((hst (r32 0) .idle true).access (w32 0x004 1)).err = true ∧
    ((hst (r32 0) .idle true).access (w32 0x004 2)).err = false := by decide

/-- A STATUS read of a busy unit, and any other access, which is held. -/
theorem test_interlock :
    (next? (step { hst (r32 0x004) (.busy 0x04000000) false with flag := true })).map State.response =
      some (some (.readDone 5)) ∧
    (next? (step (hst (r32 0x020) (.busy 0x04000000) false))).map (fun t => (t.response, t.held, t.host.length)) =
      some (none, true, 1) := by decide

/-- A RAND asks for a byte, takes it when it comes, and is stuck when none can come. -/
theorem test_rand_waits :
    (next? (step { busyWith 0x02200000 (st 0 12 0 []) with turns := [.byte 0xAB] })).map State.received =
      some [0xAB] ∧
    step { busyWith 0x02200000 (st 0 12 0 []) with turns := [] } = .fault .byteSourceSilent :=
  ⟨by decide, rfl⟩

/-- R66: MOV is SHL by 0; a negative immediate is its two's complement. -/
theorem test_expand : (Pseudo.mov 1 0).expand = [w32 0x010 0, w32 0x000 0x21100000] ∧
    (Pseudo.geti 0 (-1)).expand = [w32 0x010 0xFFFFFFFF, w32 0x000 0x10000000] ∧
    (Pseudo.sub 2 0 1).expand = [w32 0x000 0x20201000] := by decide

/-- Every row of the table runs as the first command after reset. -/
theorem test_first_command : ∀ r ∈ opcodeRows,
    (next? (step (State.reset.withFetchWord 32 r.pattern.toNat))).isSome = true := by decide

/-! ### Witnesses: states and operands that meet the hypotheses of each obligation, clause by clause -/

theorem readable (p : PolyReg) (h : p.valid && p.widthOk = true) : p.Readable :=
  (readable_iff p).mpr (by simpa using h)

theorem inRange (s : State) (w : Nat) (h : decide (0 ≤ s.arg0.toInt ∧ s.arg0.toInt < w ∧ 0 ≤ s.arg1.toInt ∧
    s.arg1.toInt ≤ w ∧ 1 ≤ s.arg2.toInt) = true) : s.InRange w := by
  simpa [State.InRange] using h

theorem seqHas (s : State) (w m : Nat) (h : s.InRange w) (hm : s.positions.length = m) : s.SeqHas m :=
  hm ▸ seqHas_length h

/-- A register after reset meets the register invariant. -/
theorem resetReg_inv : PolyReg.reset.Inv 32 :=
  ⟨by decide, ⟨by decide, by decide⟩, by decide, fun _ => rfl⟩

theorem p35_inv : p35.Inv 32 := ⟨by decide, ⟨by decide, by decide⟩, by decide, by decide⟩

/-- A state with P0 = 0x35B0 in 14 bits, arguments 3, 11, 1 and the phase, host and turns given, meets the invariant. -/
theorem loaded_inv (ph : Phase) (hs : List Access) (ts : List Turn) :
    State.Inv { st 3 11 1 [(0, p35)] with phase := ph, host := hs, turns := ts } where
  cfg := by show Config.Legal ⟨32⟩; decide
  polys := by
    intro r
    show ((State.setPoly _ 0 p35).poly r).Inv 32
    rw [State.setPoly_poly]
    split_ifs
    · exact p35_inv
    · exact (State.reset_poly r) ▸ resetReg_inv
  stage := ⟨List.Pairwise.nil, fun _ h => nomatch h⟩
  noErr := fun _ => rfl
  errCode := by show (0 : BitVec 4).toNat ≤ 5; decide
  errCoded := fun h => nomatch h
  res1 := by show (0 : Word).extractLsb' 12 18 = 0; decide
  progress := .inl rfl
  held := fun h => nomatch h

theorem witness_EncodeInvertsDecode : decode 0x20FED000 = .ok (.xor 15 14 13) := by decide

theorem witness_LegalWordsAreThoseOfTheTable :
    let s := busyWith 0x20000004 State.reset
    s.phase = .busy 0x20000004 ∧ s.turns = .unit :: [] ∧
      ¬ ∃ r ∈ opcodeRows, (0x20000004 : Word) &&& r.mask = r.pattern := by decide

theorem witness_EachWordHasOneRow :
    opcodeRows[8].selects 0x20FED000 = true ∧ opcodeRows[8] ∈ opcodeRows := ⟨by decide, List.getElem_mem _⟩

theorem witness_WorkedEncodings : (busyWith 0x24100000 State.reset).phase = .busy 0x24100000 := rfl

theorem witness_LayoutPlacesCoefficients : 13 < p35.width ∧ 0 < p35.width ∧ 255 < 256 := by decide

theorem witness_StepRunsTheDecodedCommand :
    decode 0x10000000 = .ok (.get 0) ∧
    ((busyWith 0x10000000 (st 0 0 0 [(0, pA5)])).phase = .busy 0x10000000 ∧
      (busyWith 0x10000000 (st 0 0 0 [(0, pA5)])).turns = [.unit]) ∧
    (({ busyWith 0x10000000 (st 0 0 0 [(0, pA5)]) with turns := [] } : State).turns = [] ∧
      ({ busyWith 0x10000000 (st 0 0 0 [(0, pA5)]) with turns := [] } : State).bsReq = false) :=
  ⟨by decide, ⟨rfl, rfl⟩, rfl, by decide⟩

theorem witness_AnErrorChangesOnlyTheErrorRecord :
    let s := busyWith 0x10000000 (st 8 0 0 [(0, pA5)])
    s.turns = .unit :: [] ∧ s.err = false ∧ ∃ t, step s = .next t ∧ t.err = true :=
  ⟨rfl, rfl, _, rfl, by decide⟩

theorem witness_LoadConstructsFromStage :
    (st 33 8 0 []).cfg.Legal ∧ (st 33 8 0 []).arg0.toNat > (st 33 8 0 []).cfg.capb ∧
    (st 32 256 0 []).arg0.toNat ≤ (st 32 256 0 []).cfg.capb ∧
    (∃ k b, k < (({ st 2 12 0 [] with stage := [(0, 0xAB)] } : State)).arg0.toNat ∧
      (({ st 2 12 0 [] with stage := [(0, 0xAB)] } : State)).stage.read? k = some b) :=
  ⟨by decide, by decide, by decide, 0, 0xAB, by decide, by decide⟩

theorem witness_UnwrittenStageBytesAreFreeValues :
    ((st 2 12 0 []).arg0.toNat ≤ (st 2 12 0 []).cfg.capb ∧ 1 < (st 2 12 0 []).arg0.toNat ∧
      (st 2 12 0 []).stage.read? 1 = none) ∧
    (let s := hst ⟨false, 0x81F, .byte, 0⟩ .idle false
     s.phase = .idle ∧ 0x800 ≤ (0x81F : BitVec 12).toNat ∧ (0x81F : BitVec 12).toNat - 0x800 < s.cfg.capb ∧
       s.hostIsNext ⟨false, 0x81F, .byte, 0⟩ [] [] ∧ s.stage.read? ((0x81F : BitVec 12).toNat - 0x800) = none) :=
  ⟨by decide, rfl, by decide, by decide, ⟨rfl, rfl⟩, rfl⟩

theorem witness_RandConstructsFromTheByteSource :
    (st 0 257 0 []).arg1.toNat > 8 * (st 0 257 0 []).cfg.capb ∧
    (let s := busyWith 0x02200000 { st 0 12 0 [] with received := [0xAB] }
     s.arg1.toNat ≤ 8 * s.cfg.capb ∧ s.received.length < ceil8 s.arg1.toNat ∧
       s.phase = .busy (encode (.rand 2 .big))) ∧
    (let s := ({ st 0 12 0 [] with received := [0xAB, 0xCD] } : State)
     s.arg1.toNat ≤ 8 * s.cfg.capb ∧ ceil8 s.arg1.toNat ≤ s.received.length) ∧
    (st 0 256 0 []).arg1.toNat ≤ 8 * (st 0 256 0 []).cfg.capb := by decide

theorem witness_RandEndsWithItsLastByte :
    let s := ({ st 0 12 0 [] with phase := .busy 0x02200001, turns := [.byte 0xAB, .byte 0xCD, .unit] } : State)
    s.phase = .busy (encode (.rand 2 .little)) ∧ s.received = [] ∧ s.arg1.toNat ≤ 8 * s.cfg.capb ∧
      [0xAB, 0xCD].length = ceil8 s.arg1.toNat ∧ s.turns = List.map .byte [0xAB, 0xCD] ++ .unit :: [] := by decide

theorem witness_StoreCopiesBytesToStage :
    ((st 0 0 0 []).poly 9).valid = false ∧
    (((st 0 0 0 [(1, pOver)]).poly 1).valid = true ∧
      ((st 0 0 0 [(1, pOver)]).poly 1).width > 8 * ((st 0 0 0 [(1, pOver)]).poly 1).len) ∧
    ((st 0 0 0 [(0, reg .big [1, 2] 16)]).poly 0).Readable :=
  ⟨by decide, by decide, readable _ (by decide)⟩

theorem witness_GetReadsOneCoefficient :
    ((st 0 0 0 []).poly 0).valid = false ∧
    (((st 0 0 0 [(0, pOver)]).poly 0).valid = true ∧
      ((st 0 0 0 [(0, pOver)]).poly 0).width > 8 * ((st 0 0 0 [(0, pOver)]).poly 0).len) ∧
    (((st 8 0 0 [(0, pA5)]).poly 0).Readable ∧ (st 8 0 0 [(0, pA5)]).arg0.toInt ≥ ((st 8 0 0 [(0, pA5)]).poly 0).width) ∧
    (((st (-1) 0 0 [(0, pA5)]).poly 0).Readable ∧ (st (-1) 0 0 [(0, pA5)]).arg0.toInt < 0) ∧
    (((st 7 0 0 [(0, pA5)]).poly 0).Readable ∧ 0 ≤ (st 7 0 0 [(0, pA5)]).arg0.toInt ∧
      (st 7 0 0 [(0, pA5)]).arg0.toInt < ((st 7 0 0 [(0, pA5)]).poly 0).width) :=
  ⟨by decide, by decide, ⟨readable _ (by decide), by decide⟩, ⟨readable _ (by decide), by decide⟩,
    readable _ (by decide), by decide⟩

theorem witness_SetWritesOneCoefficient :
    ((st 0 0 0 []).poly 0).valid = false ∧
    (((st 0 0 0 [(0, pOver)]).poly 0).valid = true ∧
      ((st 0 0 0 [(0, pOver)]).poly 0).width > 8 * ((st 0 0 0 [(0, pOver)]).poly 0).len) ∧
    (((st 0 2 0 [(0, pA5)]).poly 0).Readable ∧ (st 0 2 0 [(0, pA5)]).arg1.toNat > 1) ∧
    (((st (-1) 1 0 [(0, pA5)]).poly 0).Readable ∧ (st (-1) 1 0 [(0, pA5)]).arg1.toNat ≤ 1 ∧
      (st (-1) 1 0 [(0, pA5)]).arg0.toInt < 0) ∧
    (((st 8 1 0 [(0, pA5)]).poly 0).Readable ∧ (st 8 1 0 [(0, pA5)]).arg1.toNat ≤ 1 ∧
      (st 8 1 0 [(0, pA5)]).arg0.toInt ≥ ((st 8 1 0 [(0, pA5)]).poly 0).width) ∧
    (((st 7 1 0 [(0, pA5)]).poly 0).Readable ∧ (st 7 1 0 [(0, pA5)]).arg1.toNat ≤ 1 ∧
      0 ≤ (st 7 1 0 [(0, pA5)]).arg0.toInt ∧ (st 7 1 0 [(0, pA5)]).arg0.toInt < ((st 7 1 0 [(0, pA5)]).poly 0).width) :=
  ⟨by decide, by decide, ⟨readable _ (by decide), by decide⟩, ⟨readable _ (by decide), by decide⟩,
    ⟨readable _ (by decide), by decide⟩, readable _ (by decide), by decide⟩

theorem witness_SliceExtractsACondensedPolynomial :
    ((st 0 8 1 []).poly 0).valid = false ∧
    (((st 0 8 1 [(0, pOver)]).poly 0).valid = true ∧
      ((st 0 8 1 [(0, pOver)]).poly 0).width > 8 * ((st 0 8 1 [(0, pOver)]).poly 0).len) ∧
    (((st 8 8 1 [(0, pA5)]).poly 0).Readable ∧ ¬ (st 8 8 1 [(0, pA5)]).InRange ((st 8 8 1 [(0, pA5)]).poly 0).width) ∧
    (((st 7 8 1 [(0, pA5)]).poly 0).Readable ∧ (st 7 8 1 [(0, pA5)]).InRange ((st 7 8 1 [(0, pA5)]).poly 0).width) :=
  ⟨by decide, by decide, ⟨readable _ (by decide), fun h => absurd h.2.1 (by decide)⟩,
    readable _ (by decide), inRange _ _ (by decide)⟩

/-- The receiver and the value of L2.5. -/
def setrSt (a0 a1 a2 : Word) (value : PolyReg) : State := st a0 a1 a2 [(0, pA5), (1, value)]

theorem witness_SetrScattersAPolynomial :
    ((st 0 8 1 [(0, pA5)]).poly 1).valid = false ∧
    (((setrSt 0 8 1 pOver).poly 1).valid = true ∧ ((setrSt 0 8 1 pOver).poly 0).valid = true ∧
      ((setrSt 0 8 1 pOver).poly 1).width > 8 * ((setrSt 0 8 1 pOver).poly 1).len) ∧
    (((setrSt 1 8 2 p13).poly 1).Readable ∧ ((setrSt 1 8 2 p13).poly 0).Readable ∧
      ((setrSt 1 8 2 p13).poly 1).order ≠ ((setrSt 1 8 2 p13).poly 0).order) ∧
    (let s := setrSt 1 8 0 (reg .little [3] 4)
     (s.poly 1).Readable ∧ (s.poly 0).Readable ∧ (s.poly 1).order = (s.poly 0).order ∧ ¬ s.InRange (s.poly 0).width) ∧
    (let s := setrSt 0 6 1 (reg .little [3] 4)
     (s.poly 1).Readable ∧ (s.poly 0).Readable ∧ (s.poly 1).order = (s.poly 0).order ∧ s.InRange (s.poly 0).width ∧
       s.SeqHas 6 ∧ (s.poly 1).width ≠ 6) ∧
    (let s := setrSt 1 8 2 (reg .little [3] 4)
     (s.poly 1).Readable ∧ (s.poly 0).Readable ∧ (s.poly 1).order = (s.poly 0).order ∧ s.InRange (s.poly 0).width ∧
       s.SeqHas 4 ∧ (s.poly 1).width = 4) :=
  ⟨by decide, by decide, ⟨readable _ (by decide), readable _ (by decide), by decide⟩,
    ⟨readable _ (by decide), readable _ (by decide), by decide, fun h => absurd h.2.2.2.2 (by decide)⟩,
    ⟨readable _ (by decide), readable _ (by decide), by decide, inRange _ _ (by decide),
      seqHas _ 8 _ (inRange _ _ (by decide)) (by decide), by decide⟩,
    readable _ (by decide), readable _ (by decide), by decide, inRange _ _ (by decide),
      seqHas _ 8 _ (inRange _ _ (by decide)) (by decide), by decide⟩

theorem witness_SliceScatterRoundTrip :
    (st 3 11 1 [(0, p35)]).Inv ∧ (1 : Reg) ≠ 0 ∧ ((st 3 11 1 [(0, p35)]).poly 0).Readable ∧
      (st 3 11 1 [(0, p35)]).err = false ∧ (st 3 11 1 [(0, p35)]).InRange ((st 3 11 1 [(0, p35)]).poly 0).width :=
  ⟨loaded_inv .idle [] [], by decide, readable _ (by decide), rfl, inRange _ _ (by decide)⟩

/-- Two operands P0 and P1, and ARG0. -/
def two (a0 : Word) (p q : PolyReg) : State := st a0 0 0 [(0, p), (1, q)]

theorem witness_XorAddsCoefficientwise :
    ((st 0 0 0 [(0, p35)]).poly 1).valid = false ∧
    (((two 0 p35 pOver).poly 0).valid = true ∧ ((two 0 p35 pOver).poly 1).valid = true ∧
      ((two 0 p35 pOver).poly 1).width > 8 * ((two 0 p35 pOver).poly 1).len) ∧
    (((two 0 p35 pA5).poly 0).Readable ∧ ((two 0 p35 pA5).poly 1).Readable ∧
      ((two 0 p35 pA5).poly 0).order ≠ ((two 0 p35 pA5).poly 1).order) ∧
    (((two 0 p35 p13).poly 0).Readable ∧ ((two 0 p35 p13).poly 1).Readable ∧
      ((two 0 p35 p13).poly 0).order = ((two 0 p35 p13).poly 1).order) :=
  ⟨by decide, by decide, ⟨readable _ (by decide), readable _ (by decide), by decide⟩,
    readable _ (by decide), readable _ (by decide), by decide⟩

theorem witness_ShlMultipliesByAPower :
    ((st 0 0 0 []).cfg.Legal ∧ ((st 0 0 0 []).poly 1).valid = false) ∧
    (((st 0 0 0 [(1, pOver)]).poly 1).valid = true ∧
      ((st 0 0 0 [(1, pOver)]).poly 1).width > 8 * ((st 0 0 0 [(1, pOver)]).poly 1).len) ∧
    (((st 249 0 0 [(1, pA5)]).poly 1).Readable ∧
      ((st 249 0 0 [(1, pA5)]).poly 1).width + (st 249 0 0 [(1, pA5)]).arg0.toNat > 8 * (st 249 0 0 [(1, pA5)]).cfg.capb) ∧
    (((st 248 0 0 [(1, pA5)]).poly 1).Readable ∧
      ((st 248 0 0 [(1, pA5)]).poly 1).width + (st 248 0 0 [(1, pA5)]).arg0.toNat ≤ 8 * (st 248 0 0 [(1, pA5)]).cfg.capb) :=
  ⟨by decide, by decide, ⟨readable _ (by decide), by decide⟩, readable _ (by decide), by decide⟩

/-- Two one-byte LITTLE registers of the widths given, in a unit with CAPB = 1. -/
def narrow (w v : Word) : State := { two 0 (reg .little [0xFF] w) (reg .little [0xFF] v) with cfg := ⟨1⟩ }

theorem witness_MulIsTheCarrylessProduct :
    ((st 0 0 0 []).cfg.Legal ∧ ((st 0 0 0 []).poly 0).valid = false) ∧
    (((two 0 p35 pOver).poly 0).valid = true ∧ ((two 0 p35 pOver).poly 1).valid = true ∧
      ((two 0 p35 pOver).poly 1).width > 8 * ((two 0 p35 pOver).poly 1).len) ∧
    (((two 0 p35 pA5).poly 0).Readable ∧ ((two 0 p35 pA5).poly 1).Readable ∧
      ((two 0 p35 pA5).poly 0).order ≠ ((two 0 p35 pA5).poly 1).order) ∧
    (let s := narrow 5 4
     (s.poly 0).Readable ∧ (s.poly 1).Readable ∧ (s.poly 0).order = (s.poly 1).order ∧
       max 1 ((s.poly 0).width + (s.poly 1).width - 1) ≤ 8 * s.cfg.capb) ∧
    (let s := narrow 5 5
     (s.poly 0).Readable ∧ (s.poly 1).Readable ∧ (s.poly 0).order = (s.poly 1).order ∧
       max 1 ((s.poly 0).width + (s.poly 1).width - 1) > 8 * s.cfg.capb) :=
  ⟨by decide, by decide, ⟨readable _ (by decide), readable _ (by decide), by decide⟩,
    ⟨readable _ (by decide), readable _ (by decide), by decide, by decide⟩,
    readable _ (by decide), readable _ (by decide), by decide, by decide⟩

theorem witness_MulsMultipliesByOneBit :
    ((st 0 0 0 []).poly 0).valid = false ∧
    (((st 0 0 0 [(0, pOver)]).poly 0).valid = true ∧
      ((st 0 0 0 [(0, pOver)]).poly 0).width > 8 * ((st 0 0 0 [(0, pOver)]).poly 0).len) ∧
    (((st 2 0 0 [(0, pA5)]).poly 0).Readable ∧ (st 2 0 0 [(0, pA5)]).arg0.toNat > 1) ∧
    (((st 1 0 0 [(0, pA5)]).poly 0).Readable ∧ (st 1 0 0 [(0, pA5)]).arg0.toNat ≤ 1) :=
  ⟨by decide, by decide, ⟨readable _ (by decide), by decide⟩, readable _ (by decide), by decide⟩

theorem witness_DivtComparesHighestBits :
    ((st 0 0 0 [(0, p35)]).poly 1).valid = false ∧
    (((two 0 pOver p35).poly 0).valid = true ∧ ((two 0 pOver p35).poly 1).valid = true ∧
      ((two 0 pOver p35).poly 0).width > 8 * ((two 0 pOver p35).poly 0).len) ∧
    (((two 0 p35 pA5).poly 0).Readable ∧ ((two 0 p35 pA5).poly 1).Readable ∧
      ((two 0 p35 pA5).poly 0).order ≠ ((two 0 p35 pA5).poly 1).order) ∧
    (((two 0 p35 p13).poly 0).Readable ∧ ((two 0 p35 p13).poly 1).Readable ∧
      ((two 0 p35 p13).poly 0).order = ((two 0 p35 p13).poly 1).order) :=
  ⟨by decide, by decide, ⟨readable _ (by decide), readable _ (by decide), by decide⟩,
    readable _ (by decide), readable _ (by decide), by decide⟩

theorem witness_HighestSetBit : (∃ i, i < pA5.width ∧ pA5.coef i = true) ∧
    (∀ i, i < (reg .big [0] 8).width → (reg .big [0] 8).coef i = false) := ⟨⟨7, by decide⟩, by decide⟩

theorem witness_CommandsComputeInTheRingOfPolynomials :
    (∃ poly : PolyReg → Polynomial (ZMod 2),
      ∀ p, poly p = (Finset.range p.width).sum (fun i => if p.coef i then Polynomial.X ^ i else 0)) ∧
    ((two 1 p35 p13).cfg.Legal ∧ (two 1 p35 p13).err = false) ∧
    (∃ t, exec (.xor 2 0 1) (two 1 p35 p13) = .next t ∧ t.err = false) ∧
    (∃ t, exec (.shl 2 0) (two 1 p35 p13) = .next t ∧ t.err = false) ∧
    (∃ t, exec (.muls 2 0) (two 1 p35 p13) = .next t ∧ t.err = false) ∧
    (∃ t, exec (.mul 2 0 1) (two 1 p35 p13) = .next t ∧ t.err = false) :=
  ⟨⟨_, fun _ => rfl⟩, by decide, ⟨_, rfl, by decide⟩, ⟨_, rfl, by decide⟩, ⟨_, rfl, by decide⟩, _, rfl, by decide⟩

theorem witness_XorIsItsOwnInverse :
    (2 : Reg) ≠ 1 ∧ (two 0 p13 p35).err = false ∧ ((two 0 p13 p35).poly 0).Readable ∧
      ((two 0 p13 p35).poly 1).Readable ∧ ((two 0 p13 p35).poly 0).order = ((two 0 p13 p35).poly 1).order :=
  ⟨by decide, rfl, readable _ (by decide), readable _ (by decide), by decide⟩

theorem witness_RotlExpansionRotates :
    let s := st 0 0 0 [(0, pA5)]
    s.cfg.Legal ∧ s.phase = .idle ∧ s.err = false ∧ (s.poly 0).Readable ∧ (s.poly 0).width = 8 ∧
      (Pseudo.rotl 0 0 8 8 2).wf = true ∧ (Pseudo.rotl 1 0 1 8 0).wf = true ∧ 8 + 8 ≤ 8 * s.cfg.capb :=
  ⟨by decide, rfl, rfl, readable _ (by decide), by decide, by decide, by decide, by decide⟩

theorem witness_LongDivisionLeavesTheRemainder :
    (∃ poly : PolyReg → Polynomial (ZMod 2),
      ∀ p, poly p = (Finset.range p.width).sum (fun i => if p.coef i then Polynomial.X ^ i else 0)) ∧
    let s := two 0 p35 p13
    s.cfg.Legal ∧ s.phase = .idle ∧ s.err = false ∧ ([0, 1, 2, 3] : List Reg).Nodup ∧ (s.poly 0).Readable ∧
      (s.poly 1).Readable ∧ (s.poly 0).order = (s.poly 1).order ∧ (s.poly 0).width ≤ 8 * s.cfg.capb ∧
      2 ≤ (s.poly 1).width ∧ (s.poly 1).width ≤ (s.poly 0).width ∧ (s.poly 1).coef ((s.poly 1).width - 1) = true :=
  ⟨⟨_, fun _ => rfl⟩, by decide, rfl, rfl, by decide, readable _ (by decide), readable _ (by decide), by decide,
    by decide, by decide, by decide, by decide⟩

theorem witness_EveryStepKeepsTheInvariant :
    ∃ s t : State, s.Inv ∧ step s = .next t :=
  ⟨_, _, loaded_inv (.busy 0x12100000) [] [.unit], rfl⟩

theorem witness_OnlyDivtWritesFlag :
    (∃ t, step (busyWith 0x24001000 (two 0 p35 p13)) = .next t ∧ t.flag ≠ false) ∧
    (∃ t, step { State.reset with flag := true, turns := [.reset false] } = .next t ∧ t.flag ≠ true) :=
  ⟨⟨_, rfl, by decide⟩, _, rfl, by decide⟩

theorem witness_OnlyTheHostWritesArguments :
    (∃ t, step (hst (w32 0x010 7) .idle false) = .next t ∧ t.arg0 ≠ (hst (w32 0x010 7) .idle false).arg0) ∧
    (∃ t, step (hst (w32 0x014 7) .idle false) = .next t ∧ t.arg1 ≠ (hst (w32 0x014 7) .idle false).arg1) ∧
    (∃ t, step (hst (w32 0x018 7) .idle false) = .next t ∧ t.arg2 ≠ (hst (w32 0x018 7) .idle false).arg2) ∧
    ((hst (w32 0x010 7) .idle false).phase = .idle ∧ (hst (w32 0x010 7) .idle false).hostIsNext (w32 0x010 7) [] []) ∧
    (hst (w32 0x014 7) .idle false).hostIsNext (w32 0x014 7) [] [] ∧
    (hst (w32 0x018 7) .idle false).hostIsNext (w32 0x018 7) [] [] ∧
    (hst (r32 0x010) .idle false).hostIsNext (r32 0x010) [] [] ∧
    (hst (r32 0x014) .idle false).hostIsNext (r32 0x014) [] [] ∧
    (hst (r32 0x018) .idle false).hostIsNext (r32 0x018) [] [] :=
  ⟨⟨_, rfl, by decide⟩, ⟨_, rfl, by decide⟩, ⟨_, rfl, by decide⟩, ⟨rfl, rfl, rfl⟩, ⟨rfl, rfl⟩, ⟨rfl, rfl⟩, ⟨rfl, rfl⟩,
    ⟨rfl, rfl⟩, ⟨rfl, rfl⟩⟩

theorem witness_ValidityFollowsConstruction :
    (∃ r ∈ operandsOf (.setr 0 1), ((st 0 0 0 [(0, pA5)]).poly r).valid = false) ∧
    (∃ t, exec (.info 9) (st 0 0 0 []) = .next t) ∧
    (∃ t, step (busyWith 0x01500002 (st 0 0 0 [])) = .next t ∧ ((st 0 0 0 []).poly 5).valid = false ∧
      (t.poly 5).valid = true) ∧
    (∃ t, exec (.slice 1 0) (busyWith 0x12100000 (st 0 8 1 [(0, pA5)])) = .next t ∧ t.phase = .idle ∧ t.err = false) ∧
    (∃ t, step { st 0 0 0 [(0, pA5)] with turns := [.reset true] } = .next t ∧ (t.poly 0).valid = false) :=
  ⟨⟨1, by decide, by decide⟩, ⟨_, rfl⟩, ⟨_, rfl, by decide, by decide⟩, ⟨_, rfl, rfl, rfl⟩, _, rfl, by decide⟩

theorem witness_OnlyReadingCommandsWriteResults :
    (∃ t, step (busyWith 0x10000000 (st 0 0 0 [(0, pA5)])) = .next t ∧ t.res0 ≠ 0) ∧
    (∃ t, step (busyWith 0x24000000 (st 0 0 0 [(0, pA5)])) = .next t ∧ t.res0 ≠ 0) ∧
    (∃ t, step (busyWith 0x03000000 (st 0 0 0 [(0, pA5)])) = .next t ∧ t.res0 ≠ 0) ∧
    (∃ t, step (busyWith 0x04000000 (st 0 0 0 [(0, pA5)])) = .next t ∧ t.res0 ≠ 0 ∧ t.res1 ≠ 0) ∧
    ((hst (r32 0x020) .idle false).phase = .idle ∧ (hst (r32 0x020) .idle false).hostIsNext (r32 0x020) [] []) ∧
    (hst (r32 0x024) .idle false).hostIsNext (r32 0x024) [] [] :=
  ⟨⟨_, rfl, by decide⟩, ⟨_, rfl, by decide⟩, ⟨_, rfl, by decide⟩, ⟨_, rfl, by decide, by decide⟩, ⟨rfl, rfl, rfl⟩,
    rfl, rfl⟩

theorem witness_OtherCommandsDoNotTouchStage :
    (∀ rd d o, Instr.get 0 ≠ .load rd d o) ∧ (∀ ra, Instr.get 0 ≠ .store ra) ∧
      ∃ t, exec (.get 0) (st 0 0 0 [(0, pA5)]) = .next t :=
  ⟨fun _ _ _ h => (nomatch h), fun _ h => (nomatch h), _, rfl⟩

/-- Two states that differ only in a byte beyond len. -/
theorem witness_BytesBeyondLenAreUnobservable :
    (st 0 0 0 [(0, pA5)]).SameSeen (st 0 0 0 [(0, { pA5 with data := [(0, 0xA5), (1, 0x77)] })]) ∧
      ∃ t, exec (.store 0) (st 0 0 0 [(0, pA5)]) = .next t := by
  refine ⟨⟨fun r => ?_, rfl⟩, _, rfl⟩
  show ((State.setPoly _ 0 pA5).poly r).SameSeen ((State.setPoly _ 0 _).poly r)
  rw [State.setPoly_poly, State.setPoly_poly]
  split_ifs
  · exact ⟨rfl, rfl, rfl, rfl, by decide⟩
  · exact ⟨rfl, rfl, rfl, rfl, fun _ _ => rfl⟩

theorem witness_OnlyASilentByteSourceStopsTheMachine :
    ({ busyWith 0x02200000 (st 0 12 0 []) with turns := [] } : State).turns = [] ∧
      ({ busyWith 0x02200000 (st 0 12 0 []) with turns := [] } : State).bsReq = true := ⟨rfl, by decide⟩

theorem witness_AWaitingRandStaysBusy :
    (busyWith 0x02200000 (st 0 1 0 [])).bsReq = true ∧ (busyWith 0x02200000 (st 0 1 0 [])).turns = [.unit] ∧
    ({ busyWith 0x02200000 (st 0 1 0 []) with turns := [.host] } : State).turns = [.host] ∧
    ({ busyWith 0x02200000 (st 0 1 0 []) with turns := [.byte 0x5A] } : State).turns = [.byte 0x5A] :=
  ⟨by decide, rfl, rfl, rfl⟩

theorem witness_NoByteTransfersUnrequested :
    ({ busyWith 0x02200000 (st 0 0 0 []) with turns := [.byte 0x5A] } : State).bsReq = false ∧
    ({ busyWith 0x02200000 (st 0 0 0 []) with turns := [.byte 0x5A] } : State).turns = [.byte 0x5A] :=
  ⟨by decide, rfl⟩

theorem witness_TheInterlockHoldsEveryAccessButAStatusRead :
    (let s := hst (r32 0x004) (.busy 0x10000000) false
     s.hostIsNext (r32 0x004) [] [] ∧ s.busy = true ∧ s.err = false ∧ (r32 0x004).we = false ∧
       (r32 0x004).off = 0x004 ∧ (r32 0x004).size = .word) ∧
    (let s := hst ⟨false, 0x004, .byte, 0⟩ (.busy 0x10000000) false
     s.hostIsNext ⟨false, 0x004, .byte, 0⟩ [] [] ∧ s.busy = true) ∧
    (let s := hst (w32 0x010 1) .idle false
     s.hostIsNext (w32 0x010 1) [] [] ∧ s.busy = false) :=
  ⟨⟨⟨rfl, rfl⟩, rfl, rfl, rfl, rfl, rfl⟩, ⟨⟨rfl, rfl⟩, rfl⟩, ⟨rfl, rfl⟩, rfl⟩

theorem witness_CommandAcceptance :
    (let s := hst (w32 0x000 0x10000000) .idle true
     s.hostIsNext (w32 0x000 0x10000000) [] [] ∧ s.phase = .idle ∧ s.err = true) ∧
    (let s := hst (w32 0x000 0x10000000) .idle false
     s.hostIsNext (w32 0x000 0x10000000) [] [] ∧ s.phase = .idle ∧ s.err = false) ∧
    (let s := hst (w32 0x000 0x10000000) (.busy 0x10000000) false
     s.hostIsNext (w32 0x000 0x10000000) [] [] ∧ s.busy = true) ∧
    ((busyWith 0x10000000 State.reset).phase = .busy 0x10000000 ∧ (busyWith 0x10000000 State.reset).turns = [.unit] ∧
      decode 0x10000000 = .ok (.get 0)) ∧
    decode 0x05000000 = .error .unassignedOpcode :=
  ⟨⟨⟨rfl, rfl⟩, rfl, rfl⟩, ⟨⟨rfl, rfl⟩, rfl, rfl⟩, ⟨⟨rfl, rfl⟩, rfl⟩, ⟨rfl, rfl, by decide⟩, by decide⟩

theorem witness_ClearingAnError :
    (let s := hst (w32 0x004 2) .idle true
     s.phase = .idle ∧ s.hostIsNext (w32 0x004 2) [] [] ∧ (2 : Word).getLsbD 1 = true) ∧
    (let s := hst (w32 0x000 0x10000000) .idle false
     s.phase = .idle ∧ s.err = false ∧ s.hostIsNext (w32 0x000 0x10000000) [] []) ∧
    (let s := hst (w32 0x004 2) .idle true
     s.phase = .idle ∧ s.err = true ∧ ¬ s.resetIsNext ∧ ∃ t, step s = .next t ∧ t.err = false) := by
  refine ⟨⟨rfl, ⟨rfl, rfl⟩, by decide⟩, ⟨rfl, rfl, rfl, rfl⟩, rfl, rfl, ?_, _, rfl, by decide⟩
  rintro ⟨p, ts, h⟩
  cases h

theorem witness_OtherStatusBitsIgnoreWrites :
    let s := hst (w32 0x004 0xFFFFFFFD) .idle true
    s.phase = .idle ∧ s.hostIsNext (w32 0x004 0xFFFFFFFD) [] [] ∧ (0xFFFFFFFD : Word).getLsbD 1 = false :=
  ⟨rfl, ⟨rfl, rfl⟩, by decide⟩

theorem witness_IllegalAccessesGetABusError :
    (∀ a ∈ ([⟨true, 0x010, .half, 0⟩, ⟨false, 0x7FF, .byte, 0⟩, ⟨false, 0x802, .word, 0⟩, ⟨false, 0xFFF, .half, 0⟩,
        ⟨true, 0x800, .reserved, 0⟩] : List Access),
      (hst a .idle false).phase = .idle ∧ (hst a .idle false).hostIsNext a [] [] ∧
      ¬ ((a.off < 0x800 ∧ a.size = .word ∧ a.off % 4 = 0) ∨ (0x800 ≤ a.off ∧
        (a.size = .byte ∨ (a.size = .half ∧ a.off % 2 = 0) ∨ (a.size = .word ∧ a.off % 4 = 0))))) ∧
    (let a : Access := ⟨false, 0x7FC, .word, 0⟩; a.off < 0x800 ∧ a.size = .word ∧ a.off % 4 = 0) ∧
    (let a : Access := ⟨true, 0xFFE, .half, 0⟩; 0x800 ≤ a.off ∧ a.size = .half ∧ a.off % 2 = 0) := by
  refine ⟨fun a ha => ⟨rfl, ⟨rfl, rfl⟩, ?_⟩, by decide, by decide⟩
  revert a
  decide

theorem witness_ReadsHaveNoSideEffect :
    (hst (r32 0x800) .idle false).hostIsNext (r32 0x800) [] [] ∧ (r32 0x800).we = false ∧
      ∃ t, step (hst (r32 0x800) .idle false) = .next t := ⟨⟨rfl, rfl⟩, rfl, _, rfl⟩

theorem witness_IdAndParamAreConstants :
    ((hst (r32 0x028) .idle false).cfg.Legal ∧ (hst (r32 0x028) .idle false).phase = .idle ∧
      (hst (r32 0x028) .idle false).hostIsNext (r32 0x028) [] []) ∧
    ((hst (r32 0x02C) .idle false).hostIsNext (r32 0x02C) [] [] ∧ (hst (r32 0x02C) .idle false).cfg.capb = 32) ∧
    (hst (w32 0x02C 5) .idle false).hostIsNext (w32 0x02C 5) [] [] :=
  ⟨⟨by decide, rfl, rfl, rfl⟩, ⟨⟨rfl, rfl⟩, rfl⟩, rfl, rfl⟩

/-- One offset of every clause, and the first and last reserved offsets. -/
theorem witness_RegisterReads :
    ∀ off ∈ ([0x000, 0x004, 0x008, 0x00C, 0x010, 0x014, 0x018, 0x01C, 0x020, 0x024, 0x030, 0x7FC] : List (BitVec 12)),
      (hst (r32 off) .idle true).phase = .idle ∧ off.toNat % 4 = 0 ∧ off.toNat < 0x800 ∧
      (hst (r32 off) .idle true).hostIsNext (r32 off) [] [] := by
  intro off h
  simp only [List.mem_cons, List.not_mem_nil, or_false] at h
  refine ⟨rfl, ?_, ?_, rfl, rfl⟩ <;> rcases h with h | h | h | h | h | h | h | h | h | h | h | h <;> subst h <;> decide

theorem witness_RegisterWrites :
    ∀ off ∈ ([0x010, 0x014, 0x018, 0x008, 0x7FC] : List (BitVec 12)),
      (hst (w32 off 5) .idle false).phase = .idle ∧ off.toNat % 4 = 0 ∧ off.toNat < 0x800 ∧
      (hst (w32 off 5) .idle false).hostIsNext (w32 off 5) [] [] := by
  intro off h
  simp only [List.mem_cons, List.not_mem_nil, or_false] at h
  refine ⟨rfl, ?_, ?_, rfl, rfl⟩ <;> rcases h with h | h | h | h | h <;> subst h <;> decide

/-- A word write that crosses the top of STAGE when CAPB = 30, a halfword read beyond it, a byte that is there. -/
theorem witness_StageIsLittleEndian :
    (let s := ({ hst (w32 0x81C 0x44332211) .idle false with cfg := ⟨30⟩ } : State)
     s.phase = .idle ∧ s.hostIsNext (w32 0x81C 0x44332211) [] [] ∧ 0x800 ≤ (w32 0x81C 0x44332211).off ∧
       (w32 0x81C 0x44332211).size = .word ∧ (w32 0x81C 0x44332211).off % 4 = 0 ∧ (w32 0x81C 0x44332211).we = true) ∧
    (let a : Access := ⟨false, 0xFFE, .half, 0⟩
     (hst a .idle false).hostIsNext a [] [] ∧ 0x800 ≤ a.off ∧ a.size = .half ∧ a.off % 2 = 0 ∧ a.we = false ∧
       (hst a .idle false).cfg.capb ≤ a.off - 0x800 + 1) ∧
    (let s := ({ hst (r32 0x800) .idle false with stage := [(0, 0x35)] } : State)
     (r32 0x800).off - 0x800 + 0 < s.cfg.capb ∧ s.stage.read? ((r32 0x800).off - 0x800 + 0) = some 0x35) :=
  ⟨⟨rfl, ⟨rfl, rfl⟩, by decide, rfl, by decide, rfl⟩, ⟨⟨rfl, rfl⟩, by decide, rfl, by decide, rfl, by decide⟩, by decide⟩

theorem witness_NarrowAccessesUseTheLowBits :
    (let a : Access := ⟨false, 0xFFE, .half, 0⟩
     (hst a .idle false).phase = .idle ∧ (hst a .idle false).hostIsNext a [] [] ∧ 0x800 ≤ a.off ∧ a.size = .half ∧
       a.off % 2 = 0 ∧ a.we = false) ∧
    (let a : Access := ⟨true, 0x81F, .byte, 0x35⟩
     (hst a .idle false).hostIsNext a [] [] ∧ 0x800 ≤ a.off ∧ a.size = .byte ∧ a.we = true ∧
       (0xFFFFFF35 : Word).extractLsb' 0 (8 * 1) = a.wdata.extractLsb' 0 (8 * 1)) ∧
    (let a : Access := ⟨false, 0x820, .byte, 0⟩
     (hst a .idle false).hostIsNext a [] [] ∧ a.size = .byte ∧ a.we = false ∧
       (hst a .idle false).cfg.capb ≤ a.off - 0x800) ∧
    (let a : Access := ⟨false, 0x81F, .byte, 0⟩
     let s := ({ hst a .idle false with stage := [(31, 0x35)] } : State)
     s.hostIsNext a [] [] ∧ a.off - 0x800 < s.cfg.capb ∧ s.stage.read? (a.off - 0x800) = some 0x35) :=
  ⟨⟨rfl, ⟨rfl, rfl⟩, by decide, rfl, by decide, rfl⟩, ⟨⟨rfl, rfl⟩, by decide, rfl, rfl, by decide⟩,
    ⟨⟨rfl, rfl⟩, rfl, rfl, by decide⟩, ⟨rfl, rfl⟩, by decide, by decide⟩

theorem witness_ResetGivesTheResetValues :
    (let s := ({ hst (r32 0x020) (.busy 0x10000000) false with held := true, turns := [.reset false] } : State)
     s.turns = .reset false :: [] ∧ s.host = r32 0x020 :: [] ∧ s.held = true) ∧
    (let s := ({ hst (r32 0x020) .idle false with turns := [.reset true] } : State)
     s.turns = .reset true :: [] ∧ s.host = r32 0x020 :: []) ∧
    (let s := ({ hst (r32 0x020) .idle false with turns := [.reset false] } : State)
     s.turns = .reset false :: [] ∧ s.held = false) := ⟨⟨rfl, rfl, rfl⟩, ⟨rfl, rfl⟩, rfl, rfl⟩

end Sys2Proof.Tests
end

/-! ## Proofs: the state (10_state.md)

What a command's effect writes, what a step can do to the registers the host and the commands share, and the obligations
about the state. -/

namespace Sys2Proof.Machine

open Sys2Proof

/-! ### The effect of a command (60_exceptions.md R103, R104) -/

/-- The checks a command makes after those on its operands (R103). -/
def otherChecks (i : Instr) (s : State) : Checks :=
  match i with
  | .load _ _ _ => [(decide (s.loadLen > s.cfg.capb), .invalidWidth)]
  | .rand _ _ => [(decide (s.randWidth > s.cfg.wmax), .invalidWidth)]
  | .store _ | .info _ => []
  | .get ra => [(decide (s.index < 0 ∨ s.index ≥ (s.poly ra).width), .indexOutOfRange)]
  | .set _ => [(decide (s.bitValue > 1), .invalidOperandType), (decide (s.index < 0), .indexOutOfRange)]
  | .slice _ ra => s.seqCheck (s.poly ra)
  | .setr rd ra =>
    s.checkOrder ra rd ++ s.seqCheck (s.poly rd) ++ [((s.poly ra).width != s.positions.length, .sizeMismatch)]
  | .xor _ ra rb | .divt ra rb => s.checkOrder ra rb
  | .shl _ ra => [(decide ((s.poly ra).width + s.shiftAmount > s.cfg.wmax), .invalidWidth)]
  | .mul _ ra rb =>
    s.checkOrder ra rb ++ [(decide (mulWidth (s.poly ra) (s.poly rb) > s.cfg.wmax), .invalidWidth)]
  | .muls _ _ => [(decide (s.scalar > 1), .invalidOperandType)]

/-- What a command writes once its checks pass, before it ends (R104). -/
def effectOf (i : Instr) (s : State) : State :=
  match i with
  | .load rd d o => (s.setPoly rd (loadedReg s rd d o)).drawn s.loadLen
  | .rand rd o => s.setPoly rd (randReg s rd o)
  | .store ra =>
    (s.setStage (s.stage.writeBytes 0 (State.polyBytes (s.poly ra) (s.poly ra).len))).setRes0
      (BitVec.ofNat 32 (s.poly ra).len)
  | .info ra => (s.setRes0 (s.poly ra).bits).setRes1 (s.poly ra).descriptor
  | .get ra => s.setRes0 (bitWord ((s.poly ra).coef s.index.toNat))
  | .set rd =>
    if s.index ≥ (s.poly rd).width then s
    else s.setPoly rd ((s.poly rd).setCoef s.index.toNat (s.bitValue == 1))
  | .slice rd ra => s.setPoly rd (sliceOf (s.poly ra) s.positions)
  | .setr rd ra =>
    s.setPoly rd ((s.poly rd).scatter s.positions ((List.range s.positions.length).map (s.poly ra).coef))
  | .xor rd ra rb => s.setPoly rd (xorOf (s.poly ra) (s.poly rb))
  | .shl rd ra => s.setPoly rd (shiftOf (s.poly ra) s.shiftAmount)
  | .mul rd ra rb => s.setPoly rd (mulOf (s.poly ra) (s.poly rb))
  | .muls rd ra => s.setPoly rd (scaleOf (s.poly ra) (s.scalar == 1))
  | .divt ra rb =>
    (s.setFlag (dividesInto (s.poly ra) (s.poly rb))).setRes0 (bitWord (dividesInto (s.poly ra) (s.poly rb)))

/-- A RAND that needs bytes changes nothing (70_reset_and_hazards.md R127). -/
theorem exec_of_waits {i : Instr} {s : State} (h : Waits i s) : exec i s = .next s := by
  obtain ⟨⟨rd, o, rfl⟩, hw⟩ := h
  exact if_pos hw

/-- Every other command checks its operands first, then the rest, and then takes its effect. -/
theorem exec_eq_command {i : Instr} {s : State} (h : ¬ Waits i s) :
    exec i s = command (encode i) s (s.checkOperands (operandsOf i) ++ otherChecks i s) (effectOf i s) := by
  cases i with
  | rand rd o => exact if_neg fun hw => h ⟨⟨rd, o, rfl⟩, hw⟩
  | _ => rfl

/-- The inversion of exec, with the state a command that completes leaves. -/
theorem exec_effect_cases {i : Instr} {s t : State} (h : exec i s = .next t) :
    (Waits i s ∧ t = s) ∨ (∃ e, t = s.raise e (encode i)) ∨ t = (effectOf i s).finish := by
  by_cases hw : Waits i s
  · rw [exec_of_waits hw] at h
    injection h with h
    exact .inl ⟨hw, h.symm⟩
  · rw [exec_eq_command hw] at h
    rcases command_cases h with ⟨e, _, rfl⟩ | ⟨_, rfl⟩
    · exact .inr (.inl ⟨e, rfl⟩)
    · exact .inr (.inr rfl)

theorem effectOf_untouched (i : Instr) (s : State) : Untouched s (effectOf i s) := by
  cases i with
  | set rd =>
    simp only [effectOf]
    split_ifs <;> exact ⟨rfl, rfl, rfl, rfl, rfl, rfl, rfl, rfl, rfl, rfl, rfl⟩
  | _ => exact ⟨rfl, rfl, rfl, rfl, rfl, rfl, rfl, rfl, rfl, rfl, rfl⟩

/-! ### Validity (10_state.md R21, 60_exceptions.md R102) -/

/-- Validity is checked before anything else. -/
theorem firstError_of_invalid_operand {s : State} {rs : List Reg} (cs : Checks)
    (h : ∃ r ∈ rs, (s.poly r).valid = false) :
    firstError (s.checkOperands rs ++ cs) = some .invalidOperandType := by
  have hv : firstError (rs.map fun r => (!(s.poly r).valid, Err.invalidOperandType)) =
      some .invalidOperandType := by
    induction rs with
    | nil => simp at h
    | cons q rs ih =>
      cases hq : (s.poly q).valid with
      | false => simp [hq]
      | true => simpa [hq] using ih (by simpa [hq] using h)
  rw [State.checkOperands, firstError_append, firstError_append, hv]
  rfl

theorem exec_of_invalid_operand {i : Instr} {s : State} (h : ∃ r ∈ operandsOf i, (s.poly r).valid = false) :
    exec i s = .next (s.raise .invalidOperandType (encode i)) := by
  have hw : ¬ Waits i s := by
    rintro ⟨⟨rd, o, rfl⟩, _⟩
    simp [operandsOf] at h
  rw [exec_eq_command hw, command_of_some (firstError_of_invalid_operand _ h)]

theorem exec_info (ra : Reg) (s : State) : exec (.info ra) s = .next (effectOf (.info ra) s).finish := rfl

/-- A whole polynomial written makes the register valid. -/
theorem setPoly_valid_of_whole (s : State) {p : PolyReg} (hp : p.valid = true) (rd r : Reg) :
    ((s.setPoly rd p).poly r).valid = if some rd = some r then true else (s.poly r).valid := by
  by_cases h : rd = r <;> simp [State.setPoly_poly, h, hp]

/-- A register written in place is as valid as before. -/
theorem setPoly_valid_in_place {s : State} {p : PolyReg} {rd : Reg} (hp : p.valid = (s.poly rd).valid) (r : Reg) :
    ((s.setPoly rd p).poly r).valid = (s.poly r).valid := by
  by_cases h : rd = r
  · subst h; simp [hp]
  · simp [State.setPoly_poly, h]

/-- A command that completes makes valid the register it writes whole, and keeps every other validity (R21). -/
theorem effectOf_valid (i : Instr) (s : State) (r : Reg) :
    ((effectOf i s).poly r).valid = if writesWhole i = some r then true else (s.poly r).valid := by
  cases i with
  | load rd d o => exact setPoly_valid_of_whole s (p := loadedReg s rd d o) rfl rd r
  | rand rd o | slice rd ra | xor rd ra rb | shl rd ra | mul rd ra rb | muls rd ra =>
    exact setPoly_valid_of_whole s rfl rd r
  | store ra | info ra | get ra | divt ra rb => rfl
  | set rd =>
    have hnone : ¬ writesWhole (.set rd) = some r := by simp [writesWhole]
    rw [if_neg hnone]
    simp only [effectOf]
    split_ifs
    · rfl
    · exact setPoly_valid_in_place (p := (s.poly rd).setCoef s.index.toNat (s.bitValue == 1)) rfl r
  | setr rd ra => exact setPoly_valid_in_place (scatter_keeps _ _ _).1 r

/-! ### The result registers (10_state.md R34) -/

theorem bitWord_eq_ite (b : Bool) : bitWord b = if b then 1 else 0 := by cases b <;> rfl

/-- The commands that write RES0, and what they write. -/
theorem effectOf_res0 (i : Instr) (s : State) :
    (effectOf i s).res0 = s.res0 ∨
    (∃ ra, i = .get ra ∧ (effectOf i s).res0 = (if (s.poly ra).coef s.arg0.toInt.toNat then 1 else 0)) ∨
    (∃ ra rb, i = .divt ra rb ∧ (effectOf i s).res0 = (if (effectOf i s).flag then 1 else 0) ∧
      (effectOf i s).flag = decide ((s.poly rb).hsb ≤ (s.poly ra).hsb)) ∨
    (∃ ra, i = .store ra ∧ (effectOf i s).res0 = BitVec.ofNat 32 (s.poly ra).len) ∨
    (∃ ra, i = .info ra ∧ (effectOf i s).res0 = (s.poly ra).bits) := by
  cases i with
  | get ra => exact .inr (.inl ⟨ra, rfl, bitWord_eq_ite _⟩)
  | divt ra rb => exact .inr (.inr (.inl ⟨ra, rb, rfl, bitWord_eq_ite _, rfl⟩))
  | store ra => exact .inr (.inr (.inr (.inl ⟨ra, rfl, rfl⟩)))
  | info ra => exact .inr (.inr (.inr (.inr ⟨ra, rfl, rfl⟩)))
  | set rd =>
    left
    simp only [effectOf]
    split_ifs <;> rfl
  | _ => exact .inl rfl

/-- INFO alone writes RES1. -/
theorem effectOf_res1 (i : Instr) (s : State) :
    (effectOf i s).res1 = s.res1 ∨ ∃ ra, i = .info ra ∧ (effectOf i s).res1 = (s.poly ra).descriptor := by
  cases i with
  | info ra => exact .inr ⟨ra, rfl, rfl⟩
  | set rd =>
    left
    simp only [effectOf]
    split_ifs <;> rfl
  | _ => exact .inl rfl

/-- The bits of INFO's descriptor (R34, 40_construction.md R74). -/
theorem getLsbD_descriptor (p : PolyReg) {n : Nat} (hn : n < 32) :
    p.descriptor.getLsbD n =
      ((decide (n = 31) && p.valid) || (decide (n = 30) && p.order == .little) ||
        (BitVec.ofNat 12 p.len).getLsbD n) := by
  have ho : p.order.isLittle = (p.order == .little) := by cases p.order <;> rfl
  have shifted : ∀ (b : Bool) (k : Nat), k < 32 →
      (bitWord b <<< k).getLsbD n = (decide (n = k) && b) := by
    intro b k hk
    rw [BitVec.getLsbD_shiftLeft, bitWord_bit]
    by_cases hlt : n < k
    · simp [hlt, show n ≠ k by omega]
    · simp [hlt, hn, show n - k = 0 ↔ n = k by omega]
  simp only [PolyReg.descriptor, BitVec.getLsbD_or, shifted _ 31 (by decide), shifted _ 30 (by decide),
    BitVec.getLsbD_setWidth, hn, ho, decide_true, Bool.true_and]

theorem descriptor_fields (p : PolyReg) :
    p.descriptor.getLsbD 31 = p.valid ∧ p.descriptor.getLsbD 30 = (p.order == .little) ∧
      p.descriptor.extractLsb' 12 18 = 0 ∧ p.descriptor.extractLsb' 0 12 = BitVec.ofNat 12 p.len := by
  refine ⟨?_, ?_, ?_, ?_⟩
  · rw [getLsbD_descriptor p (by decide)]
    simp
  · rw [getLsbD_descriptor p (by decide)]
    simp
  · refine BitVec.eq_of_getLsbD_eq fun n hn => ?_
    rw [BitVec.getLsbD_extractLsb', getLsbD_descriptor p (by omega),
      BitVec.getLsbD_of_ge (BitVec.ofNat 12 p.len) _ (by omega)]
    simp [show 12 + n ≠ 31 by omega, show 12 + n ≠ 30 by omega]
  · refine BitVec.eq_of_getLsbD_eq fun n hn => ?_
    rw [BitVec.getLsbD_extractLsb', getLsbD_descriptor p (by omega)]
    simp [hn, show n ≠ 31 by omega, show n ≠ 30 by omega]

/-! ### What a step can do -/

/-- Reset: the unit's elements take the values of State.reset (10_state.md R39). -/
theorem resetTurn_eq (s : State) (presented : Bool) :
    ∃ host response draws, s.resetTurn presented =
      { State.reset with cfg := s.cfg, host := host, response := response, turns := s.turns, draws := draws } := by
  unfold State.resetTurn
  split
  · exact ⟨_, _, _, rfl⟩
  · split_ifs <;> exact ⟨_, _, _, rfl⟩

theorem step_of_reset {s : State} (h : s.resetIsNext) :
    ∃ u presented, step s = .next (State.resetTurn u presented) := by
  obtain ⟨p, ts, hts⟩ := h
  exact ⟨{ s with turns := ts }, p, by simp only [step, State.advance, hts, State.take]⟩

theorem resetTurn_poly (s : State) (presented : Bool) (r : Reg) :
    (s.resetTurn presented).poly r = PolyReg.reset := by
  obtain ⟨_, _, _, h⟩ := resetTurn_eq s presented
  rw [h]
  exact State.reset_poly r

/-- The inversion of a step for the polynomial registers and the results: it keeps them, it is the effect of the decoded
command (`u` is the state with the unit's turn taken), or it is a reset. -/
theorem step_effect_cases {s t : State} (h : step s = .next t) :
    (t.polys = s.polys ∧ KeepsResults s t) ∨
    (∃ w i u, s.phase = .busy w ∧ decode w = .ok i ∧ (∃ ts, u = { s with turns := ts }) ∧
      t = (effectOf i u).finish) ∨
    (s.resetIsNext ∧ ∃ u presented, t = State.resetTurn u presented) := by
  obtain ⟨u, ⟨ts, rfl⟩, rfl | ⟨b, rfl⟩ | hu | ⟨⟨p, rfl⟩, hr⟩⟩ := step_cases h
  · obtain ⟨hp, h0, h1, hf, -⟩ := hostTurn_keeps { s with turns := ts }
    exact .inl ⟨hp, h0, h1, hf⟩
  · rw [byteTurn_keeps]
    exact .inl ⟨rfl, rfl, rfl, rfl⟩
  · rcases unitTurn_cases hu with ⟨rfl, -⟩ | ⟨w, e, -, rfl | ⟨i, -, rfl⟩⟩ | ⟨w, i, hp, hd, hx, -⟩
    · exact .inl ⟨rfl, rfl, rfl, rfl⟩
    · exact .inl ⟨rfl, rfl, rfl, rfl⟩
    · exact .inl ⟨rfl, rfl, rfl, rfl⟩
    · rcases exec_effect_cases hx with ⟨-, rfl⟩ | ⟨e, rfl⟩ | rfl
      · exact .inl ⟨rfl, rfl, rfl, rfl⟩
      · exact .inl ⟨rfl, rfl, rfl, rfl⟩
      · exact .inr (.inl ⟨w, i, _, hp, hd, ⟨ts, rfl⟩, rfl⟩)
  · exact .inr (.inr ⟨hr, _, p, rfl⟩)

/-- What a step does to a register's validity: it keeps it, a command that writes the register whole sets it, or reset
clears it (R21). -/
theorem step_valid_cases {s t : State} (h : step s = .next t) (r : Reg) :
    (t.poly r).valid = (s.poly r).valid ∨
    ((t.poly r).valid = true ∧ ∃ w i, s.phase = .busy w ∧ decode w = .ok i ∧ writesWhole i = some r) ∨
    ((t.poly r).valid = false ∧ s.resetIsNext) := by
  rcases step_effect_cases h with ⟨hp, -⟩ | ⟨w, i, u, hw, hd, ⟨ts, rfl⟩, rfl⟩ | ⟨hr, u, p, rfl⟩
  · exact .inl (by rw [State.poly, hp]; rfl)
  · rw [State.finish_poly, effectOf_valid]
    by_cases hi : writesWhole i = some r
    · exact .inr (.inl ⟨if_pos hi, w, i, hw, hd, hi⟩)
    · exact .inl (if_neg hi)
  · exact .inr (.inr ⟨by rw [resetTurn_poly]; rfl, hr⟩)

/-! ### Register accesses of the host (20_memory.md R41) -/

theorem w32_wf {off : BitVec 12} (v : Word) (h : off.toNat % 4 = 0) : (w32 off v).wf = true := decide_eq_true h

theorem r32_wf {off : BitVec 12} (h : off.toNat % 4 = 0) : (r32 off).wf = true := decide_eq_true h

/-- A 32-bit write below 0x800 to an idle unit. -/
theorem step_w32_register {s : State} {off : BitVec 12} {v : Word} {rest : List Access} {ts : List Turn}
    (hp : s.phase = .idle) (h : s.hostIsNext (w32 off v) rest ts) (ha : off.toNat % 4 = 0)
    (hl : off.toNat < Access.stageBase) :
    step s = .next (({ s with turns := ts, host := rest, held := false } : State).writeReg off.toNat v
      |>.respond .writeDone) := by
  rw [step_host_idle h (State.busy_idle hp), access_registerWrite (w32_wf v ha) rfl hl]
  rfl

/-- A 32-bit read below 0x800 from an idle unit. -/
theorem step_r32_register {s : State} {off : BitVec 12} {rest : List Access} {ts : List Turn}
    (hp : s.phase = .idle) (h : s.hostIsNext (r32 off) rest ts) (ha : off.toNat % 4 = 0)
    (hl : off.toNat < Access.stageBase) :
    step s = .next (s.offBus rest ts (.readDone (s.readReg off.toNat))) := by
  rw [step_host_idle h (State.busy_idle hp), access_registerRead (r32_wf ha) rfl hl]
  rfl

/-! ### The argument registers (10_state.md R33) -/

/-- ARG0, ARG1, ARG2 by number. -/
def State.arg (s : State) : Fin 3 → Word
  | 0 => s.arg0
  | 1 => s.arg1
  | 2 => s.arg2

/-- The window offset of ARG0, ARG1, ARG2 (20_memory.md R41). -/
def argOff (k : Fin 3) : Nat := 0x010 + 4 * k

theorem writeReg_arg (s : State) (off : Nat) (v : Word) (k : Fin 3) :
    (s.writeReg off v).arg k = s.arg k ∨ (off = argOff k ∧ (s.writeReg off v).arg k = v) := by
  unfold State.writeReg
  split
  · left; unfold State.acceptCommand; split_ifs <;> rfl
  · left; unfold State.writeStatus; split_ifs <;> rfl
  · match k with
    | 0 => exact .inr ⟨rfl, rfl⟩
    | 1 | 2 => exact .inl rfl
  · match k with
    | 1 => exact .inr ⟨rfl, rfl⟩
    | 0 | 2 => exact .inl rfl
  · match k with
    | 2 => exact .inr ⟨rfl, rfl⟩
    | 0 | 1 => exact .inl rfl
  · exact .inl rfl

theorem access_arg (s : State) (a : Access) (k : Fin 3) :
    (s.access a).arg k = s.arg k ∨
      (a.we = true ∧ a.off = argOff k ∧ (s.access a).arg k = a.wdata) := by
  unfold State.access
  split_ifs with _ _ hw
  · exact .inl rfl
  · rcases writeReg_arg s a.off a.wdata k with h | ⟨ho, h⟩
    · exact .inl h
    · exact .inr ⟨hw, ho, h⟩
  all_goals exact .inl rfl

theorem hostTurn_arg (s : State) (k : Fin 3) :
    s.hostTurn.arg k = s.arg k ∨
      ∃ a rest, s.host = a :: rest ∧ a.we = true ∧ a.off = argOff k ∧ s.hostTurn.arg k = a.wdata := by
  cases hh : s.host with
  | nil => exact .inl (by simp [State.hostTurn, hh])
  | cons a rest =>
    rw [hostTurn_cons hh]
    split_ifs
    · rcases access_arg { s with host := rest, held := false } a k with h | h
      · exact .inl h
      · exact .inr ⟨a, rest, rfl, h⟩
    · exact .inl rfl

theorem Completes.arg_eq {s t : State} (h : Completes s t) (k : Fin 3) : t.arg k = s.arg k := by
  match k with
  | 0 => exact h.arg0
  | 1 => exact h.arg1
  | 2 => exact h.arg2

/-- No command writes an argument register (R33). -/
theorem unitTurn_arg {s t : State} (h : s.unitTurn = .next t) (k : Fin 3) : t.arg k = s.arg k := by
  rcases unitTurn_cases h with ⟨rfl, -⟩ | ⟨w, e, -, rfl | ⟨i, -, rfl⟩⟩ | ⟨w, i, -, -, -, hc⟩
  · rfl
  · rfl
  · rfl
  · exact hc.arg_eq k

/-- A step that changes an argument register is the host's write of it, or a reset. -/
theorem step_arg {s t : State} (h : step s = .next t) (k : Fin 3) (hne : t.arg k ≠ s.arg k) :
    (∃ a rest, s.host = a :: rest ∧ a.we = true ∧ a.off = argOff k ∧ t.arg k = a.wdata) ∨
      (s.resetIsNext ∧ t.arg k = 0) := by
  obtain ⟨u, ⟨ts, rfl⟩, rfl | ⟨b, rfl⟩ | hu | ⟨⟨p, rfl⟩, hr⟩⟩ := step_cases h
  · exact .inl ((hostTurn_arg { s with turns := ts } k).resolve_left hne)
  · rw [byteTurn_keeps] at hne
    exact absurd rfl hne
  · exact absurd (unitTurn_arg hu k) hne
  · obtain ⟨_, _, _, heq⟩ := resetTurn_eq { s with turns := ts } p
    refine .inr ⟨hr, ?_⟩
    rw [heq]
    match k with
    | 0 | 1 | 2 => rfl

/-! ### Hsb, a coefficient's bit, PARAM -/

theorem highest_of_exists {f : Nat → Bool} {n : Nat} (h : ∃ i, i < n ∧ f i = true) :
    highest f n < n ∧ f (highest f n) = true ∧ ∀ i, i < n → f i = true → i ≤ highest f n := by
  induction n with
  | zero => obtain ⟨i, hi, _⟩ := h; omega
  | succ n ih =>
    rw [highest]
    split_ifs with hn
    · exact ⟨by omega, hn, fun i hi _ => by omega⟩
    · have below : ∀ i, i < n + 1 → f i = true → i < n := fun i hi hf =>
        Nat.lt_of_le_of_ne (by omega) fun e => hn (e ▸ hf)
      obtain ⟨i, hi, hf⟩ := h
      obtain ⟨hlt, hset, hmax⟩ := ih ⟨i, below i hi hf, hf⟩
      exact ⟨by omega, hset, fun j hj hfj => hmax j (below j hj hfj) hfj⟩

theorem highest_of_none {f : Nat → Bool} {n : Nat} (h : ∀ i, i < n → f i = false) : highest f n = 0 := by
  induction n with
  | zero => rfl
  | succ n ih =>
    rw [highest, h n (by omega), if_neg (by decide)]
    exact ih fun i hi => h i (by omega)

/-- Bit k of a byte, as R24 computes it. -/
theorem getLsbD_eq_shiftRight_and_one (b : Byte) (k : Nat) : b.getLsbD k = (b >>> k &&& 1 == 1) := by
  rw [show (1 : Byte) = 1#8 from rfl, BitVec.and_one_eq_setWidth_ofBool_getLsbD, BitVec.getLsbD_ushiftRight, Nat.add_zero]
  cases b.getLsbD k <;> rfl

/-- PARAM is the 20 bits 0x00100 over CAPB (R35). -/
theorem paramWord_eq_append (c : Config) : paramWord c = (0x00100#20 ++ BitVec.ofNat 12 c.capb) := by
  refine BitVec.eq_of_toNat_eq ?_
  have hb := (BitVec.ofNat 12 c.capb).isLt
  rw [BitVec.toNat_append, paramWord, BitVec.toNat_or, BitVec.toNat_setWidth, Nat.mod_eq_of_lt (by omega)]
  rfl

theorem paramWord_fields (c : Config) :
    (paramWord c).extractLsb' 24 8 = 0 ∧ (paramWord c).extractLsb' 16 8 = 0x10 ∧
      (paramWord c).extractLsb' 12 4 = 0 ∧ (paramWord c).extractLsb' 0 12 = BitVec.ofNat 12 c.capb := by
  rw [paramWord_eq_append]
  refine ⟨?_, ?_, ?_, BitVec.extractLsb'_append_eq_right⟩
  all_goals
    rw [BitVec.extractLsb'_append_eq_of_le (by decide)]
    decide

end Sys2Proof.Machine

/-! ## The obligations about the state -/

namespace Sys2Proof.Machine

open Sys2Proof

/-- Settles O6: the laws of the layout mapping, and R24's shift and mask read that bit. -/
theorem layoutPlacesCoefficients : Obligations.LayoutPlacesCoefficients :=
  ⟨fun _ _ _ => ⟨rfl, rfl⟩,
    fun i w o h => ⟨loc_fst_lt h o, loc_snd_lt i w o⟩,
    fun _ _ _ _ hi hj h => loc_inj hi hj h,
    fun _ _ _ => getLsbD_eq_shiftRight_and_one _ _⟩

/-- Settles O26: the scan from the top stops at the first set coefficient. -/
theorem highestSetBit : Obligations.HighestSetBit :=
  fun _ => ⟨highest_of_exists, highest_of_none⟩

/-- Settles O34: no turn but the host's and reset's touches an argument register. -/
theorem onlyTheHostWritesArguments : Obligations.OnlyTheHostWritesArguments := by
  refine ⟨fun s t h => ⟨step_arg h 0, step_arg h 1, step_arg h 2⟩, fun s v rest ts hp => ?_, rfl, rfl, rfl⟩
  exact ⟨fun h => step_w32_register hp h (by decide) (by decide),
    fun h => step_w32_register hp h (by decide) (by decide),
    fun h => step_w32_register hp h (by decide) (by decide),
    fun h => step_r32_register hp h (by decide) (by decide),
    fun h => step_r32_register hp h (by decide) (by decide),
    fun h => step_r32_register hp h (by decide) (by decide)⟩

/-- Settles O35, from the one inversion of a step for validity and the effect of the command. -/
theorem validityFollowsConstruction : Obligations.ValidityFollowsConstruction := by
  refine ⟨fun i s h => exec_of_invalid_operand h, fun ra s t h => ?_, fun s t r h hs ht => ?_,
    fun i s t r w hp he hi h ht hte => ?_, fun s r h => ?_, fun s t r h hs ht => ?_⟩
  · rw [exec_info] at h
    injection h with h
    subst h
    rfl
  · rcases step_valid_cases h r with hv | ⟨-, hw⟩ | ⟨hv, -⟩
    · simp [hs, ht] at hv
    · exact hw
    · simp [ht] at hv
  · rcases exec_effect_cases h with ⟨-, rfl⟩ | ⟨e, rfl⟩ | rfl
    · simp [hp] at ht
    · simp at hte
    · rw [State.finish_poly, effectOf_valid, if_pos hi]
  · obtain ⟨u, p, hstep⟩ := step_of_reset h
    exact ⟨_, hstep, by rw [resetTurn_poly]; rfl⟩
  · rcases step_valid_cases h r with hv | ⟨hv, -⟩ | ⟨-, hr⟩
    · simp [hs, ht] at hv
    · simp [ht] at hv
    · exact hr

/-- Settles O36: of the effects of the commands, four write RES0 and one RES1. -/
theorem onlyReadingCommandsWriteResults : Obligations.OnlyReadingCommandsWriteResults := by
  refine ⟨fun s t h hne => ?_, fun s t h hne => ?_, fun s rest ts hp => ⟨fun h => ?_, fun h => ?_⟩, rfl, rfl⟩
  · rcases step_effect_cases h with ⟨-, h0, -, -⟩ | ⟨w, i, u, hw, hd, ⟨ts, rfl⟩, rfl⟩ | ⟨hr, u, p, rfl⟩
    · exact absurd h0 hne
    · exact .inl ⟨w, i, hw, hd, (effectOf_untouched i _).err, (effectOf_res0 i _).resolve_left hne⟩
    · obtain ⟨_, _, _, heq⟩ := resetTurn_eq u p
      exact .inr ⟨hr, by rw [heq]; rfl⟩
  · rcases step_effect_cases h with ⟨-, -, h1, -⟩ | ⟨w, i, u, hw, hd, ⟨ts, rfl⟩, rfl⟩ | ⟨hr, u, p, rfl⟩
    · exact absurd h1 hne
    · obtain ⟨ra, rfl, hres⟩ := (effectOf_res1 i _).resolve_left hne
      refine .inl ⟨w, ra, hw, hd, rfl, ?_⟩
      rw [State.finish_res1, hres]
      exact descriptor_fields (s.poly ra)
    · obtain ⟨_, _, _, heq⟩ := resetTurn_eq u p
      exact .inr ⟨hr, by rw [heq]; rfl⟩
  · exact step_r32_register hp h (by decide) (by decide)
  · exact step_r32_register hp h (by decide) (by decide)

/-- Settles O48: both are register reads, and `writeReg` has no arm for either offset. -/
theorem idAndParamAreConstants : Obligations.IdAndParamAreConstants := by
  intro s rest ts hlegal hp
  refine ⟨fun h => step_r32_register hp h (by decide) (by decide), fun h => ?_, fun v h => ?_⟩
  · refine ⟨paramWord s.cfg, step_r32_register hp h (by decide) (by decide), ?_⟩
    obtain ⟨h24, h16, h12, h0⟩ := paramWord_fields s.cfg
    have hcapb : s.cfg.capb < 2 ^ 12 := lt_of_le_of_lt hlegal.2 (by decide)
    refine ⟨h24, h16, h12, ?_, fun h32 => ?_⟩
    · rw [h0, BitVec.toNat_ofNat, Nat.mod_eq_of_lt hcapb]
    · rw [paramWord, h32]
      rfl
  · rcases h with h | h
    · exact step_w32_register hp h (by decide) (by decide)
    · exact step_w32_register hp h (by decide) (by decide)

end Sys2Proof.Machine

/-! ## Facts for the obligations about the host window (20_memory.md) -/

namespace Sys2Proof.Machine

open Sys2Proof

/-! ### Legal accesses (R42) -/

/-- The model's check of an access is R42's description of the two halves of the window. -/
theorem Access.wf_iff (a : Access) :
    a.wf = true ↔ (a.off < 0x800 ∧ a.size = .word ∧ a.off % 4 = 0) ∨
      (0x800 ≤ a.off ∧ (a.size = .byte ∨ (a.size = .half ∧ a.off % 2 = 0) ∨ (a.size = .word ∧ a.off % 4 = 0))) := by
  have hbase : Access.stageBase = 0x800 := rfl
  cases hs : a.size with
  | reserved => simp [Access.wf, hs]
  | byte | half | word =>
    simp only [Access.wf, hs, decide_eq_true_eq, reduceCtorEq, false_and, and_false, false_or, or_false, true_and,
      and_true]
    omega

/-- A legal access to STAGE writes the bytes of its lanes (R45). -/
theorem access_stageWrite {s : State} {a : Access} (h : a.wf = true) (hw : a.we = true)
    (hl : Access.stageBase ≤ a.off) :
    s.access a = (s.stageWrite (a.off - Access.stageBase) a.size.bytes a.wdata).respond .writeDone := by
  simp [State.access, h, hw, Nat.not_lt.mpr hl]

/-- A legal access to STAGE reads the bytes of its lanes (R45). -/
theorem access_stageRead {s : State} {a : Access} (h : a.wf = true) (hw : a.we = false)
    (hl : Access.stageBase ≤ a.off) :
    s.access a =
      (s.drawn a.size.bytes).respond (.readDone (s.stageRead (a.off - Access.stageBase) a.size.bytes)) := by
  simp [State.access, h, hw, Nat.not_lt.mpr hl]

/-- A legal access completes: a write is done, a read answers its data. -/
theorem access_legal_response (s : State) {a : Access} (h : a.wf = true) :
    (s.access a).response = some .writeDone ∨ ∃ v, (s.access a).response = some (.readDone v) := by
  rcases Nat.lt_or_ge a.off Access.stageBase with hl | hl <;> cases hw : a.we
  · exact .inr ⟨_, by rw [access_registerRead h hw hl, State.respond_response]⟩
  · exact .inl (by rw [access_registerWrite h hw hl, State.respond_response])
  · exact .inr ⟨_, by rw [access_stageRead h hw hl, State.respond_response]⟩
  · exact .inl (by rw [access_stageWrite h hw hl, State.respond_response])

/-! ### Byte lanes of STAGE (R45) -/

/-- Bit i of a word gathered from bytes is bit i % 8 of byte i / 8. -/
theorem getLsbD_leWord (bs : List Byte) {i : Nat} (hi : i < 32) :
    (leWord bs).getLsbD i = (bs.getD (i / 8) 0).getLsbD (i % 8) := by
  induction bs generalizing i with
  | nil => simp [leWord]
  | cons b bs ih =>
    rw [leWord, BitVec.getLsbD_or, BitVec.getLsbD_setWidth, BitVec.getLsbD_shiftLeft]
    rcases Nat.lt_or_ge i 8 with h8 | h8
    · simp [hi, h8, Nat.div_eq_of_lt h8, Nat.mod_eq_of_lt h8]
    · have hdiv : i / 8 = (i - 8) / 8 + 1 := by omega
      have hmod : i % 8 = (i - 8) % 8 := by omega
      rw [BitVec.getLsbD_of_ge b i h8, ih (by omega), hdiv, hmod, List.getD_cons_succ]
      simp [hi, h8]

theorem lane_leWord (bs : List Byte) {j : Nat} (hj : j < 4) : lane (leWord bs) j = bs.getD j 0 := by
  refine BitVec.eq_of_getLsbD_eq fun i hi => ?_
  have hdiv : (8 * j + i) / 8 = j := by omega
  have hmod : (8 * j + i) % 8 = i := by omega
  rw [lane, BitVec.getLsbD_extractLsb', getLsbD_leWord bs (by omega), hdiv, hmod, decide_eq_true hi, Bool.true_and]

/-- Lane j of an n-byte read is the byte at STAGE index k + j. -/
theorem lane_stageRead (s : State) (k : Nat) {n j : Nat} (hn : n ≤ 4) (hj : j < n) :
    lane (s.stageRead k n) j = s.laneByte k j := by
  rw [State.stageRead, lane_leWord _ (by omega)]
  simp [List.getD_eq_getElem?_getD, hj]

theorem laneByte_of_ge {s : State} {k j : Nat} (h : s.cfg.capb ≤ k + j) : s.laneByte k j = 0 :=
  if_neg (Nat.not_lt.mpr h)

theorem laneByte_of_read? {s : State} {k j : Nat} {b : Byte} (h : k + j < s.cfg.capb)
    (hb : s.stage.read? (k + j) = some b) : s.laneByte k j = b := by
  rw [State.laneByte, if_pos h, State.stageByte, hb, Option.getD_some]

/-- STAGE after an n-byte write at index k: lane b - k at each index b it covers below CAPB, the old contents elsewhere. -/
theorem read?_stageWrite (s : State) (k n : Nat) (w : Word) (b : Nat) :
    (s.stageWrite k n w).stage.read? b =
      if k ≤ b ∧ b < k + n ∧ b < s.cfg.capb then some (lane w (b - k)) else s.stage.read? b := by
  rw [State.stageWrite, State.setStage_stage]
  induction n with
  | zero => rw [if_neg (by omega)]; rfl
  | succ n ih =>
    rw [List.range_succ, List.foldl_append, List.foldl_cons, List.foldl_nil]
    by_cases hb : k + n = b
    · subst hb
      rw [Nat.add_sub_cancel_left]
      by_cases hc : k + n < s.cfg.capb
      · rw [if_pos hc, Memory.read?_write_same, if_pos (by omega)]
      · rw [if_neg hc, ih, if_neg (by omega), if_neg (by omega)]
    · have hrange : (k ≤ b ∧ b < k + (n + 1) ∧ b < s.cfg.capb) ↔ (k ≤ b ∧ b < k + n ∧ b < s.cfg.capb) := by omega
      simp only [hrange, ← ih]
      split_ifs
      · rw [Memory.read?_write_other _ hb]
      · rfl

end Sys2Proof.Machine

/-! ## The obligations about the host window -/

namespace Sys2Proof.Machine

open Sys2Proof

/-- Settles O46: the model's check is R42's description, and only an access that fails it gets a bus error. -/
theorem illegalAccessesGetABusError : Obligations.IllegalAccessesGetABusError := by
  intro s a rest ts hp h legal
  have hstep := step_host_idle h (State.busy_idle hp)
  refine ⟨fun hn => ?_, fun hl => ?_⟩
  · rw [hstep, access_illegal (Bool.eq_false_iff.mpr fun hwf => hn (a.wf_iff.mp hwf))]
    rfl
  · rcases access_legal_response _ (a.wf_iff.mpr hl) with hr | ⟨v, hr⟩
    · exact ⟨_, _, hstep, hr, fun _ => nofun⟩
    · exact ⟨_, _, hstep, hr, fun _ => nofun⟩

/-- Settles O51: both directions move byte lane j to or from STAGE[k + j], and stop at CAPB. -/
theorem stageIsLittleEndian : Obligations.StageIsLittleEndian := by
  intro s a rest ts n hp h hl hsize
  have hn : a.size.bytes = n := by
    rcases hsize with ⟨hs, rfl, -⟩ | ⟨hs, rfl, -⟩ <;> rw [hs] <;> rfl
  have hn4 : n ≤ 4 := by omega
  have hwf : a.wf = true := a.wf_iff.mpr
    (.inr ⟨hl, .inr (hsize.imp (fun ⟨hs, _, ha⟩ => ⟨hs, ha⟩) (fun ⟨hs, _, ha⟩ => ⟨hs, ha⟩))⟩)
  have hstep := step_host_idle h (State.busy_idle hp)
  refine ⟨fun hw => ?_, fun hw => ?_⟩
  · rw [access_stageWrite hwf hw hl, hn] at hstep
    exact ⟨_, hstep, rfl, read?_stageWrite _ _ n a.wdata⟩
  · rw [access_stageRead hwf hw hl, hn] at hstep
    exact ⟨_, s.stageRead (a.off - 0x800) n, hstep, rfl,
      fun j hj hc => (lane_stageRead s _ hn4 hj).trans (laneByte_of_ge hc),
      fun j b hj hc hb => (lane_stageRead s _ hn4 hj).trans (laneByte_of_read? hc hb)⟩

end Sys2Proof.Machine

/-! ## Facts for the obligations about the encoding (30_encoding.md) -/

namespace Sys2Proof

/-! ### A word and its fields (R57) -/

/-- A word is fixed by its seven fields. -/
theorem word_eq_iff_fields {a b : Word} : a = b ↔
    a.extractLsb' 24 8 = b.extractLsb' 24 8 ∧ a.extractLsb' 20 4 = b.extractLsb' 20 4 ∧
    a.extractLsb' 16 4 = b.extractLsb' 16 4 ∧ a.extractLsb' 12 4 = b.extractLsb' 12 4 ∧
    a.extractLsb' 2 10 = b.extractLsb' 2 10 ∧ a.extractLsb' 1 1 = b.extractLsb' 1 1 ∧
    a.extractLsb' 0 1 = b.extractLsb' 0 1 := by
  refine ⟨fun h => by simp [h], fun ⟨hopc, hrd, hra, hrb, hres, hd, ho⟩ => BitVec.eq_of_getLsbD_eq fun n hn => ?_⟩
  have bit {start len : Nat} (h : a.extractLsb' start len = b.extractLsb' start len) (h1 : start ≤ n)
      (h2 : n < start + len) : a.getLsbD n = b.getLsbD n := by
    have := congrArg (·.getLsbD (n - start)) h
    simpa [BitVec.getLsbD_extractLsb', Nat.add_sub_cancel' h1, show n - start < len by omega] using this
  rcases (by omega : 24 ≤ n ∨ (20 ≤ n ∧ n < 24) ∨ (16 ≤ n ∧ n < 20) ∨ (12 ≤ n ∧ n < 16) ∨ (2 ≤ n ∧ n < 12) ∨
    n = 1 ∨ n = 0) with h | h | h | h | h | h | h
  · exact bit hopc h hn
  · exact bit hrd h.1 h.2
  · exact bit hra h.1 h.2
  · exact bit hrb h.1 h.2
  · exact bit hres h.1 h.2
  · exact bit hd h.ge (by omega)
  · exact bit ho h.ge (by omega)

theorem rdField_eq_zero_iff (w : Word) : rdField w = 0 ↔ w.extractLsb' 20 4 = 0#4 := BitVec.toFin_inj

theorem raField_eq_zero_iff (w : Word) : raField w = 0 ↔ w.extractLsb' 16 4 = 0#4 := BitVec.toFin_inj

theorem rbField_eq_zero_iff (w : Word) : rbField w = 0 ↔ w.extractLsb' 12 4 = 0#4 := BitVec.toFin_inj

/-- A one-bit field is 0 when its bit is clear. -/
theorem extractLsb'_one_eq_zero_iff (w : Word) (n : Nat) : w.extractLsb' n 1 = 0#1 ↔ w.getLsbD n = false := by
  rw [BitVec.getLsbD_eq_extractLsb']
  generalize w.extractLsb' n 1 = b
  revert b
  decide

theorem dField_eq_false_iff (w : Word) : dField w = false ↔ w.extractLsb' 1 1 = 0#1 :=
  (extractLsb'_one_eq_zero_iff w 1).symm

theorem oField_eq_big_iff (w : Word) : oField w = .big ↔ w.extractLsb' 0 1 = 0#1 := by
  rw [extractLsb'_one_eq_zero_iff, oField]
  cases w.getLsbD 0 <;> decide

/-! ### What the decoder accepts (R58, R60) -/

theorem requireZero_accepts_iff (z : Bool) (i : Instr) : (∃ j, requireZero z i = .ok j) ↔ z = true := by
  cases z <;> simp [requireZero]

/-- Every mask of R60 covers OPC, so a word that selects a row has the row's opcode. -/
theorem opcField_of_selects {r : OpcodeRow} (hr : r ∈ opcodeRows) {w : Word} (h : w &&& r.mask = r.pattern) :
    opcField w = opcField r.pattern := by
  have hmask : ∀ r ∈ opcodeRows, r.mask.extractLsb' 24 8 = BitVec.allOnes 8 := by decide
  rw [← h, opcField, opcField, BitVec.extractLsb'_and, hmask r hr, BitVec.and_allOnes]

/-- The decoder accepts only the opcodes of the table. -/
theorem opcField_of_decode_ok {w : Word} {i : Instr} (h : decode w = .ok i) :
    ∃ r ∈ opcodeRows, opcField w = opcField r.pattern := by
  by_contra hno
  have hrows : opcodeRows.map (opcField ·.pattern) =
      [0x01, 0x02, 0x03, 0x04, 0x10, 0x11, 0x12, 0x13, 0x20, 0x21, 0x22, 0x23, 0x24] := by decide
  have hopc : opcField w ∉ opcodeRows.map (opcField ·.pattern) := fun h => hno <| by simpa [eq_comm] using h
  simp only [hrows, List.mem_cons, List.not_mem_nil, not_or] at hopc
  simp [decode, hopc] at h

/-- Among the words with a row's opcode the decoder accepts those that select the row: the fields it requires to be 0 are
the rest of the bits the mask covers. -/
theorem decode_accepts_iff_selects {r : OpcodeRow} (hr : r ∈ opcodeRows) {w : Word}
    (hw : opcField w = opcField r.pattern) : (∃ i, decode w = .ok i) ↔ w &&& r.mask = r.pattern := by
  have hopc : w.extractLsb' 24 8 = r.pattern.extractLsb' 24 8 := BitVec.eq_of_toNat_eq hw
  have full4 (x : BitVec 4) : x &&& 15#4 = x := BitVec.and_allOnes
  have full10 (x : BitVec 10) : x &&& 1023#10 = x := BitVec.and_allOnes
  have full1 (x : BitVec 1) : x &&& 1#1 = x := BitVec.and_allOnes
  rw [word_eq_iff_fields]
  simp only [opcodeRows, List.mem_cons, List.not_mem_nil, or_false] at hr
  rcases hr with rfl | rfl | rfl | rfl | rfl | rfl | rfl | rfl | rfl | rfl | rfl | rfl | rfl <;>
    simp [decode, opcField, reservedField, hopc, requireZero_accepts_iff, rdField_eq_zero_iff, raField_eq_zero_iff,
      rbField_eq_zero_iff, dField_eq_false_iff, oField_eq_big_iff, BitVec.extractLsb'_and, full1, full4, full10,
      and_assoc]

/-- The decoder and the table of R60 accept the same words. -/
theorem decode_accepts_iff_selects_row (w : Word) :
    (∃ i, decode w = .ok i) ↔ ∃ r ∈ opcodeRows, w &&& r.mask = r.pattern := by
  refine ⟨fun ⟨i, hi⟩ => ?_, fun ⟨r, hr, h⟩ => (decode_accepts_iff_selects hr (opcField_of_selects hr h)).mpr h⟩
  obtain ⟨r, hr, hw⟩ := opcField_of_decode_ok hi
  exact ⟨r, hr, (decode_accepts_iff_selects hr hw).mp ⟨i, hi⟩⟩

end Sys2Proof

namespace Sys2Proof.Machine

open Sys2Proof

/-! ### The unit's turn on a word (R58, R106) -/

theorem step_of_unit {s : State} {ts : List Turn} (h : s.turns = .unit :: ts) :
    step s = ({ s with turns := ts } : State).unitTurn := by
  simp only [step, State.advance, h, State.take]

theorem unitTurn_of_decode_error {s : State} {w : Word} {u : Undecodable} (hp : s.phase = .busy w)
    (hd : decode w = .error u) : s.unitTurn = .next (s.raise .illegalCommand w) := by
  simp only [State.unitTurn, hp, hd]

end Sys2Proof.Machine

/-! ## The obligations about the encoding -/

namespace Sys2Proof.Machine

open Sys2Proof

/-- Settles O3: opcode by opcode, the fields the decoder requires to be 0 are the rest of the row's mask; a word it
refuses ends the unit's turn in IllegalCommand. -/
theorem legalWordsAreThoseOfTheTable : Obligations.LegalWordsAreThoseOfTheTable := by
  refine ⟨decode_accepts_iff_selects_row, fun s w ts hp ht hno => ?_⟩
  rw [step_of_unit ht]
  cases hd : decode w with
  | ok i => exact absurd ((decode_accepts_iff_selects_row w).mp ⟨i, hd⟩) hno
  | error u => exact unitTurn_of_decode_error hp hd

end Sys2Proof.Machine

/-! ## Facts for the obligations about construction and transfer (40_construction.md) -/

namespace Sys2Proof.Machine

open Sys2Proof

/-! ### Bytes copied to the front of a buffer -/

/-- After n bytes were written from index 0 on: those bytes below n, the old contents from n on. -/
theorem Memory.read?_writeBytes_range (m : Memory) (f : Nat → Byte) (n k : Nat) :
    (m.writeBytes 0 ((List.range n).map f)).read? k = if k < n then some (f k) else m.read? k := by
  rw [Memory.read?_writeBytes, if_pos (Nat.zero_le k), Nat.sub_zero, List.getElem?_map]
  split_ifs with hk
  · simp [hk]
  · simp [Nat.not_lt.mp hk]

/-- A byte of STAGE that was written is read as it stands (20_memory.md R44). -/
theorem State.stageByte_of_read? {s : State} {k : Nat} {b : Byte} (h : s.stage.read? k = some b) (j : Nat) :
    s.stageByte k j = b := by
  rw [State.stageByte, h, Option.getD_some]

/-! ### The checks of a command (60_exceptions.md R102, R103) -/

/-- One check made of each register in turn raises its error when some register breaks it. -/
theorem firstError_map (broken : Reg → Bool) (e : Err) (rs : List Reg) :
    firstError (rs.map fun r => (broken r, e)) = if rs.any broken then some e else none := by
  induction rs with
  | nil => rfl
  | cons r rs ih => cases h : broken r <;> simp [h, ih]

/-- Once every operand is valid, a width above the bytes held is the first error. -/
theorem firstError_of_wide_operand {s : State} {rs : List Reg} (cs : Checks)
    (hvalid : ∀ r ∈ rs, (s.poly r).valid = true) (hwide : ∃ r ∈ rs, 8 * (s.poly r).len < (s.poly r).width) :
    firstError (s.checkOperands rs ++ cs) = some .invalidWidth := by
  have hv : (rs.any fun r => !(s.poly r).valid) = false := by simpa using hvalid
  have hw : (rs.any fun r => !(s.poly r).widthOk) = true := by simpa [PolyReg.widthOk] using hwide
  rw [State.checkOperands, firstError_append, firstError_append, firstError_map, firstError_map, hv, hw]
  rfl

theorem not_waits_of_ne_rand {i : Instr} (h : ∀ rd o, i ≠ .rand rd o) (s : State) : ¬ Waits i s :=
  fun ⟨⟨rd, o, hi⟩, _⟩ => h rd o hi

theorem exec_of_wide_operand {i : Instr} {s : State} (hvalid : ∀ r ∈ operandsOf i, (s.poly r).valid = true)
    (hwide : ∃ r ∈ operandsOf i, 8 * (s.poly r).len < (s.poly r).width) :
    exec i s = .next (s.raise .invalidWidth (encode i)) := by
  have hrand : ∀ rd o, i ≠ .rand rd o := by
    rintro rd o rfl
    simp [operandsOf] at hwide
  rw [exec_eq_command (not_waits_of_ne_rand hrand s), command_of_some (firstError_of_wide_operand _ hvalid hwide)]

/-! ### LOAD, STORE and INFO -/

theorem exec_load_of_count_gt {s : State} (rd : Reg) (d : Bool) (o : LayoutOrder) (h : s.arg0.toNat > s.cfg.capb) :
    exec (.load rd d o) s = .next (s.raise .invalidWidth (encode (.load rd d o))) :=
  command_of_some (if_pos (decide_eq_true h))

theorem exec_load_of_count_le {s : State} (rd : Reg) (d : Bool) (o : LayoutOrder) (h : s.arg0.toNat ≤ s.cfg.capb) :
    exec (.load rd d o) s = .next (effectOf (.load rd d o) s).finish :=
  command_of_none (by simpa [State.loadLen, uint32] using h)

theorem exec_store_of_readable {s : State} {ra : Reg} (h : (s.poly ra).Readable) :
    exec (.store ra) s = .next (effectOf (.store ra) s).finish :=
  command_of_none (checkOperands_one_pass h)

/-- A count that passes the check gives a declared width of 32 bits, with either D (R71). -/
theorem loadedReg_width {s : State} (rd : Reg) (d : Bool) (o : LayoutOrder) (hlegal : s.cfg.Legal)
    (h : s.arg0.toNat ≤ s.cfg.capb) :
    (loadedReg s rd d o).width = if d then 8 * s.arg0.toNat else s.arg1.toNat := by
  have hcapb : s.cfg.capb ≤ 2048 := hlegal.2
  cases d with
  | true => exact (BitVec.toNat_ofNat ..).trans (Nat.mod_eq_of_lt (show 8 * s.arg0.toNat < 2 ^ 32 by omega))
  | false => exact (BitVec.toNat_ofNat ..).trans (Nat.mod_eq_of_lt s.arg1.isLt)

/-- The bytes of the register LOAD writes (R71). -/
theorem loadedReg_read? (s : State) (rd : Reg) (d : Bool) (o : LayoutOrder) (k : Nat) :
    (loadedReg s rd d o).data.read? k =
      if k < s.arg0.toNat then some (s.stageByte k k) else (s.poly rd).data.read? k :=
  Memory.read?_writeBytes_range _ _ _ k

theorem effectOf_load_poly_same (s : State) (rd : Reg) (d : Bool) (o : LayoutOrder) :
    (effectOf (.load rd d o) s).poly rd = loadedReg s rd d o := by
  simp [effectOf]

theorem effectOf_load_poly_other (s : State) {rd r : Reg} (d : Bool) (o : LayoutOrder) (h : r ≠ rd) :
    (effectOf (.load rd d o) s).poly r = s.poly r := by
  simp [effectOf, State.setPoly_poly_other _ h]

/-- The bytes of STAGE after a STORE (R73). -/
theorem effectOf_store_read? (s : State) (ra : Reg) (k : Nat) :
    (effectOf (.store ra) s).stage.read? k =
      if k < (s.poly ra).len then some ((s.poly ra).byte k) else s.stage.read? k :=
  Memory.read?_writeBytes_range _ _ _ k

end Sys2Proof.Machine

/-! ## The obligations about construction and transfer -/

namespace Sys2Proof.Machine

open Sys2Proof

/-- Settles O10: the count is LOAD's one check, and its effect is the register `loadedReg` with the free values it may
have drawn. -/
theorem loadConstructsFromStage : Obligations.LoadConstructsFromStage := by
  intro s rd d o hlegal
  refine ⟨exec_load_of_count_gt rd d o, fun hle => ⟨_, exec_load_of_count_le rd d o hle, ?_⟩⟩
  rw [State.finish_poly, effectOf_load_poly_same]
  refine ⟨rfl, rfl, rfl, loadedReg_width rd d o hlegal hle, fun k b hk hb => ?_, fun k hk => ?_,
    (effectOf_untouched _ s).completes, fun r hr => effectOf_load_poly_other s d o hr, ⟨rfl, fun _ => rfl⟩,
    ⟨rfl, rfl, rfl⟩⟩
  · rw [loadedReg_read?, if_pos hk, State.stageByte_of_read? hb]
  · rw [loadedReg_read?, if_neg (Nat.not_lt.mpr hk)]

/-- Settles O14: the operand checks refuse a register that is not readable, validity first; the bytes stored are
`polyBytes` of the register, written from STAGE[0] on. -/
theorem storeCopiesBytesToStage : Obligations.StoreCopiesBytesToStage := by
  intro s ra
  have hself : ra ∈ operandsOf (.store ra) := List.mem_singleton_self ra
  refine ⟨fun hv => exec_of_invalid_operand ⟨ra, hself, hv⟩, fun hv hw => ?_, fun hr => ?_⟩
  · refine exec_of_wide_operand (fun r hr => ?_) ⟨ra, hself, hw⟩
    rwa [List.mem_singleton.mp hr]
  · refine ⟨_, exec_store_of_readable hr, fun k hk => ?_, fun k hk => ?_, rfl, rfl, rfl,
      (effectOf_untouched _ s).completes, fun _ => rfl, rfl⟩
    · rw [State.finish_stage, effectOf_store_read?, if_pos hk]
    · rw [State.finish_stage, effectOf_store_read?, if_neg (Nat.not_lt.mpr hk)]

/-- Settles O15: INFO makes no check, and RES1 is the descriptor, field by field. -/
theorem infoReadsTheDescriptor : Obligations.InfoReadsTheDescriptor := by
  intro s ra
  obtain ⟨hvalid, horder, hzero, hlen⟩ := descriptor_fields (s.poly ra)
  exact ⟨_, exec_info ra s, rfl, hvalid, horder, hzero, hlen, rfl,
    { completes := (effectOf_untouched _ s).completes
      polys := fun _ => rfl
      stage := ⟨rfl, fun _ => rfl⟩
      draws := rfl }⟩

end Sys2Proof.Machine

/-! ## Facts for the obligations about bit addressing (41_bit_addressing.md) -/

namespace Sys2Proof.Machine

open Sys2Proof

/-! ### Commands whose operands pass (60_exceptions.md R102, R103) -/

theorem firstError_checkOperands_of_readable {s : State} {rs : List Reg} (h : ∀ r ∈ rs, (s.poly r).Readable) :
    firstError (s.checkOperands rs) = none := by
  have hv : (rs.any fun r => !(s.poly r).valid) = false := by simpa using fun r hr => (h r hr).1
  have hw : (rs.any fun r => !(s.poly r).widthOk) = false := by
    simpa [PolyReg.widthOk] using fun r hr => (h r hr).2
  rw [State.checkOperands, firstError_append, firstError_map, firstError_map, hv, hw]
  rfl

/-- A command with readable operands raises the error of the first other check it breaks. -/
theorem exec_of_otherChecks_some {i : Instr} {s : State} {e : Err} (hrand : ∀ rd o, i ≠ .rand rd o)
    (h : ∀ r ∈ operandsOf i, (s.poly r).Readable) (he : firstError (otherChecks i s) = some e) :
    exec i s = .next (s.raise e (encode i)) := by
  rw [exec_eq_command (not_waits_of_ne_rand hrand s), command_of_some]
  rw [firstError_append, firstError_checkOperands_of_readable h, he]
  rfl

/-- A command with readable operands that breaks no other check takes its effect. -/
theorem exec_of_otherChecks_none {i : Instr} {s : State} (hrand : ∀ rd o, i ≠ .rand rd o)
    (h : ∀ r ∈ operandsOf i, (s.poly r).Readable) (hn : firstError (otherChecks i s) = none) :
    exec i s = .next (effectOf i s).finish := by
  rw [exec_eq_command (not_waits_of_ne_rand hrand s), command_of_none]
  rw [firstError_append, firstError_checkOperands_of_readable h, hn]
  rfl

/-- The operand checks of a command with one operand. -/
theorem exec_of_unreadable_operand {i : Instr} {r : Reg} (hi : operandsOf i = [r]) (s : State) :
    ((s.poly r).valid = false → exec i s = .next (s.raise .invalidOperandType (encode i))) ∧
    ((s.poly r).valid = true → (s.poly r).width > 8 * (s.poly r).len →
      exec i s = .next (s.raise .invalidWidth (encode i))) :=
  ⟨fun hv => exec_of_invalid_operand (by simpa [hi] using hv),
    fun hv hw => exec_of_wide_operand (by simpa [hi] using hv) (by simpa [hi] using hw)⟩

/-- The operand checks of a command with two operands. -/
theorem exec_of_unreadable_operands {i : Instr} {r q : Reg} (hi : operandsOf i = [r, q]) (s : State) :
    ((s.poly r).valid = false ∨ (s.poly q).valid = false →
      exec i s = .next (s.raise .invalidOperandType (encode i))) ∧
    ((s.poly r).valid = true → (s.poly q).valid = true →
      ((s.poly r).width > 8 * (s.poly r).len ∨ (s.poly q).width > 8 * (s.poly q).len) →
      exec i s = .next (s.raise .invalidWidth (encode i))) :=
  ⟨fun hv => exec_of_invalid_operand (by simpa [hi] using hv),
    fun hr hq hw => exec_of_wide_operand (by simpa [hi] using ⟨hr, hq⟩) (by simpa [hi] using hw)⟩

/-! ### GET (R80) and SET (R82) -/

theorem exec_get_of_index_outside {s : State} {ra : Reg} (h : (s.poly ra).Readable)
    (hi : s.arg0.toInt < 0 ∨ s.arg0.toInt ≥ (s.poly ra).width) :
    exec (.get ra) s = .next (s.raise .indexOutOfRange (encode (.get ra))) :=
  exec_of_otherChecks_some nofun (by simpa [operandsOf] using h) (if_pos (decide_eq_true hi))

theorem exec_get_of_index_inside {s : State} {ra : Reg} (h : (s.poly ra).Readable)
    (h0 : 0 ≤ s.arg0.toInt) (hi : s.arg0.toInt < (s.poly ra).width) :
    exec (.get ra) s = .next (effectOf (.get ra) s).finish :=
  exec_of_otherChecks_none nofun (by simpa [operandsOf] using h)
    (if_neg (by simpa [State.index, sint32] using ⟨h0, hi⟩))

/-- The checks SET makes after those on its operand: the value, then the sign of the index. -/
theorem firstError_otherChecks_set (s : State) (rd : Reg) :
    firstError (otherChecks (.set rd) s) =
      if s.arg1.toNat > 1 then some .invalidOperandType
      else if s.arg0.toInt < 0 then some .indexOutOfRange else none := by
  simp only [otherChecks, firstError_cons, firstError_nil, decide_eq_true_eq]
  rfl

theorem exec_set_of_value_gt {s : State} {rd : Reg} (h : (s.poly rd).Readable) (hv : s.arg1.toNat > 1) :
    exec (.set rd) s = .next (s.raise .invalidOperandType (encode (.set rd))) :=
  exec_of_otherChecks_some nofun (by simpa [operandsOf] using h)
    ((firstError_otherChecks_set s rd).trans (if_pos hv))

theorem exec_set_of_index_neg {s : State} {rd : Reg} (h : (s.poly rd).Readable) (hv : s.arg1.toNat ≤ 1)
    (hi : s.arg0.toInt < 0) : exec (.set rd) s = .next (s.raise .indexOutOfRange (encode (.set rd))) := by
  refine exec_of_otherChecks_some nofun (by simpa [operandsOf] using h) ?_
  rw [firstError_otherChecks_set, if_neg (not_lt.mpr hv), if_pos hi]

theorem exec_set_of_index_nonneg {s : State} {rd : Reg} (h : (s.poly rd).Readable) (hv : s.arg1.toNat ≤ 1)
    (hi : 0 ≤ s.arg0.toInt) : exec (.set rd) s = .next (effectOf (.set rd) s).finish := by
  refine exec_of_otherChecks_none nofun (by simpa [operandsOf] using h) ?_
  rw [firstError_otherChecks_set, if_neg (not_lt.mpr hv), if_neg (not_lt.mpr hi)]

theorem effectOf_set_of_index_ge {s : State} {rd : Reg} (hi : s.arg0.toInt ≥ (s.poly rd).width) :
    effectOf (.set rd) s = s := if_pos hi

theorem effectOf_set_of_index_lt {s : State} {rd : Reg} (hi : s.arg0.toInt < (s.poly rd).width) :
    effectOf (.set rd) s = s.setPoly rd ((s.poly rd).setCoef s.arg0.toInt.toNat (s.arg1 == 1)) := by
  have hv : (s.bitValue == 1) = (s.arg1 == 1) :=
    Bool.eq_iff_iff.mpr (by simpa [State.bitValue, uint32] using BitVec.toNat_inj (x := s.arg1) (y := 1#32))
  rw [← hv]
  exact if_neg (not_le.mpr hi)

/-- A command that ends without an effect writes nothing. -/
theorem writesOnly_finish (r : Reg) (s : State) : WritesOnly r s s.finish where
  completes := (Untouched.refl s).completes
  others := fun _ _ => rfl
  stage := ⟨rfl, fun _ => rfl⟩
  results := ⟨rfl, rfl, rfl⟩
  draws := rfl

/-! ### SLICE (R83) and SETR (R84) -/

/-- A fresh value is told by the coefficients inside its width. -/
theorem PolyReg.Fresh.congr {p : PolyReg} {w : Nat} {o : LayoutOrder} {f g : Nat → Bool} (h : p.Fresh w o f)
    (hfg : ∀ i, i < w → f i = g i) : p.Fresh w o g :=
  { h with coef := fun i hi => (h.coef i hi).trans (hfg i hi) }

theorem exec_slice_of_not_inRange {s : State} {ra : Reg} (rd : Reg) (h : (s.poly ra).Readable)
    (hr : ¬ s.InRange (s.poly ra).width) :
    exec (.slice rd ra) s = .next (s.raise .indexOutOfRange (encode (.slice rd ra))) :=
  exec_of_otherChecks_some nofun (by simpa [operandsOf] using h) ((firstError_seqCheck s _).2 hr)

theorem exec_slice_of_inRange {s : State} {ra : Reg} (rd : Reg) (h : (s.poly ra).Readable)
    (hr : s.InRange (s.poly ra).width) :
    exec (.slice rd ra) s = .next (s.setPoly rd (sliceOf (s.poly ra) s.positions)).finish :=
  exec_of_otherChecks_none nofun (by simpa [operandsOf] using h) ((firstError_seqCheck s _).1 hr)

/-- The polynomial SLICE writes: coefficient j is the source's at position j of the sequence. -/
theorem sliceOf_positions_fresh {s : State} {p : PolyReg} (hr : s.InRange p.width) :
    (sliceOf p s.positions).Fresh s.positions.length p.order (fun j => p.coef (s.position j)) := by
  have hlen : s.positions.length < 2 ^ 32 := (positions_length_le hr).trans_lt p.bits.isLt
  refine (make_fresh hlen p.order _).congr fun j hj => ?_
  rw [List.getD_eq_getElem _ _ hj, getElem_positions s hj]

/-- The checks SETR makes after those on its operands: orders, then the range, then the value's width. -/
theorem firstError_otherChecks_setr (s : State) (rd ra : Reg) :
    firstError (otherChecks (.setr rd ra) s) =
      (firstError (s.checkOrder ra rd)).or ((firstError (s.seqCheck (s.poly rd))).or
        (if (s.poly ra).width = s.positions.length then none else some .sizeMismatch)) := by
  simp [otherChecks, firstError_append]

/-- The value SETR scatters: coefficient j of the source, for every position j of the sequence. -/
def setrValue (s : State) (ra : Reg) : List Bool := (List.range s.positions.length).map (s.poly ra).coef

theorem setr_scatter_coef {s : State} {rd : Reg} (ra : Reg) (hr : s.InRange (s.poly rd).width) {j : Nat}
    (hj : j < s.positions.length) :
    ((s.poly rd).scatter s.positions (setrValue s ra)).coef (s.position j) = (s.poly ra).coef j := by
  obtain ⟨hstep, hlt⟩ := positions_lt ((firstError_seqCheck s _).1 hr)
  have hcoef := (scatter_coef (s.poly rd) s.positions (setrValue s ra) (by simp [setrValue])
    (seq_nodup hstep) hlt).2 j hj
  rw [← getElem_positions s hj, hcoef]
  simp [setrValue]

theorem setr_scatter_bit_other {s : State} {rd : Reg} (ra : Reg) {b k : Nat} (hk : k < 8)
    (h : ∀ j, j < s.positions.length → loc (s.position j) (s.poly rd).width (s.poly rd).order ≠ (b, k)) :
    (((s.poly rd).scatter s.positions (setrValue s ra)).byte b).getLsbD k = ((s.poly rd).byte b).getLsbD k := by
  refine scatter_bit_other _ _ _ hk fun i hi => ?_
  obtain ⟨j, hj, rfl⟩ := List.getElem_of_mem hi
  rw [getElem_positions s hj]
  exact h j hj

section
variable {s : State} {rd ra : Reg} (ha : (s.poly ra).Readable) (hd : (s.poly rd).Readable)
include ha hd

theorem readable_operands_setr : ∀ r ∈ operandsOf (.setr rd ra), (s.poly r).Readable := by
  simpa [operandsOf] using ⟨ha, hd⟩

theorem exec_setr_of_order_ne (ho : (s.poly ra).order ≠ (s.poly rd).order) :
    exec (.setr rd ra) s = .next (s.raise .invalidOperandType (encode (.setr rd ra))) := by
  refine exec_of_otherChecks_some nofun (readable_operands_setr ha hd) ?_
  rw [firstError_otherChecks_setr, checkOrder_fail ho]
  rfl

theorem exec_setr_of_not_inRange (ho : (s.poly ra).order = (s.poly rd).order)
    (hr : ¬ s.InRange (s.poly rd).width) :
    exec (.setr rd ra) s = .next (s.raise .indexOutOfRange (encode (.setr rd ra))) := by
  refine exec_of_otherChecks_some nofun (readable_operands_setr ha hd) ?_
  rw [firstError_otherChecks_setr, checkOrder_pass ho, (firstError_seqCheck s _).2 hr]
  rfl

theorem exec_setr_of_width_ne (ho : (s.poly ra).order = (s.poly rd).order) (hr : s.InRange (s.poly rd).width)
    (hw : (s.poly ra).width ≠ s.positions.length) :
    exec (.setr rd ra) s = .next (s.raise .sizeMismatch (encode (.setr rd ra))) := by
  refine exec_of_otherChecks_some nofun (readable_operands_setr ha hd) ?_
  rw [firstError_otherChecks_setr, checkOrder_pass ho, (firstError_seqCheck s _).1 hr, if_neg hw]
  rfl

theorem exec_setr_of_width_eq (ho : (s.poly ra).order = (s.poly rd).order) (hr : s.InRange (s.poly rd).width)
    (hw : (s.poly ra).width = s.positions.length) :
    exec (.setr rd ra) s =
      .next (s.setPoly rd ((s.poly rd).scatter s.positions (setrValue s ra))).finish := by
  refine exec_of_otherChecks_none nofun (readable_operands_setr ha hd) ?_
  rw [firstError_otherChecks_setr, checkOrder_pass ho, (firstError_seqCheck s _).1 hr, if_pos hw]
  rfl

end

end Sys2Proof.Machine

/-! ## The obligations about bit addressing -/

namespace Sys2Proof.Machine

open Sys2Proof

/-- Settles O16: the index is GET's one check besides the operand's, and RES0 the one thing its effect writes. -/
theorem getReadsOneCoefficient : Obligations.GetReadsOneCoefficient := by
  intro s ra
  obtain ⟨hinvalid, hwide⟩ := exec_of_unreadable_operand (i := .get ra) rfl s
  refine ⟨hinvalid, hwide, exec_get_of_index_outside, fun h h0 hi => ?_⟩
  exact ⟨_, exec_get_of_index_inside h h0 hi, bitWord_eq_ite _, rfl, rfl,
    { completes := (effectOf_untouched _ s).completes
      polys := fun _ => rfl
      stage := ⟨rfl, fun _ => rfl⟩
      draws := rfl }⟩

/-- Settles O17: the checks of the value and of the sign come first; then SET writes nothing, or the receiver with the
one bit of `setCoef`. -/
theorem setWritesOneCoefficient : Obligations.SetWritesOneCoefficient := by
  intro s rd
  obtain ⟨hinvalid, hwide⟩ := exec_of_unreadable_operand (i := .set rd) rfl s
  refine ⟨hinvalid, hwide, exec_set_of_value_gt, exec_set_of_index_neg, fun h hv hi => ?_, fun h hv h0 hi => ?_⟩
  · refine ⟨_, exec_set_of_index_nonneg h hv (by omega), ?_⟩
    rw [effectOf_set_of_index_ge hi]
    exact ⟨fun _ => rfl, writesOnly_finish rd s⟩
  · have hlt : s.arg0.toInt.toNat < (s.poly rd).width := by omega
    refine ⟨_, exec_set_of_index_nonneg h hv h0, ?_⟩
    rw [effectOf_set_of_index_lt hi, State.finish_poly, State.setPoly_poly_same]
    refine ⟨h.1, rfl, rfl, rfl, ?_, fun j hj hne => ?_, fun b k hk hne => ?_, writesOnly_setPoly _ _ _⟩
    · rw [setCoef_coef _ hlt hlt, if_pos rfl]
    · rw [setCoef_coef _ hlt hj, if_neg hne.symm]
    · rw [setCoef_bit _ _ _ _ _ hk, if_neg hne]

/-- Settles O18: the range is SLICE's one check besides the operand's, and its effect the fresh value `sliceOf`. -/
theorem sliceExtractsACondensedPolynomial : Obligations.SliceExtractsACondensedPolynomial := by
  intro s rd ra
  obtain ⟨hinvalid, hwide⟩ := exec_of_unreadable_operand (i := .slice rd ra) rfl s
  refine ⟨hinvalid, hwide, exec_slice_of_not_inRange rd, fun h hr => ?_⟩
  refine ⟨_, _, exec_slice_of_inRange rd h hr, seqHas_length hr, ?_, writesOnly_setPoly _ _ _⟩
  rw [State.finish_poly, State.setPoly_poly_same]
  exact sliceOf_positions_fresh hr

/-- Settles O19: the length of the sequence is the one m that fits, and the bits scattered are those of the value before
the write, whichever register holds it. -/
theorem setrScattersAPolynomial : Obligations.SetrScattersAPolynomial := by
  intro s rd ra
  obtain ⟨hinvalid, hwide⟩ := exec_of_unreadable_operands (i := .setr rd ra) rfl s
  refine ⟨hinvalid, hwide, exec_setr_of_order_ne, exec_setr_of_not_inRange,
    fun m ha hd ho hr hm hw => ?_, fun m ha hd ho hr hm hw => ?_⟩
  · obtain rfl := seqHas_unique hm (seqHas_length hr)
    exact exec_setr_of_width_ne ha hd ho hr hw
  · obtain rfl := seqHas_unique hm (seqHas_length hr)
    obtain ⟨hvalid, horder, hbits, hlen⟩ := scatter_keeps (s.poly rd) s.positions (setrValue s ra)
    refine ⟨_, exec_setr_of_width_eq ha hd ho hr hw, ?_⟩
    rw [State.finish_poly, State.setPoly_poly_same]
    exact ⟨hvalid.trans hd.1, horder, hbits, hlen, fun j hj => setr_scatter_coef ra hr hj,
      fun b k hk h => setr_scatter_bit_other ra hk h, writesOnly_setPoly _ _ _⟩

end Sys2Proof.Machine

/-! ## Facts for the obligations about arithmetic (42_arithmetic.md) -/

namespace Sys2Proof.Machine

open Sys2Proof

/-! ### Checks and effects the commands share (60_exceptions.md R102-R104) -/

theorem ne_rand_of_mem_operandsOf {i : Instr} {r : Reg} (h : r ∈ operandsOf i) : ∀ rd o, i ≠ .rand rd o := by
  rintro rd o rfl
  simp [operandsOf] at h

/-- A command whose first check after those on its two operands is the one on their orders. -/
theorem exec_of_order_ne {i : Instr} {s : State} {r q : Reg} {cs : Checks} (hi : operandsOf i = [r, q])
    (hcs : otherChecks i s = s.checkOrder r q ++ cs) (hr : (s.poly r).Readable) (hq : (s.poly q).Readable)
    (ho : (s.poly r).order ≠ (s.poly q).order) :
    exec i s = .next (s.raise .invalidOperandType (encode i)) := by
  refine exec_of_otherChecks_some (ne_rand_of_mem_operandsOf (r := r) (by simp [hi]))
    (by simpa [hi] using ⟨hr, hq⟩) ?_
  rw [hcs, firstError_append, checkOrder_fail ho]
  rfl

/-- A command whose checks pass and whose effect writes a fresh value to one register. -/
theorem exec_writes_fresh {i : Instr} {s : State} {rd : Reg} {p : PolyReg} {w : Nat} {o : LayoutOrder}
    {f : Nat → Bool} (hrand : ∀ rd o, i ≠ .rand rd o) (hread : ∀ r ∈ operandsOf i, (s.poly r).Readable)
    (hpass : firstError (otherChecks i s) = none) (heffect : effectOf i s = s.setPoly rd p) (hp : p.Fresh w o f) :
    ∃ t, exec i s = .next t ∧ (t.poly rd).Fresh w o f ∧ WritesOnly rd s t := by
  refine ⟨(s.setPoly rd p).finish, ?_, ?_, writesOnly_setPoly s rd p⟩
  · rw [exec_of_otherChecks_none hrand hread hpass, heffect]
  · rwa [State.finish_poly, State.setPoly_poly_same]

/-- A width that passes the check against WMAX fits the `bits` field (R7). -/
theorem lt_two_pow_of_le_wmax {c : Config} (h : c.Legal) {w : Nat} (hw : w ≤ 8 * c.capb) : w < 2 ^ 32 := by
  have hcapb : c.capb ≤ 2048 := h.2
  omega

/-! ### XOR (R90) -/

theorem coefOrZero_eq (p : PolyReg) (i : Nat) : p.coefOrZero i = (decide (i < p.width) && p.coef i) := by
  by_cases h : i < p.width <;> simp [PolyReg.coefOrZero, h]

theorem xorOf_fresh (a b : PolyReg) :
    (xorOf a b).Fresh (max a.width b.width) a.order
      (fun i => (decide (i < a.width) && a.coef i) ^^ (decide (i < b.width) && b.coef i)) :=
  (make_fresh (max_lt a.bits.isLt b.bits.isLt) a.order _).congr fun i _ => by
    rw [coefOrZero_eq, coefOrZero_eq]

/-! ### SHL (R91) -/

theorem exec_shl_of_width_gt {s : State} {ra : Reg} (rd : Reg) (h : (s.poly ra).Readable)
    (hw : (s.poly ra).width + s.arg0.toNat > 8 * s.cfg.capb) :
    exec (.shl rd ra) s = .next (s.raise .invalidWidth (encode (.shl rd ra))) :=
  exec_of_otherChecks_some nofun (by simpa [operandsOf] using h) (if_pos (decide_eq_true hw))

theorem firstError_otherChecks_shl_of_width_le {s : State} {ra : Reg} (rd : Reg)
    (hw : (s.poly ra).width + s.arg0.toNat ≤ 8 * s.cfg.capb) : firstError (otherChecks (.shl rd ra) s) = none :=
  if_neg (by simpa [Config.wmax, State.shiftAmount, uint32] using hw)

theorem shiftOf_fresh (a : PolyReg) {n : Nat} (h : a.width + n < 2 ^ 32) :
    (shiftOf a n).Fresh (a.width + n) a.order (fun i => decide (n ≤ i) && a.coef (i - n)) :=
  (make_fresh h a.order _).congr fun i _ => by
    by_cases hi : n ≤ i <;> simp [hi]

/-! ### MUL (R92) -/

/-- The checks MUL makes after those on its operands: the orders, then the width of the product. -/
theorem firstError_otherChecks_mul {s : State} {ra rb : Reg} (rd : Reg)
    (ho : (s.poly ra).order = (s.poly rb).order) :
    firstError (otherChecks (.mul rd ra rb) s) =
      if mulWidth (s.poly ra) (s.poly rb) > 8 * s.cfg.capb then some .invalidWidth else none := by
  simp [otherChecks, firstError_append, checkOrder_pass ho, Config.wmax]

theorem exec_mul_of_width_gt {s : State} {ra rb : Reg} (rd : Reg) (ha : (s.poly ra).Readable)
    (hb : (s.poly rb).Readable) (ho : (s.poly ra).order = (s.poly rb).order)
    (hw : mulWidth (s.poly ra) (s.poly rb) > 8 * s.cfg.capb) :
    exec (.mul rd ra rb) s = .next (s.raise .invalidWidth (encode (.mul rd ra rb))) :=
  exec_of_otherChecks_some nofun (by simpa [operandsOf] using ⟨ha, hb⟩)
    ((firstError_otherChecks_mul rd ho).trans (if_pos hw))

/-- Term k of coefficient i of the product: `b[k] AND a[i - k]`, 0 outside a's width. -/
def mulTerm (a b : PolyReg) (i k : Nat) : Bool :=
  b.coef k && decide (k ≤ i ∧ i - k < a.width) && a.coef (i - k)

/-- The XOR of the bits `p k` is 1 when an odd number of them are. -/
theorem foldl_xor_eq_odd_countP (p : Nat → Bool) (l : List Nat) (b : Bool) :
    l.foldl (fun acc k => acc ^^ p k) b = (b ^^ decide (l.countP p % 2 = 1)) := by
  induction l generalizing b with
  | nil => simp
  | cons k l ih =>
    rw [List.foldl_cons, ih]
    cases hp : p k with
    | false => simp [hp]
    | true =>
      have hflip : decide ((l.countP p + 1) % 2 = 1) = !decide (l.countP p % 2 = 1) := by
        rw [← decide_not, decide_eq_decide]
        omega
      rw [List.countP_cons_of_pos hp, hflip, Bool.xor_true, Bool.not_xor, Bool.xor_not]

theorem mulCoef_eq_odd_countP (a b : PolyReg) (i : Nat) :
    mulCoef a b i = decide ((List.range b.width).countP (mulTerm a b i) % 2 = 1) := by
  have hterm : ∀ k, (if b.coef k then if k ≤ i then a.coefOrZero (i - k) else false else false) =
      mulTerm a b i k := by
    intro k
    rw [mulTerm, coefOrZero_eq]
    by_cases hb : b.coef k <;> by_cases hk : k ≤ i <;> simp [hb, hk]
  simp only [mulCoef, hterm, foldl_xor_eq_odd_countP, Bool.false_xor]

theorem mulOf_fresh {a b : PolyReg} (h : mulWidth a b < 2 ^ 32) :
    (mulOf a b).Fresh (mulWidth a b) a.order
      (fun i => decide ((List.range b.width).countP (mulTerm a b i) % 2 = 1)) :=
  (make_fresh h a.order _).congr fun i _ => mulCoef_eq_odd_countP a b i

/-! ### MULS (R93) -/

theorem exec_muls_of_scalar_gt {s : State} {ra : Reg} (rd : Reg) (h : (s.poly ra).Readable)
    (hs : s.arg0.toNat > 1) :
    exec (.muls rd ra) s = .next (s.raise .invalidOperandType (encode (.muls rd ra))) :=
  exec_of_otherChecks_some nofun (by simpa [operandsOf] using h) (if_pos (decide_eq_true hs))

theorem firstError_otherChecks_muls_of_scalar_le {s : State} (rd ra : Reg) (hs : s.arg0.toNat ≤ 1) :
    firstError (otherChecks (.muls rd ra) s) = none :=
  if_neg (by simpa [State.scalar, uint32] using hs)

theorem scalar_beq_one (s : State) : (s.scalar == 1) = (s.arg0 == 1) :=
  Bool.eq_iff_iff.mpr (by simpa [State.scalar, uint32] using BitVec.toNat_inj (x := s.arg0) (y := 1#32))

theorem scaleOf_fresh (a : PolyReg) (v : Bool) : (scaleOf a v).Fresh a.width a.order (fun i => v && a.coef i) :=
  make_fresh a.bits.isLt a.order _

/-! ### DIVT (R94) -/

theorem exec_divt_of_order_eq {s : State} {ra rb : Reg} (ha : (s.poly ra).Readable) (hb : (s.poly rb).Readable)
    (ho : (s.poly ra).order = (s.poly rb).order) :
    exec (.divt ra rb) s = .next (effectOf (.divt ra rb) s).finish :=
  exec_of_otherChecks_none nofun (by simpa [operandsOf] using ⟨ha, hb⟩) (checkOrder_pass ho)

theorem bitWord_dividesInto (a b : PolyReg) : bitWord (dividesInto a b) = if b.hsb ≤ a.hsb then 1 else 0 := by
  simp [bitWord_eq_ite, dividesInto]

end Sys2Proof.Machine

/-! ## The obligations about arithmetic -/

namespace Sys2Proof.Machine

open Sys2Proof

/-- Settles O21: the orders are XOR's one check besides the operands', and its effect the fresh value `xorOf`. -/
theorem xorAddsCoefficientwise : Obligations.XorAddsCoefficientwise := by
  intro s rd ra rb
  obtain ⟨hinvalid, hwide⟩ := exec_of_unreadable_operands (i := .xor rd ra rb) rfl s
  refine ⟨hinvalid, hwide, exec_of_order_ne (cs := []) rfl rfl, fun ha hb ho => ?_⟩
  exact exec_writes_fresh nofun (by simpa [operandsOf] using ⟨ha, hb⟩) (checkOrder_pass ho) rfl (xorOf_fresh _ _)

/-- Settles O22: the width is SHL's one check besides the operand's, and a width that passes it is not cut off in
`bits`. -/
theorem shlMultipliesByAPower : Obligations.ShlMultipliesByAPower := by
  intro s rd ra hlegal
  obtain ⟨hinvalid, hwide⟩ := exec_of_unreadable_operand (i := .shl rd ra) rfl s
  refine ⟨hinvalid, hwide, exec_shl_of_width_gt rd, fun h hw => ?_⟩
  exact exec_writes_fresh nofun (by simpa [operandsOf] using h) (firstError_otherChecks_shl_of_width_le rd hw) rfl
    (shiftOf_fresh _ (lt_two_pow_of_le_wmax hlegal hw))

/-- Settles O23: the orders come before the width of the product, and an XOR of terms is 1 when an odd number of them
are. -/
theorem mulIsTheCarrylessProduct : Obligations.MulIsTheCarrylessProduct := by
  intro s rd ra rb hlegal
  obtain ⟨hinvalid, hwide⟩ := exec_of_unreadable_operands (i := .mul rd ra rb) rfl s
  refine ⟨hinvalid, hwide, exec_of_order_ne rfl rfl, exec_mul_of_width_gt rd, fun ha hb ho hw => ?_⟩
  exact exec_writes_fresh nofun (by simpa [operandsOf] using ⟨ha, hb⟩)
    ((firstError_otherChecks_mul rd ho).trans (if_neg (not_lt.mpr hw))) rfl
    (mulOf_fresh (lt_two_pow_of_le_wmax hlegal hw))

/-- Settles O24: the scalar is MULS's one check besides the operand's, and its effect the fresh value `scaleOf`. -/
theorem mulsMultipliesByOneBit : Obligations.MulsMultipliesByOneBit := by
  intro s rd ra
  obtain ⟨hinvalid, hwide⟩ := exec_of_unreadable_operand (i := .muls rd ra) rfl s
  refine ⟨hinvalid, hwide, exec_muls_of_scalar_gt rd, fun h hs => ?_⟩
  rw [← scalar_beq_one]
  exact exec_writes_fresh nofun (by simpa [operandsOf] using h) (firstError_otherChecks_muls_of_scalar_le rd ra hs) rfl
    (scaleOf_fresh _ _)

/-- Settles O25: the orders are DIVT's one check besides the operands', and its effect writes the one comparison to
FLAG and to RES0. -/
theorem divtComparesHighestBits : Obligations.DivtComparesHighestBits := by
  intro s ra rb
  obtain ⟨hinvalid, hwide⟩ := exec_of_unreadable_operands (i := .divt ra rb) rfl s
  refine ⟨hinvalid, hwide, exec_of_order_ne (cs := []) rfl rfl, fun ha hb ho => ?_⟩
  exact ⟨_, exec_divt_of_order_eq ha hb ho, rfl, bitWord_dividesInto _ _, rfl,
    { completes := (effectOf_untouched _ s).completes
      polys := fun _ => rfl
      stage := ⟨rfl, fun _ => rfl⟩
      draws := rfl }⟩

end Sys2Proof.Machine

/-! ## Facts for the obligations about exceptions (60_exceptions.md) -/

namespace Sys2Proof

/-! ### The word of a decoded command (R57, R60) -/

theorem requireZero_eq_ok_iff {z : Bool} {i j : Instr} : requireZero z i = .ok j ↔ z = true ∧ i = j := by
  cases z <;> simp [requireZero]

/-- A word is packed from the values its fields hold. -/
theorem pack_of_fields {w opc : Word} {rd ra rb : Reg} {d o : Bool} (hopc : opcField w = opc.toNat)
    (hrd : rdField w = rd) (hra : raField w = ra) (hrb : rbField w = rb) (hres : reservedField w = 0)
    (hd : dField w = d) (ho : (oField w).isLittle = o) : pack opc rd ra rb d o = w := by
  subst hrd hra hrb hd ho
  have hw := pack_fields w hres
  rwa [hopc, BitVec.ofNat_toNat, BitVec.setWidth_eq] at hw

/-- ERRCMD as a command writes it is the accepted word (log 8): the decoder reads every field or requires it to be 0. -/
theorem encode_of_decode_ok {w : Word} {i : Instr} (h : decode w = .ok i) : encode i = w := by
  simp only [decode] at h
  split at h
  case h_14 => contradiction  -- no opcode of the table
  all_goals
    rename_i hopc
    obtain ⟨hz, rfl⟩ := requireZero_eq_ok_iff.mp h
    simp only [Bool.and_eq_true, beq_iff_eq, Bool.not_eq_true'] at hz
    exact pack_of_fields (by simpa using hopc) (by simp [hz]) (by simp [hz]) (by simp [hz]) (by simp [hz])
      (by simp [hz]) (by simp [hz, LayoutOrder.isLittle])

end Sys2Proof

namespace Sys2Proof.Machine

open Sys2Proof

/-! ### The unit's turn (R100, R106) -/

theorem unitTurn_of_decode_ok {s : State} {w : Word} {i : Instr} (hp : s.phase = .busy w)
    (hd : decode w = .ok i) : s.unitTurn = exec i s := by
  simp only [State.unitTurn, hp, hd]

theorem unitTurn_of_idle {s : State} (hp : s.phase = .idle) : s.unitTurn = .next s := by
  simp only [State.unitTurn, hp]

/-- ERR is set by the error entry alone, and ERRCMD is then the accepted word (R32, R100). -/
theorem unitTurn_sets_err {s t : State} (h : s.unitTurn = .next t) (hs : s.err = false) (ht : t.err = true) :
    ∃ w e, s.phase = .busy w ∧ t = s.raise e w := by
  rcases unitTurn_cases h with ⟨rfl, -⟩ | ⟨w, e, hp, rfl | ⟨i, hd, rfl⟩⟩ | ⟨w, i, -, -, -, hc⟩
  · simp [hs] at ht
  · exact ⟨w, e, hp, rfl⟩
  · exact ⟨w, e, hp, by rw [encode_of_decode_ok hd]⟩
  · simp [hc.err, hs] at ht

/-- After the unit's turn a command is in flight only if it is a RAND that waits (R106, R127). -/
theorem unitTurn_ends {s t : State} (h : s.unitTurn = .next t) :
    t.busy = false ∨ (s.bsReq = true ∧ t = s) := by
  rcases unitTurn_cases h with ⟨rfl, hb | hr⟩ | ⟨w, e, -, rfl | ⟨i, -, rfl⟩⟩ | ⟨w, i, -, -, -, hc⟩
  · exact .inl hb
  · exact .inr ⟨hr, rfl⟩
  · exact .inl rfl
  · exact .inl rfl
  · exact .inl (State.busy_idle hc.idle)

/-! ### CMD and STATUS writes (R105, R106) -/

theorem acceptCommand_of_err {s : State} (h : s.err = true) (w : Word) : s.acceptCommand w = s := if_pos h

theorem acceptCommand_of_no_err {s : State} (h : s.err = false) (w : Word) :
    s.acceptCommand w = { s with phase := .busy w } := if_neg (by simp [h])

theorem writeStatus_of_bit {w : Word} (h : w.getLsbD 1 = true) (s : State) : s.writeStatus w = s.clearErr := if_pos h

theorem writeStatus_of_no_bit {w : Word} (h : w.getLsbD 1 = false) (s : State) : s.writeStatus w = s :=
  if_neg (by rw [h]; decide)

/-- A CMD write to an idle unit with ERR = 1 is dropped (R106). -/
theorem step_cmdWrite_dropped {s : State} {w : Word} {rest : List Access} {ts : List Turn} (hp : s.phase = .idle)
    (he : s.err = true) (h : s.hostIsNext (w32 0x000 w) rest ts) : step s = .next (s.offBus rest ts .writeDone) := by
  rw [step_w32_register hp h (by decide) (by decide)]
  exact congrArg (fun u => Host.Outcome.next (State.respond u .writeDone))
    (acceptCommand_of_err (s := { s with turns := ts, host := rest, held := false }) he w)

/-- A CMD write to an idle unit with ERR = 0 is accepted (R106). -/
theorem step_cmdWrite_accepted {s : State} {w : Word} {rest : List Access} {ts : List Turn} (hp : s.phase = .idle)
    (he : s.err = false) (h : s.hostIsNext (w32 0x000 w) rest ts) :
    step s = .next { s.offBus rest ts .writeDone with phase := .busy w } := by
  rw [step_w32_register hp h (by decide) (by decide)]
  exact congrArg (fun u => Host.Outcome.next (State.respond u .writeDone))
    (acceptCommand_of_no_err (s := { s with turns := ts, host := rest, held := false }) he w)

/-- A STATUS write with bit 1 set to an idle unit clears ERR and nothing else of the unit (R105). -/
theorem step_statusWrite_clears {s : State} {v : Word} {rest : List Access} {ts : List Turn} (hp : s.phase = .idle)
    (h : s.hostIsNext (w32 0x004 v) rest ts) (hv : v.getLsbD 1 = true) :
    step s = .next { s.offBus rest ts .writeDone with err := false } := by
  rw [step_w32_register hp h (by decide) (by decide)]
  exact congrArg (fun u => Host.Outcome.next (State.respond u .writeDone)) (writeStatus_of_bit hv _)

/-! ### The host while ERR = 1 (R105) -/

/-- While ERR = 1 a register write keeps the phase, and only a STATUS write with bit 1 set clears ERR. -/
theorem writeReg_of_err {s : State} (he : s.err = true) (off : Nat) (v : Word) :
    (s.writeReg off v).phase = s.phase ∧
      ((s.writeReg off v).err = false → off = 0x004 ∧ v.getLsbD 1 = true) := by
  unfold State.writeReg
  split
  · rw [acceptCommand_of_err he]
    simp [he]
  · cases hv : v.getLsbD 1
    · simp [writeStatus_of_no_bit hv, he]
    · simp [writeStatus_of_bit hv]
  all_goals simp [he]

/-- While ERR = 1 an access keeps the phase, and only a STATUS write with bit 1 set clears ERR. -/
theorem access_of_err {s : State} (he : s.err = true) (a : Access) :
    (s.access a).phase = s.phase ∧
      ((s.access a).err = false → a.we = true ∧ a.off = 0x004 ∧ a.wdata.getLsbD 1 = true) := by
  unfold State.access
  split_ifs with _ _ hw
  · simp [he]
  · simpa [hw] using writeReg_of_err he a.off a.wdata
  all_goals simp [State.stageWrite, he]

/-- While ERR = 1 the host's turn keeps the phase, and only a STATUS write with bit 1 set clears ERR. -/
theorem hostTurn_of_err {s : State} (he : s.err = true) :
    s.hostTurn.phase = s.phase ∧ (s.hostTurn.err = false →
      ∃ a rest, s.host = a :: rest ∧ a.we = true ∧ a.off = 0x004 ∧ a.wdata.getLsbD 1 = true) := by
  cases hh : s.host with
  | nil => simp [State.hostTurn, hh, he]
  | cons a rest =>
    rw [hostTurn_cons hh]
    split_ifs
    · obtain ⟨hp, hc⟩ := access_of_err (s := { s with host := rest, held := false }) he a
      exact ⟨hp, fun h => ⟨a, rest, rfl, hc h⟩⟩
    · simp [he]

end Sys2Proof.Machine

/-! ## The obligations about exceptions -/

namespace Sys2Proof.Machine

open Sys2Proof

/-- Settles O8: the unit's turn sets ERR only by the error entry, and that writes nothing else. -/
theorem anErrorChangesOnlyTheErrorRecord : Obligations.AnErrorChangesOnlyTheErrorRecord := by
  intro s t ts hts h hs ht
  rw [step_of_unit hts] at h
  obtain ⟨w, e, hp, rfl⟩ := unitTurn_sets_err h hs ht
  exact ⟨w, e, hp, rfl, rfl, rfl, rfl, rfl, rfl, rfl, rfl, rfl, rfl, rfl, rfl, fun _ => rfl, rfl, rfl, rfl, rfl, rfl,
    rfl⟩

/-- Settles O43: ERR decides between dropped and accepted, BUSY holds the write, and the unit's turn ends every command
but a RAND that waits. -/
theorem commandAcceptance : Obligations.CommandAcceptance := by
  intro s ts
  refine ⟨fun w rest h => ⟨fun hp he => step_cmdWrite_dropped hp he h, fun hp he => step_cmdWrite_accepted hp he h,
    fun hb => step_host_held h hb rfl⟩, fun w hp hts => ?_⟩
  have hstep := step_of_unit hts
  obtain ⟨t, ht⟩ := unitTurn_answers { s with turns := ts }
  exact ⟨fun i hd => hstep.trans (unitTurn_of_decode_ok hp hd),
    fun u hd => hstep.trans (unitTurn_of_decode_error hp hd), t, hstep.trans ht, unitTurn_ends ht⟩

/-- Settles O44: turn by turn, only the host's STATUS write with bit 1 set or a reset clears ERR, and none but a reset
changes the error record. -/
theorem clearingAnError : Obligations.ClearingAnError := by
  refine ⟨fun s v rest ts hp h hv => step_statusWrite_clears hp h hv,
    fun s w rest ts hp he h => ⟨_, step_cmdWrite_accepted hp he h, rfl⟩, fun s t hp he h hr => ?_⟩
  obtain ⟨u, ⟨ts, rfl⟩, rfl | ⟨b, rfl⟩ | hu | ⟨-, hreset⟩⟩ := step_cases h
  · obtain ⟨hphase, hclear⟩ := hostTurn_of_err (s := { s with turns := ts }) he
    obtain ⟨hpolys, -, -, -, hcode, hcmd, -⟩ := hostTurn_keeps { s with turns := ts }
    exact ⟨hphase.trans hp, hcode, hcmd, hpolys, hclear⟩
  · rw [byteTurn_keeps]
    exact ⟨hp, rfl, rfl, rfl, by simp [he]⟩
  · rw [unitTurn_of_idle (s := { s with turns := ts }) hp] at hu
    cases hu
    exact ⟨hp, rfl, rfl, rfl, by simp [he]⟩
  · exact absurd hreset hr

end Sys2Proof.Machine

/-! ## Facts for the obligations about decode and encode (30_encoding.md) -/

namespace Sys2Proof

/-! ### Reading a command back from its word (R57, R60) -/

/-- The O bit of a packed word is the order it was packed from. -/
theorem oField_pack_isLittle (opc : Word) (rd ra rb : Reg) (d : Bool) (o : LayoutOrder) :
    oField (pack opc rd ra rb d o.isLittle) = o := by
  rw [oField_pack]
  cases o <;> rfl

/-- An unused O bit is 0, and a packed 0 reads as BIG. -/
theorem oField_pack_false (opc : Word) (rd ra rb : Reg) (d : Bool) : oField (pack opc rd ra rb d false) = .big :=
  oField_pack ..

/-- The decoder finds the opcode and every field where `pack` put them, and 0 in the fields the row does not use. -/
theorem decode_encode (i : Instr) : decode (encode i) = .ok i := by
  cases i with
  | load rd d o | rand rd o =>
    simp [encode, decode, requireZero, opcField_pack, rdField_pack, raField_pack, rbField_pack, reservedField_pack,
      dField_pack, oField_pack_isLittle]
  | store ra | info ra | get ra | set rd | slice rd ra | setr rd ra | xor rd ra rb | shl rd ra | mul rd ra rb
  | muls rd ra | divt ra rb =>
    simp [encode, decode, requireZero, opcField_pack, rdField_pack, raField_pack, rbField_pack, reservedField_pack,
      dField_pack, oField_pack_false]

/-! ### The rows of R60 are apart -/

/-- A row is told by its opcode. -/
theorem row_eq_of_opcField_eq {a b : OpcodeRow} (ha : a ∈ opcodeRows) (hb : b ∈ opcodeRows)
    (h : opcField a.pattern = opcField b.pattern) : a = b := by
  have hall : ∀ a ∈ opcodeRows, ∀ b ∈ opcodeRows, opcField a.pattern = opcField b.pattern → a = b := by decide
  exact hall a ha b hb h

/-- A row is told by its mnemonic. -/
theorem row_eq_of_mnemonic_eq {a b : OpcodeRow} (ha : a ∈ opcodeRows) (hb : b ∈ opcodeRows)
    (h : a.mnemonic = b.mnemonic) : a = b := by
  have hall : ∀ a ∈ opcodeRows, ∀ b ∈ opcodeRows, a.mnemonic = b.mnemonic → a = b := by decide
  exact hall a ha b hb h

theorem selects_iff (r : OpcodeRow) (w : Word) : r.selects w = true ↔ w &&& r.mask = r.pattern := beq_iff_eq

/-- The word of a command selects the row that bears its mnemonic. -/
theorem exists_row_selects_encode (i : Instr) :
    ∃ r ∈ opcodeRows, r.mnemonic = i.mnemonic ∧ r.selects (encode i) = true := by
  have hrow : Laws.EncodingSelectsItsOpcode.Statement i := by
    cases i with
    | load rd d o => exact Laws.EncodingSelectsItsOpcode.load rd d o
    | rand rd o => exact Laws.EncodingSelectsItsOpcode.rand rd o
    | store ra => exact Laws.EncodingSelectsItsOpcode.store ra
    | info ra => exact Laws.EncodingSelectsItsOpcode.info ra
    | get ra => exact Laws.EncodingSelectsItsOpcode.get ra
    | set rd => exact Laws.EncodingSelectsItsOpcode.set rd
    | slice rd ra => exact Laws.EncodingSelectsItsOpcode.slice rd ra
    | setr rd ra => exact Laws.EncodingSelectsItsOpcode.setr rd ra
    | xor rd ra rb => exact Laws.EncodingSelectsItsOpcode.xor rd ra rb
    | shl rd ra => exact Laws.EncodingSelectsItsOpcode.shl rd ra
    | mul rd ra rb => exact Laws.EncodingSelectsItsOpcode.mul rd ra rb
    | muls rd ra => exact Laws.EncodingSelectsItsOpcode.muls rd ra
    | divt ra rb => exact Laws.EncodingSelectsItsOpcode.divt ra rb
  obtain ⟨⟨r, hr, hm, hopc⟩, -⟩ := hrow
  exact ⟨r, hr, hm, (selects_iff r _).mpr ((decode_accepts_iff_selects hr hopc).mp ⟨i, decode_encode i⟩)⟩

/-- No word selects two rows: each row's mask covers OPC. -/
theorem row_eq_of_selects {a b : OpcodeRow} (ha : a ∈ opcodeRows) (hb : b ∈ opcodeRows) {w : Word}
    (hwa : a.selects w = true) (hwb : b.selects w = true) : a = b :=
  row_eq_of_opcField_eq ha hb <|
    (opcField_of_selects ha ((selects_iff a w).mp hwa)).symm.trans (opcField_of_selects hb ((selects_iff b w).mp hwb))

end Sys2Proof

/-! ## The obligations about decode and encode -/

namespace Sys2Proof.Machine

open Sys2Proof

/-- Settles O1: every field is read where `pack` put it. -/
theorem decodeInvertsEncode : Obligations.DecodeInvertsEncode := decode_encode

/-- Settles O2: the decoder reads every field of the word or requires it to be 0. -/
theorem encodeInvertsDecode : Obligations.EncodeInvertsDecode := fun _ _ => encode_of_decode_ok

/-- Settles O4: a row is told by its opcode, which its mask covers, and by its mnemonic. -/
theorem eachWordHasOneRow : Obligations.EachWordHasOneRow := by
  refine ⟨fun w a ha b hb hwa hwb => row_eq_of_selects ha hb hwa hwb, fun i r hr => ?_⟩
  obtain ⟨q, hq, hm, hsel⟩ := exists_row_selects_encode i
  constructor
  · intro h
    rw [row_eq_of_selects hr hq h hsel, hm]
  · intro h
    rw [row_eq_of_mnemonic_eq hr hq (h.trans hm.symm), hsel]

/-- Settles O5: the words of the table are literals; a listed illegal word ends the unit's turn in IllegalCommand, as
any word the decoder refuses does. -/
theorem workedEncodings : Obligations.WorkedEncodings := by
  refine ⟨by decide, fun w hw s hp => ?_⟩
  simp only [List.mem_cons, List.not_mem_nil, or_false] at hw
  rcases hw with rfl | rfl | rfl | rfl | rfl | rfl
  · exact unitTurn_of_decode_error hp (show decode 0x00000000 = .error .unassignedOpcode by decide)
  · exact unitTurn_of_decode_error hp (show decode 0x05000000 = .error .unassignedOpcode by decide)
  · exact unitTurn_of_decode_error hp (show decode 0x20000004 = .error .mustBeZero by decide)
  · exact unitTurn_of_decode_error hp (show decode 0x21001000 = .error .mustBeZero by decide)
  · exact unitTurn_of_decode_error hp (show decode 0x02000002 = .error .mustBeZero by decide)
  · exact unitTurn_of_decode_error hp (show decode 0x24100000 = .error .mustBeZero by decide)

end Sys2Proof.Machine

/-! ## Facts for the invariant of the machine -/

namespace Sys2Proof.Machine

open Sys2Proof

/-! ### Bytes within the buffer (10_state.md R20, 20_memory.md R44) -/

theorem Memory.Within.write {m : Memory} {capb : Nat} (h : m.Within capb) {a : Nat} (ha : a < capb) (v : Byte) :
    (m.write a v).Within capb := by
  refine ⟨Memory.write_wf h.1 a v, fun c hc => ?_⟩
  rcases Memory.mem_write hc with rfl | hc
  · exact ha
  · exact h.2 c hc

theorem Memory.Within.writeBytes {m : Memory} {capb : Nat} (h : m.Within capb) {vs : List Byte}
    (hvs : vs.length ≤ capb) : (m.writeBytes 0 vs).Within capb := by
  refine ⟨Memory.writeBytes_wf h.1 0 vs, fun c hc => ?_⟩
  rcases Memory.mem_writeBytes hc with hlt | hc
  · omega
  · exact h.2 c hc

/-- Bytes written from index 0 on are known, below their number. -/
theorem Memory.isSome_read?_writeBytes (m : Memory) {vs : List Byte} {b : Nat} (hb : b < vs.length) :
    ((m.writeBytes 0 vs).read? b).isSome = true := by
  rw [Memory.read?_writeBytes, if_pos (Nat.zero_le b), Nat.sub_zero, List.getElem?_eq_getElem hb]
  rfl

/-- A write to STAGE through the window stays below CAPB (R45). -/
theorem stageWrite_within {s : State} (h : s.stage.Within s.cfg.capb) (k n : Nat) (w : Word) :
    (s.stageWrite k n w).stage.Within s.cfg.capb := by
  rw [State.stageWrite, State.setStage_stage]
  induction n with
  | zero => exact h
  | succ n ih =>
    rw [List.range_succ, List.foldl_append, List.foldl_cons, List.foldl_nil]
    split_ifs with hk
    · exact ih.write hk _
    · exact ih

/-! ### The registers a command writes (10_state.md R20, R21, R26) -/

/-- A readable register that meets the invariant is no wider than WMAX. -/
theorem PolyReg.Inv.width_le {p : PolyReg} {capb : Nat} (h : p.Inv capb) (hr : p.Readable) : p.width ≤ 8 * capb :=
  hr.2.trans (Nat.mul_le_mul_left 8 h.len)

/-- A register with n fresh bytes from index 0 on, as LOAD and RAND leave it. -/
theorem PolyReg.Inv.of_writeBytes {q p : PolyReg} {capb : Nat} (hq : q.Inv capb) {vs : List Byte}
    (hvalid : p.valid = true) (hlen : p.len = vs.length) (hdata : p.data = q.data.writeBytes 0 vs)
    (hcap : vs.length ≤ capb) : p.Inv capb where
  len := hlen ▸ hcap
  data := hdata ▸ hq.data.writeBytes hcap
  known := fun b hb => hdata ▸ Memory.isSome_read?_writeBytes _ (hlen ▸ hb)
  invalid := fun hv => by simp [hvalid] at hv

/-- A RAND that waits no more has its bytes, or a width that raises InvalidWidth (R72). -/
theorem randLen_le_of_not_waits {rd : Reg} {o : LayoutOrder} {s : State} (h : ¬ Waits (.rand rd o) s)
    (hw : s.randWidth ≤ s.cfg.wmax) : s.randLen ≤ s.received.length :=
  Nat.le_of_not_lt fun hlt => h ⟨⟨rd, o, rfl⟩, hw, hlt⟩

/-- The checks of a command that passed: its operands are readable and it broke no other check (R103). -/
theorem checks_passed {s : State} {rs : List Reg} {cs : Checks} (h : firstError (s.checkOperands rs ++ cs) = none) :
    (∀ r ∈ rs, (s.poly r).Readable) ∧ firstError cs = none := by
  rw [firstError_append, Option.or_eq_none_iff, State.checkOperands, firstError_append, Option.or_eq_none_iff,
    firstError_map, firstError_map] at h
  obtain ⟨⟨hv, hw⟩, hcs⟩ := h
  refine ⟨fun r hr => ?_, hcs⟩
  simp only [ite_eq_right_iff, reduceCtorEq, imp_false, List.any_eq_true, Bool.not_eq_true', not_exists, not_and,
    Bool.not_eq_false] at hv hw
  exact (readable_iff _).mpr ⟨hv r hr, hw r hr⟩

/-- The inversion of exec, with the checks a command that completes has passed. -/
theorem exec_passed_cases {i : Instr} {s t : State} (h : exec i s = .next t) :
    (Waits i s ∧ t = s) ∨ (∃ e, t = s.raise e (encode i)) ∨
    (¬ Waits i s ∧ (∀ r ∈ operandsOf i, (s.poly r).Readable) ∧ firstError (otherChecks i s) = none ∧
      t = (effectOf i s).finish) := by
  by_cases hw : Waits i s
  · rw [exec_of_waits hw] at h
    injection h with h
    exact .inl ⟨hw, h.symm⟩
  · rw [exec_eq_command hw] at h
    rcases command_cases h with ⟨e, _, rfl⟩ | ⟨hpass, rfl⟩
    · exact .inr (.inl ⟨e, rfl⟩)
    · obtain ⟨hread, hother⟩ := checks_passed hpass
      exact .inr (.inr ⟨hw, hread, hother, rfl⟩)

/-- The registers stay as the invariant asks when one of them is written with a register as it asks. -/
theorem polys_inv_setPoly {s : State} {capb : Nat} (h : ∀ r, (s.poly r).Inv capb) {rd : Reg} {p : PolyReg}
    (hp : p.Inv capb) (r : Reg) : ((s.setPoly rd p).poly r).Inv capb := by
  rw [State.setPoly_poly]
  split_ifs
  · exact hp
  · exact h r

/-- A command that passed its checks leaves every register as the invariant asks. -/
theorem effectOf_polys_inv {i : Instr} {s : State} (h : s.Inv) (hw : ¬ Waits i s)
    (hread : ∀ r ∈ operandsOf i, (s.poly r).Readable) (hpass : firstError (otherChecks i s) = none) (r : Reg) :
    ((effectOf i s).poly r).Inv s.cfg.capb := by
  have fits : ∀ q ∈ operandsOf i, (s.poly q).width ≤ 8 * s.cfg.capb := fun q hq => (h.polys q).width_le (hread q hq)
  cases i with
  | load rd d o =>
    have hle : s.loadLen ≤ s.cfg.capb := by simpa [otherChecks] using hpass
    exact polys_inv_setPoly (p := loadedReg s rd d o) h.polys
      ((h.polys rd).of_writeBytes (vs := s.stageBytes s.loadLen) rfl (by simp [loadedReg, State.stageBytes]) rfl
        (by simpa [State.stageBytes] using hle)) r
  | rand rd o =>
    have hle : s.randWidth ≤ s.cfg.wmax := by simpa [otherChecks] using hpass
    have hbytes : s.randLen ≤ s.received.length := randLen_le_of_not_waits hw hle
    exact polys_inv_setPoly h.polys
      ((h.polys rd).of_writeBytes (vs := s.received.take s.randLen) rfl (by simp [randReg, hbytes]) rfl
        (by rw [List.length_take, min_eq_left hbytes]; exact ceil8_le hle)) r
  | store ra | info ra | get ra | divt ra rb => exact h.polys r
  | set rd =>
    have hrd : (s.poly rd).Readable := hread rd (by simp [operandsOf])
    simp only [effectOf]
    split_ifs with hi
    · exact h.polys r
    · have hpos : 0 ≤ s.index := by
        simp only [otherChecks, firstError_cons, firstError_nil] at hpass
        split_ifs at hpass with _ hneg
        simpa using hneg
      exact polys_inv_setPoly h.polys (setCoef_inv (h.polys rd) hrd.1 hrd.2 (by omega) _) r
  | slice rd ra =>
    have hra : ra ∈ operandsOf (.slice rd ra) := List.mem_singleton_self ra
    have hrange : s.InRange (s.poly ra).width := by
      by_contra hno
      rw [show otherChecks (.slice rd ra) s = s.seqCheck (s.poly ra) from rfl, (firstError_seqCheck s _).2 hno] at hpass
      cases hpass
    exact polys_inv_setPoly h.polys (make_inv ((positions_length_le hrange).trans (fits ra hra)) _ _) r
  | setr rd ra =>
    have hrd : (s.poly rd).Readable := hread rd (by simp [operandsOf])
    rw [firstError_otherChecks_setr, Option.or_eq_none_iff, Option.or_eq_none_iff] at hpass
    obtain ⟨-, hseq, -⟩ := hpass
    exact polys_inv_setPoly h.polys (scatter_inv (h.polys rd) hrd.1 hrd.2 (positions_lt hseq).2 _) r
  | xor rd ra rb =>
    exact polys_inv_setPoly h.polys
      (make_inv (max_le (fits ra (by simp [operandsOf])) (fits rb (by simp [operandsOf]))) _ _) r
  | shl rd ra =>
    have hle : (s.poly ra).width + s.shiftAmount ≤ s.cfg.wmax := by simpa [otherChecks] using hpass
    exact polys_inv_setPoly h.polys (make_inv hle _ _) r
  | mul rd ra rb =>
    have hle : mulWidth (s.poly ra) (s.poly rb) ≤ s.cfg.wmax := by
      simpa [otherChecks] using (Option.or_eq_none_iff.mp ((firstError_append _ _).symm.trans hpass)).2
    exact polys_inv_setPoly h.polys (make_inv hle _ _) r
  | muls rd ra => exact polys_inv_setPoly h.polys (make_inv (fits ra (by simp [operandsOf])) _ _) r

/-- STORE alone writes STAGE, within the buffer of its register. -/
theorem effectOf_stage_within {i : Instr} {s : State} (h : s.Inv) : (effectOf i s).stage.Within s.cfg.capb := by
  cases i with
  | store ra => exact h.stage.writeBytes (by simpa [State.polyBytes] using (h.polys ra).len)
  | set rd =>
    simp only [effectOf]
    split_ifs <;> exact h.stage
  | _ => exact h.stage

/-- Bits 29:12 of RES1 are 0 after every command (R34). -/
theorem effectOf_res1_zero {i : Instr} {s : State} (h : s.Inv) : (effectOf i s).res1.extractLsb' 12 18 = 0 := by
  rcases effectOf_res1 i s with hres | ⟨ra, -, hres⟩
  · rw [hres, h.res1]
  · obtain ⟨-, -, hzero, -⟩ := descriptor_fields (s.poly ra)
    rw [hres, hzero]

/-! ### Every turn keeps the invariant -/

theorem Err.code_range (e : Err) : e.code.toNat ≤ 5 ∧ e.code ≠ 0 := by
  cases e <;> decide

theorem inv_raise {s : State} (h : s.Inv) (e : Err) (w : Word) : (s.raise e w).Inv :=
  { h with
    noErr := fun hb => by simp at hb
    errCode := e.code_range.1
    errCoded := fun _ => e.code_range.2
    progress := .inl rfl }

theorem inv_effectOf_finish {i : Instr} {s : State} (h : s.Inv) (hw : ¬ Waits i s)
    (hread : ∀ r ∈ operandsOf i, (s.poly r).Readable) (hpass : firstError (otherChecks i s) = none) :
    (effectOf i s).finish.Inv := by
  have hkept := effectOf_untouched i s
  constructor
  case cfg => rw [State.finish_cfg, hkept.cfg]; exact h.cfg
  case polys => rw [State.finish_cfg, hkept.cfg]; exact effectOf_polys_inv h hw hread hpass
  case stage => rw [State.finish_cfg, hkept.cfg]; exact effectOf_stage_within h
  case noErr => simp
  case errCode => rw [State.finish_errCode, hkept.errCode]; exact h.errCode
  case errCoded => rw [State.finish_err, State.finish_errCode, hkept.err, hkept.errCode]; exact h.errCoded
  case res1 => exact effectOf_res1_zero h
  case progress => exact .inl rfl
  case held => rw [State.finish_held, State.finish_host, hkept.held, hkept.host]; exact h.held

theorem unitTurn_inv {s t : State} (h : s.Inv) (ht : s.unitTurn = .next t) : t.Inv := by
  rcases unitTurn_cases ht with ⟨rfl, -⟩ | ⟨w, e, -, rfl | ⟨i, -, rfl⟩⟩ | ⟨w, i, -, -, hx, -⟩
  · exact h
  · exact inv_raise h e w
  · exact inv_raise h e _
  · rcases exec_passed_cases hx with ⟨-, rfl⟩ | ⟨e, rfl⟩ | ⟨hw, hread, hpass, rfl⟩
    · exact h
    · exact inv_raise h e _
    · exact inv_effectOf_finish h hw hread hpass

/-- bs_req is a RAND in flight that lacks a byte (R47). -/
theorem bsReq_iff (s : State) : s.bsReq = true ↔
    ∃ w, s.phase = .busy w ∧ isRand w = true ∧ s.randWidth ≤ s.cfg.wmax ∧ s.received.length < s.randLen := by
  unfold State.bsReq
  cases s.phase <;> simp

theorem byteTurn_inv {s : State} (h : s.Inv) (b : Byte) : (s.byteTurn b).Inv := by
  unfold State.byteTurn
  split_ifs with hb
  · obtain ⟨w, hp, hr, hle, hlt⟩ := (bsReq_iff s).mp hb
    exact { h with progress := .inr ⟨w, hp, hr, hle, by rw [List.length_append]; exact hlt⟩ }
  · exact h

/-- No byte-source progress while the unit is idle (R38). -/
theorem State.Inv.received_of_idle {s : State} (h : s.Inv) (hb : s.busy = false) : s.received = [] := by
  rcases h.progress with hr | ⟨w, hp, -⟩
  · exact hr
  · simp [State.busy_busy hp] at hb

theorem inv_respond {s : State} (h : s.Inv) (r : BusResponse) : (s.respond r).Inv := { h with }

theorem inv_drawn {s : State} (h : s.Inv) (n : Nat) : (s.drawn n).Inv := { h with }

theorem inv_stageWrite {s : State} (h : s.Inv) (k n : Nat) (w : Word) : (s.stageWrite k n w).Inv :=
  { h with stage := stageWrite_within h.stage k n w }

/-- A register write to an idle unit: only an accepted CMD write makes it busy, and with ERR = 0 (R106). -/
theorem inv_writeReg {s : State} (h : s.Inv) (hb : s.busy = false) (off : Nat) (v : Word) :
    (s.writeReg off v).Inv := by
  have hr := h.received_of_idle hb
  unfold State.writeReg
  split
  · cases he : s.err with
    | true => rw [acceptCommand_of_err he]; exact h
    | false =>
      rw [acceptCommand_of_no_err he]
      exact { h with noErr := fun _ => he, progress := .inl hr }
  · cases hv : v.getLsbD 1 with
    | true =>
      rw [writeStatus_of_bit hv]
      exact { h with noErr := fun _ => rfl, errCoded := fun he => by simp at he }
    | false => rw [writeStatus_of_no_bit hv]; exact h
  · exact { h with progress := .inl hr }
  · exact { h with progress := .inl hr }
  · exact { h with progress := .inl hr }
  · exact h

/-- An access that completes on an idle unit (R123). -/
theorem inv_access {s : State} (h : s.Inv) (hb : s.busy = false) (a : Access) : (s.access a).Inv := by
  unfold State.access
  split_ifs
  · exact inv_respond h _
  · exact inv_respond (inv_writeReg h hb _ _) _
  · exact inv_respond h _
  · exact inv_respond (inv_stageWrite h _ _ _) _
  · exact inv_respond (inv_drawn h _) _

theorem hostTurn_nil {s : State} (h : s.host = []) : s.hostTurn = s := by
  simp only [State.hostTurn, h]

/-- The host's turn: an access completes on an idle unit, a busy unit answers a STATUS read and holds any other access
(R123, log 9). -/
theorem hostTurn_inv {s : State} (h : s.Inv) : s.hostTurn.Inv := by
  cases hh : s.host with
  | nil => rw [hostTurn_nil hh]; exact h
  | cons a rest =>
    have hoff : ({ s with host := rest, held := false } : State).Inv := { h with held := fun hf => by simp at hf }
    rw [hostTurn_cons hh]
    cases hb : s.busy with
    | false => rw [if_pos (mayComplete_idle hb)]; exact inv_access hoff hb a
    | true =>
      rw [mayComplete_busy hb]
      split_ifs with ha
      · rw [access_statusRead ha]; exact inv_respond hoff _
      · exact { h with held := fun _ => ⟨a, rest, hh, by simpa using ha⟩ }

/-- Every register after reset (R39): empty, so it meets the invariant for any CAPB. -/
theorem polyReg_reset_inv (capb : Nat) : PolyReg.reset.Inv capb where
  len := Nat.zero_le _
  data := ⟨List.Pairwise.nil, fun _ hc => nomatch hc⟩
  known := fun _ hb => absurd hb (Nat.not_lt_zero _)
  invalid := fun _ => rfl

/-- The reset values meet the invariant, whatever the parameters and the interface (R39). -/
theorem inv_at_reset (cfg : Config) (hcfg : cfg.Legal) (host : List Access) (response : Option BusResponse)
    (turns : List Turn) (draws : Nat) :
    ({ State.reset with
        cfg := cfg, host := host, response := response, turns := turns, draws := draws } : State).Inv where
  cfg := hcfg
  polys := fun r => (State.reset_poly r).symm ▸ polyReg_reset_inv _
  stage := ⟨List.Pairwise.nil, fun _ hc => nomatch hc⟩
  noErr := fun _ => rfl
  errCode := Nat.zero_le 5
  errCoded := nofun
  res1 := show (0 : Word).extractLsb' 12 18 = 0 by decide
  progress := .inl rfl
  held := nofun

theorem resetTurn_inv {s : State} (h : s.Inv) (presented : Bool) : (s.resetTurn presented).Inv := by
  obtain ⟨host, response, draws, heq⟩ := resetTurn_eq s presented
  rw [heq]
  exact inv_at_reset s.cfg h.cfg host response s.turns draws

/-! ### The parameters (00_scope.md R7) -/

theorem unitTurn_cfg {s t : State} (h : s.unitTurn = .next t) : t.cfg = s.cfg := by
  rcases unitTurn_cases h with ⟨rfl, -⟩ | ⟨w, e, -, rfl | ⟨i, -, rfl⟩⟩ | ⟨w, i, -, -, -, hc⟩
  · rfl
  · rfl
  · rfl
  · exact hc.cfg

theorem resetTurn_cfg (s : State) (presented : Bool) : (s.resetTurn presented).cfg = s.cfg := by
  obtain ⟨_, _, _, heq⟩ := resetTurn_eq s presented
  rw [heq]

/-- No step changes the parameters. -/
theorem step_cfg {s t : State} (h : step s = .next t) : t.cfg = s.cfg := by
  obtain ⟨u, ⟨ts, rfl⟩, rfl | ⟨b, rfl⟩ | hu | ⟨⟨p, rfl⟩, -⟩⟩ := step_cases h
  · obtain ⟨-, -, -, -, -, -, hcfg, -⟩ := hostTurn_keeps { s with turns := ts }
    exact hcfg
  · rw [byteTurn_keeps]
  · exact unitTurn_cfg (s := { s with turns := ts }) hu
  · exact resetTurn_cfg { s with turns := ts } p

end Sys2Proof.Machine

/-! ## The obligations about the invariant -/

namespace Sys2Proof.Machine

open Sys2Proof

/-- Settles O31: turn by turn, on the state with the turn taken, which meets the invariant as the state does. -/
theorem everyStepKeepsTheInvariant : Obligations.EveryStepKeepsTheInvariant := by
  intro s t h ht
  refine ⟨?_, step_cfg ht⟩
  obtain ⟨u, ⟨ts, rfl⟩, hturn⟩ := step_cases ht
  have hu : ({ s with turns := ts } : State).Inv := { h with }
  rcases hturn with rfl | ⟨b, rfl⟩ | hunit | ⟨⟨p, rfl⟩, -⟩
  · exact hostTurn_inv hu
  · exact byteTurn_inv hu b
  · exact unitTurn_inv hu hunit
  · exact resetTurn_inv hu p

/-- Settles O32: State.reset is the reset values with CAPB = 32 and an empty interface. -/
theorem theInvariantHoldsAtReset : Obligations.TheInvariantHoldsAtReset :=
  inv_at_reset ⟨32⟩ (by decide) [] none [] 0

end Sys2Proof.Machine

/-! ## Facts for the obligations about RAND and the byte source (40_construction.md R72, 20_memory.md R47) -/

namespace Sys2Proof.Machine

open Sys2Proof

/-! ### A RAND that waits and one that has its bytes -/

theorem isRand_encode (rd : Reg) (o : LayoutOrder) : isRand (encode (.rand rd o)) = true := by
  rw [isRand, decode_encode]

/-- Nothing is requested once the width is refused or the bytes are there (R72). -/
theorem bsReq_of_not_missing {s : State} (h : ¬ (s.randWidth ≤ s.cfg.wmax ∧ s.received.length < s.randLen)) :
    s.bsReq = false := by
  rw [Bool.eq_false_iff, Ne, bsReq_iff]
  rintro ⟨w, -, -, hmissing⟩
  exact h hmissing

theorem not_waits_of_not_missing {i : Instr} {s : State}
    (h : ¬ (s.randWidth ≤ s.cfg.wmax ∧ s.received.length < s.randLen)) : ¬ Waits i s :=
  fun ⟨_, hmissing⟩ => h hmissing

theorem exec_rand_of_width_gt {s : State} (rd : Reg) (o : LayoutOrder) (h : s.arg1.toNat > 8 * s.cfg.capb) :
    exec (.rand rd o) s = .next (s.raise .invalidWidth (encode (.rand rd o))) := by
  rw [exec_eq_command (not_waits_of_not_missing fun hm => absurd hm.1 (Nat.not_le.mpr h))]
  exact command_of_some (if_pos (decide_eq_true h))

theorem exec_rand_of_bytes {s : State} (rd : Reg) (o : LayoutOrder) (hw : s.arg1.toNat ≤ 8 * s.cfg.capb)
    (h : ceil8 s.arg1.toNat ≤ s.received.length) :
    exec (.rand rd o) s = .next (effectOf (.rand rd o) s).finish := by
  rw [exec_eq_command (not_waits_of_not_missing fun hm => absurd hm.2 (Nat.not_lt.mpr h))]
  exact command_of_none (if_neg (by simpa [State.randWidth, uint32, Config.wmax] using hw))

theorem randReg_width (s : State) (rd : Reg) (o : LayoutOrder) : (randReg s rd o).width = s.arg1.toNat :=
  (BitVec.toNat_ofNat ..).trans (Nat.mod_eq_of_lt s.arg1.isLt)

/-- The bytes of the register RAND writes: those received, then the old ones (R72). -/
theorem randReg_read? {s : State} (rd : Reg) (o : LayoutOrder) (h : ceil8 s.arg1.toNat ≤ s.received.length) (k : Nat) :
    (randReg s rd o).data.read? k =
      if k < ceil8 s.arg1.toNat then s.received[k]? else (s.poly rd).data.read? k := by
  have hlen : s.randLen = ceil8 s.arg1.toNat := rfl
  rw [randReg, Memory.read?_writeBytes, if_pos (Nat.zero_le k), Nat.sub_zero, hlen, List.getElem?_take]
  split_ifs with hk
  · rw [List.getElem?_eq_getElem (by omega)]
    rfl
  · rfl

/-- The unit's turn on a RAND that has its bytes. -/
theorem step_unit_rand_of_bytes {s : State} {rd : Reg} {o : LayoutOrder} {ts : List Turn} (hts : s.turns = .unit :: ts)
    (hp : s.phase = .busy (encode (.rand rd o))) (hw : s.arg1.toNat ≤ 8 * s.cfg.capb)
    (h : ceil8 s.arg1.toNat ≤ s.received.length) :
    step s = .next (effectOf (.rand rd o) { s with turns := ts }).finish := by
  rw [step_of_unit hts, unitTurn_of_decode_ok (s := { s with turns := ts }) hp (decode_encode _)]
  exact exec_rand_of_bytes rd o hw h

/-! ### The byte source's turns (R47) -/

theorem step_of_byte {s : State} {b : Byte} {ts : List Turn} (h : s.turns = .byte b :: ts) :
    step s = .next (({ s with turns := ts } : State).byteTurn b) := by
  simp only [step, State.advance, h, State.take]

theorem step_byte_requested {s : State} {b : Byte} {ts : List Turn} (h : s.turns = .byte b :: ts)
    (hr : s.bsReq = true) : step s = .next { s with turns := ts, received := s.received ++ [b] } := by
  have hu : ({ s with turns := ts } : State).bsReq = true := hr
  rw [step_of_byte h, State.byteTurn, if_pos hu]

theorem step_byte_unrequested {s : State} {b : Byte} {ts : List Turn} (h : s.turns = .byte b :: ts)
    (hr : s.bsReq = false) : step s = .next { s with turns := ts } := by
  have hu : ({ s with turns := ts } : State).bsReq = false := hr
  rw [step_of_byte h, State.byteTurn, hu, if_neg (by decide)]

theorem steps_succ_of_step {s t : State} (h : step s = .next t) (n : Nat) : steps (n + 1) s = steps n t := by
  rw [steps, h]

/-- While a RAND lacks at least as many bytes as the source presents, each is received in its own step. -/
theorem steps_bytes {w : Word} (hr : isRand w = true) (n : Nat) (ts : List Turn) (bs : List Byte) :
    ∀ s : State, s.phase = .busy w → s.randWidth ≤ s.cfg.wmax → s.received.length + bs.length ≤ s.randLen →
      s.turns = bs.map .byte ++ ts →
      steps (bs.length + n) s = steps n { s with turns := ts, received := s.received ++ bs } := by
  induction bs with
  | nil =>
    rintro s - - - rfl
    simp
  | cons b bs ih =>
    intro s hp hw hlen hts
    rw [List.length_cons] at hlen
    have hreq : s.bsReq = true := (bsReq_iff s).mpr ⟨w, hp, hr, hw, by omega⟩
    have hstep := step_byte_requested (ts := bs.map .byte ++ ts) hts hreq
    rw [List.length_cons, Nat.add_right_comm, steps_succ_of_step hstep,
      ih { s with turns := bs.map .byte ++ ts, received := s.received ++ [b] } hp hw
        (show (s.received ++ [b]).length + bs.length ≤ s.randLen by simp; omega) rfl]
    simp

/-! ### Turns that always answer, and the host's turn on a busy unit (70_reset_and_hazards.md R123, R127) -/

theorem take_answers (s : State) (t : Turn) : ∃ u, s.take t = .next u := by
  cases t with
  | unit => exact unitTurn_answers s
  | host | byte b | reset p => exact ⟨_, rfl⟩

/-- A step answers a next state unless no turn is left and a byte is awaited (log 6). -/
theorem step_answers {s : State} (h : ¬ (s.turns = [] ∧ s.bsReq = true)) : ∃ t, step s = .next t := by
  unfold step State.advance
  cases hts : s.turns with
  | cons tn ts => exact take_answers _ tn
  | nil =>
    have hr : ¬ s.bsReq = true := fun hr => h ⟨hts, hr⟩
    simp only [hr]
    exact take_answers _ _

theorem step_of_silent_source {s : State} (hts : s.turns = []) (hr : s.bsReq = true) :
    step s = .fault .byteSourceSilent := by
  simp only [step, State.advance, hts, hr, if_true]

/-- The host's turn on a busy unit changes only the interface: it answers a STATUS read or holds the access. -/
theorem hostTurn_of_busy {s : State} (hb : s.busy = true) : ∃ host held response,
    s.hostTurn = { s with host := host, held := held, response := response } := by
  cases hh : s.host with
  | nil => exact ⟨s.host, s.held, s.response, hostTurn_nil hh⟩
  | cons a rest =>
    rw [hostTurn_cons hh, mayComplete_busy hb]
    split_ifs with ha
    · exact ⟨rest, false, _, access_statusRead ha⟩
    · exact ⟨s.host, true, s.response, rfl⟩

theorem step_of_host {s : State} {ts : List Turn} (h : s.turns = .host :: ts) :
    step s = .next ({ s with turns := ts } : State).hostTurn := by
  simp only [step, State.advance, h, State.take]

theorem busy_of_bsReq {s : State} (h : s.bsReq = true) : s.busy = true := by
  obtain ⟨w, hp, -⟩ := (bsReq_iff s).mp h
  exact State.busy_busy hp

theorem unitTurn_of_bsReq {s : State} (h : s.bsReq = true) : s.unitTurn = .next s := by
  obtain ⟨w, hp, hr, hmissing⟩ := (bsReq_iff s).mp h
  cases hd : decode w with
  | error u => simp [isRand, hd] at hr
  | ok i =>
    rw [unitTurn_of_decode_ok hp hd]
    cases i with
    | rand rd o => exact exec_of_waits ⟨⟨rd, o, rfl⟩, hmissing⟩
    | _ => simp [isRand, hd] at hr

end Sys2Proof.Machine

/-! ## The obligations about RAND and the byte source -/

namespace Sys2Proof.Machine

open Sys2Proof

/-- Settles O12: the width is RAND's one check, a RAND that lacks bytes waits, and the effect writes the bytes
received. -/
theorem randConstructsFromTheByteSource : Obligations.RandConstructsFromTheByteSource := by
  intro s rd o
  refine ⟨fun hw => ⟨exec_rand_of_width_gt rd o hw, bsReq_of_not_missing fun hm => absurd hm.1 (Nat.not_le.mpr hw)⟩,
    fun hw hlt => ⟨exec_of_waits ⟨⟨rd, o, rfl⟩, hw, hlt⟩, fun hp => ?_⟩, fun hw hle => ⟨?_, ?_⟩⟩
  · exact (bsReq_iff s).mpr ⟨_, hp, isRand_encode rd o, hw, hlt⟩
  · exact bsReq_of_not_missing fun hm => absurd hm.2 (Nat.not_lt.mpr hle)
  · refine ⟨_, exec_rand_of_bytes rd o hw hle, ?_⟩
    rw [State.finish_poly, effectOf, State.setPoly_poly_same]
    refine ⟨rfl, rfl, randReg_width s rd o, rfl, fun k hk => ?_, fun k hk => ?_, writesOnly_setPoly s rd _⟩
    · rw [randReg_read? rd o hle, if_pos hk]
    · rw [randReg_read? rd o hle, if_neg (Nat.not_lt.mpr hk)]

/-- Settles O13: each byte is received in its own step, and the unit's turn then writes them. -/
theorem randEndsWithItsLastByte : Obligations.RandEndsWithItsLastByte := by
  intro s rd o bs ts hp hnone hw hlen hts
  have hbytes := steps_bytes (isRand_encode rd o) 1 (.unit :: ts) bs s hp hw
    (by rw [hnone, hlen]; exact (Nat.zero_add _).le) hts
  rw [hnone, List.nil_append] at hbytes
  have hunit := step_unit_rand_of_bytes (s := { s with turns := .unit :: ts, received := bs }) rfl hp hw hlen.ge
  refine ⟨_, hbytes.trans (steps_succ_of_step hunit 0), rfl, rfl, rfl, ?_⟩
  rw [State.finish_poly, effectOf, State.setPoly_poly_same]
  refine ⟨rfl, rfl, randReg_width _ rd o, hlen.symm, fun k hk => ?_, fun r hr => State.setPoly_poly_other _ hr _⟩
  rw [randReg_read? rd o hlen.ge, if_pos (hlen ▸ hk)]

/-- Settles O39: a turn answers a next state, and with no turn left the machine stops only on a byte request. -/
theorem onlyASilentByteSourceStopsTheMachine : Obligations.OnlyASilentByteSourceStopsTheMachine := by
  refine ⟨exec_answers, fun s => ⟨fun h => ?_, fun ⟨hts, hr⟩ t => ?_⟩, fun s => step_of_silent_source⟩
  · by_contra hgo
    obtain ⟨t, ht⟩ := step_answers hgo
    exact h t ht
  · rw [step_of_silent_source hts hr]
    nofun

/-- Settles O40: a RAND that waits changes nothing, the host's turn on a busy unit changes only the interface, and the
byte is requested. -/
theorem aWaitingRandStaysBusy : Obligations.AWaitingRandStaysBusy := by
  intro s ts hr
  have hu : ({ s with turns := ts } : State).bsReq = true := hr
  refine ⟨fun hts => ?_, fun hts => ?_, fun b hts => step_byte_requested hts hr⟩
  · rw [step_of_unit hts, unitTurn_of_bsReq hu]
  · obtain ⟨host, held, response, hturn⟩ := hostTurn_of_busy (busy_of_bsReq hu)
    exact ⟨_, (step_of_host hts).trans (congrArg _ hturn), hr, rfl, rfl, rfl, rfl⟩

/-- Settles O41: the byte source's turn is without effect. -/
theorem noByteTransfersUnrequested : Obligations.NoByteTransfersUnrequested :=
  fun _ _ _ hr hts => step_byte_unrequested hts hr

end Sys2Proof.Machine

/-! ## Facts for the obligations about turns, FLAG and reset (10_state.md R30, R39; 70_reset_and_hazards.md) -/

namespace Sys2Proof.Machine

open Sys2Proof

/-! ### FLAG (R30) -/

/-- DIVT alone writes FLAG. -/
theorem effectOf_flag (i : Instr) (s : State) : (effectOf i s).flag = s.flag ∨ ∃ ra rb, i = .divt ra rb := by
  cases i with
  | divt ra rb => exact .inr ⟨ra, rb, rfl⟩
  | set rd =>
    left
    simp only [effectOf]
    split_ifs <;> rfl
  | _ => exact .inl rfl

/-- STATUS while a command is in flight: BUSY = 1, ERR = 0 and the old FLAG. -/
theorem statusWord_of_busy {s : State} (hb : s.busy = true) (he : s.err = false) :
    s.statusWord = if s.flag then 5 else 1 := by
  rw [State.statusWord, hb, he]
  cases s.flag <;> rfl

/-- STATUS after an error: ERR = 1, BUSY = 0 and the old FLAG. -/
theorem statusWord_of_err {s : State} (hb : s.busy = false) (he : s.err = true) :
    s.statusWord = if s.flag then 6 else 2 := by
  rw [State.statusWord, hb, he]
  cases s.flag <;> rfl

/-- The fields of STATUS (R30). -/
theorem statusWord_fields (s : State) :
    s.statusWord.getLsbD 0 = s.busy ∧ s.statusWord.getLsbD 1 = s.err ∧ s.statusWord.getLsbD 2 = s.flag ∧
      s.statusWord.extractLsb' 3 29 = 0 := by
  rw [State.statusWord]
  cases s.busy <;> cases s.err <;> cases s.flag <;> decide

/-! ### Accesses behind the interlock (R123) -/

theorem isStatusRead_iff (a : Access) :
    a.isStatusRead = true ↔ a.we = false ∧ a.off = 0x004 ∧ a.size = .word := by
  simp [Access.isStatusRead, and_assoc]

/-- Every completed access leaves a response. -/
theorem access_response (s : State) (a : Access) : ∃ r, (s.access a).response = some r := by
  cases hwf : a.wf with
  | false => exact ⟨_, by rw [access_illegal hwf, State.respond_response]⟩
  | true =>
    rcases access_legal_response s hwf with h | ⟨v, h⟩
    · exact ⟨_, h⟩
    · exact ⟨_, h⟩

/-! ### Reset (R39, R120, R121) -/

/-- The reset values, whatever the parameters and the interface (R39). -/
theorem atReset_of_eq {t : State} {cfg : Config} {host : List Access} {response : Option BusResponse}
    {turns : List Turn} {draws : Nat}
    (h : t = { State.reset with cfg := cfg, host := host, response := response, turns := turns, draws := draws }) :
    t.AtReset := by
  subst h
  have hstatus : bitWord false ||| bitWord false <<< 1 ||| bitWord false <<< 2 = 0 := by decide
  exact ⟨State.reset_poly, ⟨rfl, rfl, rfl⟩, ⟨rfl, rfl⟩, ⟨rfl, rfl, rfl, hstatus⟩, ⟨rfl, rfl⟩, fun _ => rfl, rfl, rfl,
    rfl⟩

theorem step_of_reset_turn {s : State} {presented : Bool} {ts : List Turn} (h : s.turns = .reset presented :: ts) :
    step s = .next (({ s with turns := ts } : State).resetTurn presented) := by
  simp only [step, State.advance, h, State.take]

/-- An access on the bus during a reset leaves it with a free response (log 11). -/
theorem resetTurn_of_access {s : State} {a : Access} {rest : List Access} {presented : Bool} (h : s.host = a :: rest)
    (hbus : s.held = true ∨ presented = true) :
    (s.resetTurn presented).host = rest ∧
      (s.resetTurn presented).response = some (.abandoned s.abandonedWord) := by
  have hor : (s.held || presented) = true := by simpa using hbus
  simp only [State.resetTurn, h, hor, if_true, and_self]

/-- With no access on the bus a reset leaves the host and the last response alone. -/
theorem resetTurn_of_no_access {s : State} {presented : Bool} (hh : s.held = false) (hp : presented = false) :
    (s.resetTurn presented).host = s.host ∧ (s.resetTurn presented).response = s.response := by
  have hor : ¬ (s.held || presented) = true := by simp [hh, hp]
  unfold State.resetTurn
  split
  · exact ⟨rfl, rfl⟩
  · rw [if_neg hor]
    exact ⟨rfl, rfl⟩

end Sys2Proof.Machine

/-! ## The obligations about turns, FLAG and reset -/

namespace Sys2Proof.Machine

open Sys2Proof

/-- Settles O33: of the effects of the commands, DIVT's alone writes FLAG. -/
theorem onlyDivtWritesFlag : Obligations.OnlyDivtWritesFlag := by
  intro s t h hne
  rcases step_effect_cases h with ⟨-, -, -, hflag⟩ | ⟨w, i, u, hw, hd, ⟨ts, rfl⟩, rfl⟩ | ⟨hr, -⟩
  · exact absurd hflag hne
  · obtain ⟨ra, rb, rfl⟩ := (effectOf_flag i _).resolve_left hne
    exact .inl ⟨w, ra, rb, hw, hd, rfl⟩
  · exact .inr hr

/-- Settles O42: a busy unit answers STATUS reads and holds the rest, and on an idle unit the access leaves the bus. -/
theorem theInterlockHoldsEveryAccessButAStatusRead : Obligations.TheInterlockHoldsEveryAccessButAStatusRead := by
  intro s a rest ts h
  refine ⟨fun hb he hw ho hsize => ?_, fun hb hother => ?_, fun hb => ?_⟩
  · rw [step_host_status h hb ((isStatusRead_iff a).mpr ⟨hw, ho, hsize⟩), statusWord_of_busy hb he]
  · refine step_host_held h hb (Bool.eq_false_iff.mpr fun hread => ?_)
    obtain ⟨hw, ho, hsize⟩ := (isStatusRead_iff a).mp hread
    simp [hw, ho, hsize] at hother
  · obtain ⟨r, hr⟩ := access_response { s with turns := ts, host := rest, held := false } a
    obtain ⟨-, -, -, -, -, -, -, -, hhost, hheld, -⟩ :=
      access_keeps { s with turns := ts, host := rest, held := false } a
    exact ⟨_, r, step_host_idle h hb, hhost, hheld, hr⟩

/-- Settles O53: a reset turn gives the values of State.reset, and an access leaves the bus only if it was on it. -/
theorem resetGivesTheResetValues : Obligations.ResetGivesTheResetValues := by
  refine ⟨atReset_of_eq rfl, fun s presented ts hts => ?_⟩
  obtain ⟨host, response, draws, heq⟩ := resetTurn_eq { s with turns := ts } presented
  refine ⟨_, step_of_reset_turn hts, atReset_of_eq heq, by rw [heq], by rw [heq]; rfl, by rw [heq],
    fun a rest hh hbus => ?_, fun hh hp => resetTurn_of_no_access (s := { s with turns := ts }) hh hp⟩
  obtain ⟨hhost, hresponse⟩ := resetTurn_of_access (s := { s with turns := ts }) hh hbus
  exact ⟨hhost, _, hresponse⟩

/-- Settles O7: the unit's turn on the accepted word, as the oldest turn or as the default one. -/
theorem stepRunsTheDecodedCommand : Obligations.StepRunsTheDecodedCommand := by
  intro s w i hd
  refine ⟨fun ts hp hts => ?_, fun hp hts hr => ?_, ?_⟩
  · rw [step_of_unit hts, unitTurn_of_decode_ok (s := { s with turns := ts }) hp hd]
  · rw [← unitTurn_of_decode_ok hp hd]
    simp only [step, State.advance, hts, hr, State.defaultTurn, State.busy_busy hp, State.take, if_true,
      Bool.false_eq_true, if_false]
  · have hword : BitVec.ofNat 32 (w.toNat % 2 ^ 32) = w := by
      rw [Nat.mod_eq_of_lt w.isLt, BitVec.ofNat_toNat, BitVec.setWidth_eq]
    rw [State.withFetchWord, hword, step_of_unit (s := s.accepted w) rfl]
    exact unitTurn_of_decode_ok (s := { s with phase := .busy w, err := false, received := [] }) rfl hd

/-- Settles O9: each code is a literal, and STATUS is the word of its three bits. -/
theorem errorCodesAreThoseOfTheTable : Obligations.ErrorCodesAreThoseOfTheTable :=
  fun s w => ⟨rfl, rfl, rfl, rfl, rfl, fun e => ⟨rfl, statusWord_of_err (s := s.raise e w) rfl rfl⟩⟩

end Sys2Proof.Machine

/-! ## Facts for the obligations about register and narrow accesses (20_memory.md R41-R45) -/

namespace Sys2Proof.Machine

open Sys2Proof

/-! ### Reads and ignored writes -/

/-- The host's turn on a read changes only the interface and the count of drawn values (R43). -/
theorem hostTurn_read {s : State} {a : Access} {rest : List Access} (h : s.host = a :: rest) (hw : a.we = false) :
    ∃ host held response draws,
      s.hostTurn = { s with host := host, held := held, response := response, draws := draws } := by
  rw [hostTurn_cons h]
  split_ifs
  · obtain ⟨r, n, hread⟩ := access_read (s := { s with host := rest, held := false }) hw
    exact ⟨rest, false, some r, s.draws + n, hread⟩
  · exact ⟨s.host, true, s.response, s.draws, rfl⟩

/-- A reserved offset, or that of a register the host cannot write, ignores a write (R41). -/
theorem writeReg_ignored (s : State) {off : Nat} (v : Word)
    (h : off ≠ 0x000 ∧ off ≠ 0x004 ∧ off ≠ 0x010 ∧ off ≠ 0x014 ∧ off ≠ 0x018) : s.writeReg off v = s := by
  obtain ⟨h0, h4, h10, h14, h18⟩ := h
  unfold State.writeReg
  split
  case h_6 => rfl
  all_goals contradiction

/-- The reserved offsets read 0 (R41). -/
theorem readReg_reserved (s : State) {off : Nat} (h : 0x030 ≤ off) : s.readReg off = 0 := by
  unfold State.readReg
  split
  case h_12 => rfl
  all_goals omega

theorem errCodeWord_fields (s : State) :
    s.errCodeWord.extractLsb' 0 4 = s.errCode ∧ s.errCodeWord.extractLsb' 4 28 = 0 := by
  refine ⟨BitVec.eq_of_getLsbD_eq fun i hi => ?_, BitVec.eq_of_getLsbD_eq fun i hi => ?_⟩
  · rw [BitVec.getLsbD_extractLsb', State.errCodeWord, BitVec.getLsbD_setWidth]
    simp [hi, show i < 32 by omega]
  · rw [BitVec.getLsbD_extractLsb', State.errCodeWord, BitVec.getLsbD_setWidth,
      BitVec.getLsbD_of_ge s.errCode _ (by omega)]
    simp

/-! ### Narrow accesses (R45, log 10) -/

/-- An n-byte read has 0 above its n bytes. -/
theorem getLsbD_stageRead_of_ge (s : State) (k : Nat) {n i : Nat} (h : 8 * n ≤ i) :
    (s.stageRead k n).getLsbD i = false := by
  rcases Nat.lt_or_ge i 32 with hi | hi
  · rw [State.stageRead, getLsbD_leWord _ hi, List.getD_eq_default _ _ (by simp; omega)]
    simp
  · exact BitVec.getLsbD_of_ge _ _ hi

/-- A lane below n is told by the low 8 * n bits. -/
theorem lane_congr {v w : Word} {n j : Nat} (h : v.extractLsb' 0 (8 * n) = w.extractLsb' 0 (8 * n)) (hj : j < n) :
    lane v j = lane w j := by
  refine BitVec.eq_of_getLsbD_eq fun i hi => ?_
  have hbit := congrArg (·.getLsbD (8 * j + i)) h
  have hlt : 8 * j + i < 8 * n := by omega
  simpa [lane, BitVec.getLsbD_extractLsb', hi, hlt] using hbit

theorem stageWrite_congr (s : State) (k : Nat) {v w : Word} {n : Nat}
    (h : v.extractLsb' 0 (8 * n) = w.extractLsb' 0 (8 * n)) : s.stageWrite k n v = s.stageWrite k n w := by
  rw [State.stageWrite, State.stageWrite]
  congr 1
  refine List.foldl_ext _ _ _ fun m j hj => ?_
  rw [lane_congr h (List.mem_range.mp hj)]

/-- A one-byte read is the byte of its lane, 0 above. -/
theorem stageRead_one (s : State) (k : Nat) : s.stageRead k 1 = (s.laneByte k 0).setWidth 32 := by
  simp [State.stageRead, leWord]

theorem stageRead_one_of_ge {s : State} {k : Nat} (h : s.cfg.capb ≤ k) : s.stageRead k 1 = 0 := by
  rw [stageRead_one, laneByte_of_ge (j := 0) h]
  rfl

theorem stageRead_one_of_read? {s : State} {k : Nat} {b : Byte} (h : k < s.cfg.capb) (hb : s.stage.read? k = some b) :
    s.stageRead k 1 = b.setWidth 32 := by
  rw [stageRead_one, laneByte_of_read? (j := 0) h hb]

/-- A byte of STAGE that is not listed is read as the next free value (log 2). -/
theorem lane_stageRead_one_of_none {s : State} {k : Nat} (h : k < s.cfg.capb) (hb : s.stage.read? k = none) :
    lane (s.stageRead k 1) 0 = Config.draw s.draws := by
  rw [lane_stageRead s k (by decide) (by decide), State.laneByte, Nat.add_zero, if_pos h, State.stageByte, hb]
  rfl

/-- A one-byte write goes to the byte of STAGE at its index, below CAPB. -/
theorem read?_stageWrite_one (s : State) (k : Nat) (w : Word) (b : Nat) :
    (s.stageWrite k 1 w).stage.read? b =
      if b = k ∧ b < s.cfg.capb then some (lane w 0) else s.stage.read? b := by
  rw [read?_stageWrite]
  by_cases hb : b = k
  · subst hb
    simp
  · rw [if_neg (by omega), if_neg (by omega)]

end Sys2Proof.Machine

/-! ## The obligations about register and narrow accesses -/

namespace Sys2Proof.Machine

open Sys2Proof

/-- Settles O45: `writeStatus` looks at bit 1 alone. -/
theorem otherStatusBitsIgnoreWrites : Obligations.OtherStatusBitsIgnoreWrites := by
  intro s v rest ts hp h hv
  rw [step_w32_register hp h (by decide) (by decide)]
  exact congrArg (fun u => Host.Outcome.next (State.respond u .writeDone)) (writeStatus_of_no_bit hv _)

/-- Settles O47: a read completes or is held. -/
theorem readsHaveNoSideEffect : Obligations.ReadsHaveNoSideEffect := by
  intro s t a rest ts h hw ht
  obtain ⟨host, held, response, draws, hturn⟩ := hostTurn_read (s := { s with turns := ts }) h.2 hw
  rw [step_of_host h.1, hturn] at ht
  injection ht with ht
  rw [← ht]

/-- Settles O49: the read data is `readReg` of the offset. -/
theorem registerReads : Obligations.RegisterReads := by
  intro s off rest ts hp ha hl h
  obtain ⟨hbusy, herr, hflag, hhigh⟩ := statusWord_fields s
  refine ⟨s.readReg off.toNat, step_r32_register hp h ha hl, ?_, ?_, ?_, ?_, ?_, ?_, ?_, ?_, ?_, ?_,
    readReg_reserved s⟩
  · rintro rfl; rfl
  · rintro rfl; exact ⟨hbusy.trans (State.busy_idle hp), herr, hflag, hhigh⟩
  · rintro rfl; exact errCodeWord_fields s
  all_goals rintro rfl; rfl

/-- Settles O50: `writeReg` has an arm for CMD, STATUS and ARG0-ARG2 alone. -/
theorem registerWrites : Obligations.RegisterWrites := by
  intro s off v rest ts hp ha hl h
  have hstep := step_w32_register hp h ha hl
  refine ⟨?_, ?_, ?_, fun h0 h4 h10 h14 h18 => ?_⟩
  · rintro rfl; exact hstep
  · rintro rfl; exact hstep
  · rintro rfl; exact hstep
  · have apart : ∀ k : BitVec 12, off ≠ k → off.toNat ≠ k.toNat := fun k hk e => hk (BitVec.eq_of_toNat_eq e)
    rw [hstep, writeReg_ignored _ v ⟨apart _ h0, apart _ h4, apart _ h10, apart _ h14, apart _ h18⟩]
    rfl

/-- Settles O52: an access of n bytes moves the n low lanes, and lane 0 is the byte at its offset. -/
theorem narrowAccessesUseTheLowBits : Obligations.NarrowAccessesUseTheLowBits := by
  intro s a rest ts n hp h hl hsize
  have hn : a.size.bytes = n := by
    rcases hsize with ⟨hs, rfl⟩ | ⟨hs, rfl, -⟩ <;> rw [hs] <;> rfl
  have hwf : a.wf = true := a.wf_iff.mpr (.inr ⟨hl, hsize.imp And.left fun ⟨hs, _, ha⟩ => .inl ⟨hs, ha⟩⟩)
  have hb := State.busy_idle hp
  have hstep := step_host_idle h hb
  refine ⟨fun hw => ?_, fun hw v hv => ?_, fun hs hw => ?_, fun hs hw => ?_⟩
  · rw [access_stageRead hwf hw hl, hn] at hstep
    exact ⟨_, _, hstep, rfl, fun i hi => getLsbD_stageRead_of_ge _ _ hi⟩
  · have hnext : ({ s with host := { a with wdata := v } :: rest } : State).hostIsNext { a with wdata := v } rest ts :=
      ⟨h.1, rfl⟩
    rw [hstep, step_host_idle hnext hb, access_stageWrite hwf hw hl,
      access_stageWrite (a := { a with wdata := v }) hwf hw hl, hn]
    exact congrArg (fun u => Host.Outcome.next (State.respond u .writeDone)) (stageWrite_congr _ _ hv)
  · rw [access_stageWrite hwf hw hl, hs] at hstep
    exact ⟨_, hstep, rfl, read?_stageWrite_one _ _ a.wdata⟩
  · rw [access_stageRead hwf hw hl, hs] at hstep
    exact ⟨_, s.stageRead (a.off - 0x800) 1, hstep, rfl, stageRead_one_of_ge,
      fun b hc hb => stageRead_one_of_read? hc hb⟩

/-- Settles O11: LOAD and a byte read draw from the count on, one value for each byte. -/
theorem unwrittenStageBytesAreFreeValues : Obligations.UnwrittenStageBytesAreFreeValues := by
  intro s
  refine ⟨fun rd d o hle => ?_, fun off rest ts hp hl hc h hnone => ?_⟩
  · refine ⟨_, exec_load_of_count_le rd d o hle, rfl, fun k hk hnone => ?_⟩
    rw [State.finish_poly, effectOf_load_poly_same, loadedReg_read?, if_pos hk, State.stageByte, hnone]
    rfl
  · have hwf : (⟨false, off, .byte, 0⟩ : Access).wf = true := decide_eq_true hl
    have hstep := step_host_idle h (State.busy_idle hp)
    rw [access_stageRead hwf rfl hl] at hstep
    exact ⟨_, s.stageRead (off.toNat - 0x800) 1, hstep, rfl, lane_stageRead_one_of_none hc hnone, rfl⟩

end Sys2Proof.Machine

/-! ## Facts for the obligations about what a command does not see (10_state.md R28, 20_memory.md section 1) -/

namespace Sys2Proof.Machine

open Sys2Proof

/-! ### Other contents of STAGE -/

/-- The state with other contents of STAGE and another count of drawn values. -/
def State.withStage (s : State) (m : Memory) (n : Nat) : State := { s with stage := m, draws := n }

theorem otherChecks_withStage (i : Instr) (s : State) (m : Memory) (n : Nat) :
    otherChecks i (s.withStage m n) = otherChecks i s := by
  cases i <;> rfl

theorem effectOf_withStage {i : Instr} (hload : ∀ rd d o, i ≠ .load rd d o) (hstore : ∀ ra, i ≠ .store ra) (s : State)
    (m : Memory) (n : Nat) : effectOf i (s.withStage m n) = (effectOf i s).withStage m n := by
  cases i with
  | load rd d o => exact absurd rfl (hload rd d o)
  | store ra => exact absurd rfl (hstore ra)
  | set rd =>
    by_cases hi : s.arg0.toInt ≥ (s.poly rd).width
    · rw [effectOf_set_of_index_ge hi, effectOf_set_of_index_ge (s := s.withStage m n) hi]
    · rw [effectOf_set_of_index_lt (not_le.mp hi), effectOf_set_of_index_lt (s := s.withStage m n) (not_le.mp hi)]
      rfl
  | _ => rfl

/-- A command but LOAD and STORE leaves STAGE and the count of drawn values. -/
theorem effectOf_stage_draws {i : Instr} (hload : ∀ rd d o, i ≠ .load rd d o) (hstore : ∀ ra, i ≠ .store ra)
    (s : State) : (effectOf i s).stage = s.stage ∧ (effectOf i s).draws = s.draws := by
  have h : effectOf i s = (effectOf i s).withStage s.stage s.draws := effectOf_withStage hload hstore s s.stage s.draws
  rw [h]
  exact ⟨rfl, rfl⟩

/-! ### Registers that differ beyond len (R28) -/

theorem highest_congr {f g : Nat → Bool} {n : Nat} (hfg : ∀ i, i < n → f i = g i) : highest f n = highest g n := by
  induction n with
  | zero => rfl
  | succ n ih => rw [highest, highest, hfg n (by omega), ih fun i hi => hfg i (by omega)]

/-- Two registers of length n written with the same n bytes look alike, whatever they held. -/
theorem sameSeen_of_writeBytes {p q : PolyReg} {vs : List Byte} {m m' : Memory} (hvalid : p.valid = q.valid)
    (horder : p.order = q.order) (hbits : p.bits = q.bits) (hlen : p.len = q.len) (hvs : p.len = vs.length)
    (hp : p.data = m.writeBytes 0 vs) (hq : q.data = m'.writeBytes 0 vs) : p.SameSeen q := by
  refine ⟨hvalid, horder, hbits, hlen, fun b hb => ?_⟩
  have hsome : vs[b]? = some vs[b] := List.getElem?_eq_getElem (hvs ▸ hb)
  simp only [hp, hq, Memory.read?_writeBytes, Nat.zero_le, if_true, Nat.sub_zero, hsome, Option.some_or]

theorem PolyReg.SameSeen.refl (p : PolyReg) : p.SameSeen p := ⟨rfl, rfl, rfl, rfl, fun _ _ => rfl⟩

section
variable {p q : PolyReg} (h : p.SameSeen q)
include h

theorem PolyReg.SameSeen.width_eq : p.width = q.width := congrArg BitVec.toNat h.bits

theorem PolyReg.SameSeen.widthOk_eq : p.widthOk = q.widthOk := by
  rw [PolyReg.widthOk, PolyReg.widthOk, h.width_eq, h.len]

theorem PolyReg.SameSeen.byte_eq {b : Nat} (hb : b < p.len) : p.byte b = q.byte b := by
  rw [PolyReg.byte, PolyReg.byte, h.data b hb]

theorem PolyReg.SameSeen.polyBytes_eq : State.polyBytes p p.len = State.polyBytes q q.len := by
  rw [← h.len]
  exact List.map_congr_left fun b hb => h.byte_eq (List.mem_range.mp hb)

theorem PolyReg.SameSeen.descriptor_eq : p.descriptor = q.descriptor := by
  rw [PolyReg.descriptor, PolyReg.descriptor, h.valid, h.order, h.len]

end

section
variable {p q : PolyReg} (h : p.SameSeen q) (hr : p.Readable)
include h hr

/-- A coefficient inside a readable register lies below len (R23, R25). -/
theorem PolyReg.SameSeen.coef_eq {i : Nat} (hi : i < p.width) : p.coef i = q.coef i := by
  rw [PolyReg.coef, PolyReg.coef, ← h.width_eq, ← h.order,
    h.byte_eq ((loc_fst_lt hi p.order).trans_le (ceil8_le hr.2))]

theorem PolyReg.SameSeen.coefOrZero_eq (i : Nat) : p.coefOrZero i = q.coefOrZero i := by
  rw [PolyReg.coefOrZero, PolyReg.coefOrZero, ← h.width_eq]
  split_ifs with hi
  · exact h.coef_eq hr hi
  · rfl

theorem PolyReg.SameSeen.hsb_eq : p.hsb = q.hsb := by
  rw [PolyReg.hsb, PolyReg.hsb, ← h.width_eq]
  exact highest_congr fun i hi => h.coef_eq hr hi

theorem PolyReg.SameSeen.setCoef {i : Nat} (hi : i < p.width) (v : Bool) :
    (p.setCoef i v).SameSeen (q.setCoef i v) := by
  refine ⟨h.valid, h.order, h.bits, h.len, fun b hb => ?_⟩
  have hbyte := h.byte_eq ((loc_fst_lt hi p.order).trans_le (ceil8_le hr.2))
  simp only [PolyReg.setCoef, Memory.read?_write, ← h.width_eq, ← h.order, hbyte, h.data b hb]

end

theorem PolyReg.SameSeen.scatter {p q : PolyReg} (h : p.SameSeen q) (hr : p.Readable) {is : List Nat}
    (his : ∀ i ∈ is, i < p.width) (vs : List Bool) : (p.scatter is vs).SameSeen (q.scatter is vs) := by
  induction is generalizing p q vs with
  | nil => simpa using h
  | cons i is ih =>
    cases vs with
    | nil => simpa using h
    | cons v vs =>
      rw [scatter_cons, scatter_cons]
      exact ih (h.setCoef hr (his i (by simp)) v) hr (fun j hj => his j (by simp [hj])) vs

/-! ### The values commands compute from them -/

theorem make_congr {w : Nat} (o : LayoutOrder) {f g : Nat → Bool} (h : ∀ i, i < w → f i = g i) :
    make w o f = make w o g := by
  rw [make, make]
  congr 1
  exact List.foldl_ext _ _ _ fun d i hi => by rw [h i (List.mem_range.mp hi)]

theorem sliceOf_congr {p q : PolyReg} (h : p.SameSeen q) (hr : p.Readable) {S : List Nat}
    (hS : ∀ i ∈ S, i < p.width) : sliceOf p S = sliceOf q S := by
  rw [sliceOf, sliceOf, ← h.order]
  refine make_congr _ fun j hj => ?_
  rw [List.getD_eq_getElem _ _ hj]
  exact h.coef_eq hr (hS _ (List.getElem_mem hj))

theorem shiftOf_congr {p q : PolyReg} (h : p.SameSeen q) (hr : p.Readable) (n : Nat) : shiftOf p n = shiftOf q n := by
  rw [shiftOf, shiftOf, ← h.order, ← h.width_eq]
  refine make_congr _ fun i hi => ?_
  split_ifs
  · exact h.coef_eq hr (by omega)
  · rfl

theorem scaleOf_congr {p q : PolyReg} (h : p.SameSeen q) (hr : p.Readable) (v : Bool) : scaleOf p v = scaleOf q v := by
  rw [scaleOf, scaleOf, ← h.order, ← h.width_eq]
  exact make_congr _ fun i hi => by rw [h.coef_eq hr hi]

section
variable {a b a' b' : PolyReg} (ha : a.SameSeen a') (hb : b.SameSeen b') (hra : a.Readable) (hrb : b.Readable)
include ha hb hra hrb

theorem xorOf_congr : xorOf a b = xorOf a' b' := by
  rw [xorOf, xorOf, ← ha.order, ← ha.width_eq, ← hb.width_eq]
  exact make_congr _ fun i _ => by rw [ha.coefOrZero_eq hra, hb.coefOrZero_eq hrb]

theorem mulOf_congr : mulOf a b = mulOf a' b' := by
  rw [mulOf, mulOf, mulWidth, mulWidth, ← ha.order, ← ha.width_eq, ← hb.width_eq]
  refine make_congr _ fun i _ => ?_
  rw [mulCoef, mulCoef, ← hb.width_eq]
  exact List.foldl_ext _ _ _ fun acc k hk => by rw [hb.coef_eq hrb (List.mem_range.mp hk), ha.coefOrZero_eq hra]

theorem dividesInto_congr : dividesInto a b = dividesInto a' b' := by
  rw [dividesInto, dividesInto, ha.hsb_eq hra, hb.hsb_eq hrb]

end

/-! ### States that differ beyond len -/

/-- The state with other polynomial registers. -/
def State.withPolys (s : State) (ps : Vector PolyReg 16) : State := { s with polys := ps }

section
variable {s t : State} (h : s.SameSeen t)
include h

theorem State.SameSeen.setPoly (rd : Reg) {p q : PolyReg} (hpq : p.SameSeen q) :
    (s.setPoly rd p).SameSeen (t.setPoly rd q) := by
  refine ⟨fun r => ?_, congrArg (·.setPoly rd q) h.rest⟩
  rw [State.setPoly_poly, State.setPoly_poly]
  split_ifs
  · exact hpq
  · exact h.polys r

theorem State.SameSeen.setRes0 (v : Word) : (s.setRes0 v).SameSeen (t.setRes0 v) :=
  ⟨h.polys, congrArg (·.setRes0 v) h.rest⟩

theorem State.SameSeen.setRes1 (v : Word) : (s.setRes1 v).SameSeen (t.setRes1 v) :=
  ⟨h.polys, congrArg (·.setRes1 v) h.rest⟩

theorem State.SameSeen.setFlag (v : Bool) : (s.setFlag v).SameSeen (t.setFlag v) :=
  ⟨h.polys, congrArg (·.setFlag v) h.rest⟩

theorem State.SameSeen.setStage (m : Memory) : (s.setStage m).SameSeen (t.setStage m) :=
  ⟨h.polys, congrArg (·.setStage m) h.rest⟩

theorem State.SameSeen.drawn (n : Nat) : (s.drawn n).SameSeen (t.drawn n) :=
  ⟨h.polys, congrArg (·.drawn n) h.rest⟩

theorem State.SameSeen.finish : s.finish.SameSeen t.finish := ⟨h.polys, congrArg (·.finish) h.rest⟩

theorem State.SameSeen.raise (e : Err) (w : Word) : (s.raise e w).SameSeen (t.raise e w) :=
  ⟨h.polys, congrArg (·.raise e w) h.rest⟩

theorem State.SameSeen.exists_polys : ∃ ps, t = s.withPolys ps := ⟨t.polys, h.rest.symm⟩

theorem State.SameSeen.checkOperands_eq (rs : List Reg) : t.checkOperands rs = s.checkOperands rs := by
  rw [State.checkOperands, State.checkOperands]
  congr 1
  · exact List.map_congr_left fun r _ => by rw [(h.polys r).valid]
  · exact List.map_congr_left fun r _ => by rw [(h.polys r).widthOk_eq]

/-- A command makes the same checks: they look at descriptors alone. -/
theorem State.SameSeen.otherChecks_eq (i : Instr) : otherChecks i t = otherChecks i s := by
  obtain ⟨ps, rfl⟩ := h.exists_polys
  have hw := fun r => (h.polys r).width_eq.symm
  have ho := fun r => (h.polys r).order.symm
  cases i with
  | load rd d o | rand rd o | store ra | info ra | set rd | muls rd ra => rfl
  | get ra | shl rd ra => simp only [otherChecks, hw]; rfl
  | slice rd ra => simp only [otherChecks, State.seqCheck, hw]; rfl
  | setr rd ra => simp only [otherChecks, State.checkOrder, State.seqCheck, hw, ho]; rfl
  | xor rd ra rb | divt ra rb => simp only [otherChecks, State.checkOrder, ho]
  | mul rd ra rb => simp only [otherChecks, State.checkOrder, mulWidth, hw, ho]; rfl

theorem State.SameSeen.waits_iff (i : Instr) : Waits i t ↔ Waits i s := by
  obtain ⟨ps, rfl⟩ := h.exists_polys
  rfl

end

/-- A command that passed its checks does the same to what can be seen. -/
theorem effectOf_sameSeen {i : Instr} {s t : State} (h : s.SameSeen t) (hwait : ¬ Waits i s)
    (hread : ∀ r ∈ operandsOf i, (s.poly r).Readable) (hpass : firstError (otherChecks i s) = none) :
    (effectOf i s).SameSeen (effectOf i t) := by
  obtain ⟨ps, rfl⟩ := h.exists_polys
  have hp := h.polys
  cases i with
  | load rd d o =>
    exact (h.setPoly rd (p := loadedReg s rd d o) (q := loadedReg (s.withPolys ps) rd d o)
      (sameSeen_of_writeBytes (vs := s.stageBytes s.loadLen) rfl rfl rfl rfl
        (by simp [loadedReg, State.stageBytes]) rfl rfl)).drawn s.loadLen
  | rand rd o =>
    have hle : s.randWidth ≤ s.cfg.wmax := by simpa [otherChecks] using hpass
    have hbytes : s.randLen ≤ s.received.length := randLen_le_of_not_waits hwait hle
    exact h.setPoly rd (p := randReg s rd o) (q := randReg (s.withPolys ps) rd o)
      (sameSeen_of_writeBytes (vs := s.received.take s.randLen) rfl rfl rfl rfl (by simp [randReg, hbytes]) rfl rfl)
  | store ra =>
    rw [effectOf, effectOf, (hp ra).polyBytes_eq, (hp ra).len]
    exact (h.setStage _).setRes0 _
  | info ra =>
    rw [effectOf, effectOf, (hp ra).descriptor_eq, (hp ra).bits]
    exact (h.setRes0 _).setRes1 _
  | get ra =>
    have hindex : s.index.toNat < (s.poly ra).width := by
      simp only [otherChecks, firstError_cons, firstError_nil, decide_eq_true_eq] at hpass
      split_ifs at hpass
      omega
    rw [effectOf, effectOf, (hp ra).coef_eq (hread ra (by simp [operandsOf])) hindex]
    exact h.setRes0 _
  | set rd =>
    have hw := (hp rd).width_eq
    by_cases hi : s.arg0.toInt ≥ (s.poly rd).width
    · rw [effectOf_set_of_index_ge hi, effectOf_set_of_index_ge (s := s.withPolys ps) (hw ▸ hi)]
      exact h
    · have hlt : s.arg0.toInt < (s.poly rd).width := not_le.mp hi
      have hpos : 0 ≤ s.arg0.toInt := by
        rw [firstError_otherChecks_set] at hpass
        split_ifs at hpass
        omega
      rw [effectOf_set_of_index_lt hlt, effectOf_set_of_index_lt (s := s.withPolys ps) (hw ▸ hlt)]
      exact h.setPoly rd ((hp rd).setCoef (hread rd (by simp [operandsOf])) (by omega) _)
  | slice rd ra =>
    have heq := sliceOf_congr (hp ra) (hread ra (by simp [operandsOf])) (positions_lt hpass).2
    exact h.setPoly rd (p := sliceOf (s.poly ra) s.positions) (heq ▸ .refl _)
  | setr rd ra =>
    have hra : (s.poly ra).Readable := hread ra (by simp [operandsOf])
    rw [firstError_otherChecks_setr, Option.or_eq_none_iff, Option.or_eq_none_iff] at hpass
    obtain ⟨-, hseq, hwidth⟩ := hpass
    have hlen : (s.poly ra).width = s.positions.length := by simpa using hwidth
    have hvalue : setrValue s ra = setrValue (s.withPolys ps) ra :=
      List.map_congr_left fun j hj => (hp ra).coef_eq hra (hlen ▸ List.mem_range.mp hj)
    have hscatter := (hp rd).scatter (hread rd (by simp [operandsOf])) (positions_lt hseq).2 (setrValue s ra)
    exact h.setPoly rd (q := ((s.withPolys ps).poly rd).scatter s.positions (setrValue (s.withPolys ps) ra))
      (hvalue ▸ hscatter)
  | xor rd ra rb =>
    have heq := xorOf_congr (hp ra) (hp rb) (hread ra (by simp [operandsOf])) (hread rb (by simp [operandsOf]))
    exact h.setPoly rd (p := xorOf (s.poly ra) (s.poly rb)) (heq ▸ .refl _)
  | shl rd ra =>
    have heq := shiftOf_congr (hp ra) (hread ra (by simp [operandsOf])) s.shiftAmount
    exact h.setPoly rd (p := shiftOf (s.poly ra) s.shiftAmount) (heq ▸ .refl _)
  | mul rd ra rb =>
    have heq := mulOf_congr (hp ra) (hp rb) (hread ra (by simp [operandsOf])) (hread rb (by simp [operandsOf]))
    exact h.setPoly rd (p := mulOf (s.poly ra) (s.poly rb)) (heq ▸ .refl _)
  | muls rd ra =>
    have heq := scaleOf_congr (hp ra) (hread ra (by simp [operandsOf])) (s.scalar == 1)
    exact h.setPoly rd (p := scaleOf (s.poly ra) (s.scalar == 1)) (heq ▸ .refl _)
  | divt ra rb =>
    have heq := dividesInto_congr (hp ra) (hp rb) (hread ra (by simp [operandsOf])) (hread rb (by simp [operandsOf]))
    simp only [effectOf, ← heq]
    exact (h.setFlag _).setRes0 _

end Sys2Proof.Machine

/-! ## The obligations about what a command does not see -/

namespace Sys2Proof.Machine

open Sys2Proof

/-- Settles O37: neither the checks nor the effect of such a command look at STAGE. -/
theorem otherCommandsDoNotTouchStage : Obligations.OtherCommandsDoNotTouchStage := by
  intro i s t m n hload hstore h
  obtain ⟨hstage, hdraws⟩ := effectOf_stage_draws hload hstore s
  change t.stage = s.stage ∧ t.draws = s.draws ∧ exec i (s.withStage m n) = .next (t.withStage m n)
  by_cases hw : Waits i s
  · rw [exec_of_waits hw] at h
    injection h with h
    subst h
    exact ⟨rfl, rfl, exec_of_waits (s := s.withStage m n) hw⟩
  · have hw' : ¬ Waits i (s.withStage m n) := hw
    rw [exec_eq_command hw] at h
    rw [exec_eq_command hw', otherChecks_withStage, effectOf_withStage hload hstore]
    rcases command_cases h with ⟨e, he, rfl⟩ | ⟨hpass, rfl⟩
    · exact ⟨rfl, rfl, command_of_some he⟩
    · exact ⟨hstage, hdraws, command_of_none hpass⟩

/-- Settles O38: the checks look at descriptors alone, and the effects at the bytes below len. -/
theorem bytesBeyondLenAreUnobservable : Obligations.BytesBeyondLenAreUnobservable := by
  intro i s s' t hs h
  by_cases hw : Waits i s
  · rw [exec_of_waits hw] at h
    injection h with h
    subst h
    exact ⟨s', exec_of_waits ((hs.waits_iff i).mpr hw), hs⟩
  · rw [exec_eq_command (mt (hs.waits_iff i).mp hw), hs.checkOperands_eq, hs.otherChecks_eq]
    rw [exec_eq_command hw] at h
    rcases command_cases h with ⟨e, he, rfl⟩ | ⟨hpass, rfl⟩
    · exact ⟨_, command_of_some he, hs.raise e _⟩
    · obtain ⟨hread, hother⟩ := checks_passed hpass
      exact ⟨_, command_of_none hpass, (effectOf_sameSeen hs hw hread hother).finish⟩

end Sys2Proof.Machine

/-! ## Facts for the obligations about arithmetic laws (41_bit_addressing.md R85, 42_arithmetic.md) -/

namespace Sys2Proof.Machine

open Sys2Proof

/-! ### Fresh values as operands (R26, R102) -/

theorem coefOrZero_of_lt {p : PolyReg} {i : Nat} (h : i < p.width) : p.coefOrZero i = p.coef i := if_pos h

theorem coefOrZero_of_width_le {p : PolyReg} {i : Nat} (h : p.width ≤ i) : p.coefOrZero i = false :=
  if_neg (not_lt.mpr h)

section
variable {p : PolyReg} {w : Nat} {o : LayoutOrder} {f : Nat → Bool} (h : p.Fresh w o f)
include h

theorem PolyReg.Fresh.readable : p.Readable := ⟨h.valid, by rw [h.width, h.len]; exact ceil8_mul_le w⟩

theorem PolyReg.Fresh.coefOrZero (i : Nat) : p.coefOrZero i = (decide (i < w) && f i) := by
  rw [coefOrZero_eq, h.width]
  by_cases hi : i < w
  · rw [h.coef i hi]
  · simp [hi]

end

/-- A command that ends without an error has passed its checks and taken its effect. -/
theorem exec_of_no_err {i : Instr} {s t : State} (h : exec i s = .next t) (ht : t.err = false)
    (hrand : ∀ rd o, i ≠ .rand rd o) :
    (∀ r ∈ operandsOf i, (s.poly r).Readable) ∧ firstError (otherChecks i s) = none ∧ t = (effectOf i s).finish := by
  rcases exec_passed_cases h with ⟨hw, -⟩ | ⟨e, rfl⟩ | ⟨-, hpassed⟩
  · exact absurd hw (not_waits_of_ne_rand hrand s)
  · simp at ht
  · exact hpassed

/-! ### SLICE and SETR of it back (R85) -/

/-- The value SETR scatters from a slice is what the positions of the slice held. -/
theorem map_coef_sliceOf (p : PolyReg) {S : List Nat} (hS : S.length < 2 ^ 32) :
    (List.range S.length).map (sliceOf p S).coef = S.map p.coef := by
  refine List.ext_getElem (by simp) fun j hj _ => ?_
  have hlt : j < S.length := by simpa using hj
  rw [List.getElem_map, List.getElem_map, List.getElem_range, sliceOf, make_coef hS _ _ hlt,
    List.getD_eq_getElem _ _ hlt]

/-! ### XOR twice (R90) -/

/-- XOR of two readable registers of one order takes its effect. -/
theorem exec_xor_of_order_eq {s : State} {ra rb : Reg} (rd : Reg) (ha : (s.poly ra).Readable)
    (hb : (s.poly rb).Readable) (ho : (s.poly ra).order = (s.poly rb).order) :
    exec (.xor rd ra rb) s = .next (s.setPoly rd (xorOf (s.poly ra) (s.poly rb))).finish :=
  exec_of_otherChecks_none nofun (by simpa [operandsOf] using ⟨ha, hb⟩) (checkOrder_pass ho)

/-- Coefficient i of the sum, 0 beyond the widths. -/
theorem xorOf_coefOrZero (a b : PolyReg) (i : Nat) :
    (xorOf a b).coefOrZero i = (a.coefOrZero i ^^ b.coefOrZero i) := by
  rw [(xorOf_fresh a b).coefOrZero, coefOrZero_eq a, coefOrZero_eq b]
  by_cases hi : i < max a.width b.width
  · simp [hi]
  · rw [lt_max_iff, not_or] at hi
    simp [hi]

theorem xorOf_xorOf_coefOrZero (a b : PolyReg) (i : Nat) : (xorOf (xorOf a b) b).coefOrZero i = a.coefOrZero i := by
  rw [xorOf_coefOrZero, xorOf_coefOrZero, Bool.xor_assoc, Bool.xor_self, Bool.xor_false]

theorem xorOf_width (a b : PolyReg) : (xorOf a b).width = max a.width b.width := (xorOf_fresh a b).width

theorem xorOf_readable (a b : PolyReg) : (xorOf a b).Readable := (xorOf_fresh a b).readable

/-! ### The ring of polynomials over GF(2) (00_scope.md section 6) -/

/-- A bit as an element of GF(2). -/
def gf2 (b : Bool) : ZMod 2 := if b then 1 else 0

theorem gf2_xor (a b : Bool) : gf2 (a ^^ b) = gf2 a + gf2 b := by
  cases a <;> cases b <;> decide

theorem gf2_odd (n : Nat) : gf2 (decide (n % 2 = 1)) = n := by
  rcases Nat.mod_two_eq_zero_or_one n with h | h
  · rw [h, (ZMod.natCast_eq_zero_iff_even).mpr (Nat.even_iff.mpr h)]
    rfl
  · rw [h, (ZMod.natCast_eq_one_iff_odd).mpr (Nat.odd_iff.mpr h)]
    rfl

theorem sum_gf2_eq_countP (f : Nat → Bool) (n : Nat) :
    (∑ k ∈ Finset.range n, gf2 (f k)) = ((List.range n).countP f : ZMod 2) := by
  induction n with
  | zero => rfl
  | succ n ih =>
    rw [Finset.sum_range_succ, ih, List.range_succ, List.countP_append, Nat.cast_add]
    cases h : f n <;> simp [gf2, h]

/-- The polynomial a register holds: the sum of x^i over its coefficients that are 1. -/
noncomputable def ringPoly (p : PolyReg) : Polynomial (ZMod 2) :=
  (Finset.range p.width).sum fun i => if p.coef i then Polynomial.X ^ i else 0

theorem coeff_ringPoly (p : PolyReg) (i : Nat) : (ringPoly p).coeff i = gf2 (p.coefOrZero i) := by
  have hterm : ∀ j, (if p.coef j then (Polynomial.X : Polynomial (ZMod 2)) ^ j else 0).coeff i =
      if i = j then gf2 (p.coef i) else 0 := by
    intro j
    rw [gf2]
    split_ifs with hj hij <;> simp_all [Polynomial.coeff_X_pow]
  rw [ringPoly, Polynomial.finsetSum_coeff, Finset.sum_congr rfl fun j _ => hterm j, Finset.sum_ite_eq,
    PolyReg.coefOrZero]
  simp only [Finset.mem_range]
  split_ifs <;> rfl

theorem ringPoly_xorOf (a b : PolyReg) : ringPoly (xorOf a b) = ringPoly a + ringPoly b := by
  ext i
  rw [Polynomial.coeff_add, coeff_ringPoly, coeff_ringPoly, coeff_ringPoly, xorOf_coefOrZero, gf2_xor]

theorem ringPoly_shiftOf (a : PolyReg) {n : Nat} (h : a.width + n < 2 ^ 32) :
    ringPoly (shiftOf a n) = Polynomial.X ^ n * ringPoly a := by
  ext i
  rw [Polynomial.coeff_X_pow_mul', coeff_ringPoly, coeff_ringPoly, (shiftOf_fresh a h).coefOrZero, coefOrZero_eq]
  by_cases hn : n ≤ i
  · have hlt : decide (i < a.width + n) = decide (i - n < a.width) := decide_eq_decide.mpr (by omega)
    rw [if_pos hn, decide_eq_true hn, Bool.true_and, hlt]
  · simp [hn, gf2]

theorem ringPoly_scaleOf (a : PolyReg) (v : Bool) : ringPoly (scaleOf a v) = if v then ringPoly a else 0 := by
  ext i
  rw [coeff_ringPoly, (scaleOf_fresh a v).coefOrZero]
  cases v with
  | true => rw [if_pos rfl, coeff_ringPoly, coefOrZero_eq, Bool.true_and]
  | false => simp [gf2]

/-- Beyond the width of the product every term is 0 (R92). -/
theorem mulTerm_of_mulWidth_le {a b : PolyReg} {i k : Nat} (hi : mulWidth a b ≤ i) (hk : k < b.width) :
    mulTerm a b i k = false := by
  have hno : ¬ (k ≤ i ∧ i - k < a.width) := by
    rw [mulWidth] at hi
    omega
  simp [mulTerm, hno]

theorem ringPoly_mulOf {a b : PolyReg} (h : mulWidth a b < 2 ^ 32) :
    ringPoly (mulOf a b) = ringPoly a * ringPoly b := by
  ext i
  have hterm : ∀ k, (ringPoly a * if b.coef k then Polynomial.X ^ k else 0).coeff i = gf2 (mulTerm a b i k) := by
    intro k
    rw [mulTerm]
    cases b.coef k with
    | false => simp [gf2]
    | true =>
      rw [if_pos rfl, Polynomial.coeff_mul_X_pow', coeff_ringPoly, coefOrZero_eq]
      by_cases hk : k ≤ i <;> simp [hk, gf2]
  have hproduct : (ringPoly a * ringPoly b).coeff i = ((List.range b.width).countP (mulTerm a b i) : ZMod 2) := by
    rw [ringPoly.eq_def b, Finset.mul_sum, Polynomial.finsetSum_coeff, Finset.sum_congr rfl fun k _ => hterm k,
      sum_gf2_eq_countP]
  rw [hproduct, coeff_ringPoly, (mulOf_fresh h).coefOrZero]
  by_cases hi : i < mulWidth a b
  · rw [decide_eq_true hi, Bool.true_and, gf2_odd]
  · have hzero : (List.range b.width).countP (mulTerm a b i) = 0 := by
      rw [List.countP_eq_zero]
      intro k hk
      simp [mulTerm_of_mulWidth_le (not_lt.mp hi) (List.mem_range.mp hk)]
    simp [hzero, gf2]

end Sys2Proof.Machine

/-! ## The obligations about arithmetic laws -/

namespace Sys2Proof.Machine

open Sys2Proof

/-- Settles O20: the slice holds what its positions held, and writing that back changes no byte. -/
theorem sliceScatterRoundTrip : Obligations.SliceScatterRoundTrip := by
  intro s pp pt h hne hread herr hrange
  have hlen : s.positions.length < 2 ^ 32 := (positions_length_le hrange).trans_lt (s.poly pp).bits.isLt
  have hfresh := sliceOf_positions_fresh (p := s.poly pp) hrange
  obtain ⟨t, ht⟩ : ∃ t, t = (s.setPoly pt (sliceOf (s.poly pp) s.positions)).finish := ⟨_, rfl⟩
  have hpp : t.poly pp = s.poly pp := by rw [ht, State.finish_poly, State.setPoly_poly_other _ hne.symm]
  have hpt : t.poly pt = sliceOf (s.poly pp) s.positions := by rw [ht, State.finish_poly, State.setPoly_poly_same]
  have hpos : t.positions = s.positions := by rw [ht]; rfl
  have hvalue : setrValue t pt = s.positions.map (s.poly pp).coef := by
    rw [setrValue, hpt, hpos, map_coef_sliceOf _ hlen]
  have hsetr := exec_setr_of_width_eq (s := t) (rd := pp) (ra := pt) (hpt ▸ hfresh.readable) (hpp ▸ hread)
    (by rw [hpt, hpp]; rfl) (by rw [hpp, ht]; exact hrange) (by rw [hpt, hpos, hfresh.width])
  refine ⟨t, _, ht ▸ exec_slice_of_inRange pt hread hrange, hsetr, by rw [ht]; exact herr, by rw [ht]; exact herr, ?_⟩
  rw [State.finish_poly, State.setPoly_poly_same, hvalue, hpp, hpos]
  exact scatter_self (h.polys pp) hread.2 _ (positions_lt ((firstError_seqCheck s _).1 hrange)).2

/-- Settles O27: each effect is the ring's operation on `ringPoly`. -/
theorem commandsComputeInTheRingOfPolynomials : Obligations.CommandsComputeInTheRingOfPolynomials := by
  intro poly hpoly s t rd ra rb hlegal _ ht
  obtain rfl : poly = ringPoly := funext hpoly
  refine ⟨fun h => ?_, fun h => ?_, fun h => ?_, fun h => ?_⟩
  · obtain ⟨-, -, rfl⟩ := exec_of_no_err h ht nofun
    rw [State.finish_poly, effectOf, State.setPoly_poly_same, ringPoly_xorOf]
  · obtain ⟨-, hpass, rfl⟩ := exec_of_no_err h ht nofun
    have hle : (s.poly ra).width + s.arg0.toNat ≤ 8 * s.cfg.capb := by
      simpa [otherChecks, State.shiftAmount, uint32, Config.wmax] using hpass
    rw [State.finish_poly, effectOf, State.setPoly_poly_same]
    exact ringPoly_shiftOf _ (lt_two_pow_of_le_wmax hlegal hle)
  · obtain ⟨-, hpass, rfl⟩ := exec_of_no_err h ht nofun
    have hle : s.arg0.toNat ≤ 1 := by simpa [otherChecks, State.scalar, uint32] using hpass
    rw [State.finish_poly, effectOf, State.setPoly_poly_same, ringPoly_scaleOf, State.scalar, uint32]
    rcases Nat.le_one_iff_eq_zero_or_eq_one.mp hle with h0 | h1
    · simp [h0]
    · simp [h1]
  · obtain ⟨-, hpass, rfl⟩ := exec_of_no_err h ht nofun
    have hle : mulWidth (s.poly ra) (s.poly rb) ≤ 8 * s.cfg.capb := by
      simpa [otherChecks, Config.wmax] using (Option.or_eq_none_iff.mp ((firstError_append _ _).symm.trans hpass)).2
    rw [State.finish_poly, effectOf, State.setPoly_poly_same]
    exact ringPoly_mulOf (lt_two_pow_of_le_wmax hlegal hle)

/-- Settles O28: the second sum takes b away again, coefficient by coefficient. -/
theorem xorIsItsOwnInverse : Obligations.XorIsItsOwnInverse := by
  intro s rd re ra rb hne herr ha hb ho
  obtain ⟨t, ht⟩ : ∃ t, t = (s.setPoly rd (xorOf (s.poly ra) (s.poly rb))).finish := ⟨_, rfl⟩
  have hrd : t.poly rd = xorOf (s.poly ra) (s.poly rb) := by rw [ht, State.finish_poly, State.setPoly_poly_same]
  have hrb : t.poly rb = s.poly rb := by rw [ht, State.finish_poly, State.setPoly_poly_other _ hne.symm]
  have hwidth : (xorOf (xorOf (s.poly ra) (s.poly rb)) (s.poly rb)).width =
      max (s.poly ra).width (s.poly rb).width := by
    rw [xorOf_width, xorOf_width, max_assoc, max_self]
  have hu := exec_xor_of_order_eq (s := t) (ra := rd) (rb := rb) re (hrd ▸ xorOf_readable _ _) (hrb ▸ hb)
    (by rw [hrd, hrb]; exact ho)
  refine ⟨t, _, ht ▸ exec_xor_of_order_eq rd ha hb ho, hu, by rw [ht]; exact herr, ?_⟩
  rw [State.finish_poly, State.setPoly_poly_same, hrd, hrb]
  refine ⟨hwidth, fun i hi => ?_, fun i hi hlt => ?_⟩
  · rw [← coefOrZero_of_lt (by rw [hwidth]; exact lt_max_of_lt_left hi), xorOf_xorOf_coefOrZero, coefOrZero_of_lt hi]
  · rw [← coefOrZero_of_lt hlt, xorOf_xorOf_coefOrZero, coefOrZero_of_width_le hi]

end Sys2Proof.Machine

/-! ## Facts for the obligations about the host's procedures (30_encoding.md section 5, 42_arithmetic.md R96) -/

namespace Sys2Proof.Machine

open Sys2Proof

/-! ### One access of a host procedure (00_scope.md R17) -/

/-- The state after the host has written argument registers. -/
def State.withArgs (s : State) (a b c : Word) : State :=
  { s with arg0 := a, arg1 := b, arg2 := c, response := some .writeDone }

/-- What the host finds after a command of its own that wrote the register rd: an idle unit with no error, and every
other register as before. -/
structure Wrote (rd : Reg) (p : PolyReg) (s t : State) : Prop where
  idle   : t.phase = .idle
  err    : t.err = false
  cfg    : t.cfg = s.cfg
  arg2   : t.arg2 = s.arg2
  same   : t.poly rd = p
  others : KeepsOtherPolys rd s t

theorem issueAll_cons_of_next {a : Access} {s t : State} (h : issue a s = .next t) (as : List Access) :
    issueAll (a :: as) s = issueAll as t := by
  rw [issueAll, h, andThen]

/-- A register write of the host to an idle unit that leaves it idle. -/
theorem issue_w32_of_idle {s : State} {off : BitVec 12} (v : Word) (ha : off.toNat % 4 = 0)
    (hl : off.toNat < Access.stageBase) (hp : (s.writeReg off.toNat v).phase = .idle) :
    issue (w32 off v) s = .next ((s.writeReg off.toNat v).respond .writeDone) := by
  rw [issue, access_registerWrite (w32_wf v ha) rfl hl]
  exact unitTurn_of_idle hp

section
variable {s : State} (hp : s.phase = .idle) (v : Word)
include hp

theorem issue_setArg0 : issue (setArg0 v) s = .next (s.withArgs v s.arg1 s.arg2) :=
  issue_w32_of_idle v (by decide) (by decide) hp

theorem issue_setArg1 : issue (setArg1 v) s = .next (s.withArgs s.arg0 v s.arg2) :=
  issue_w32_of_idle v (by decide) (by decide) hp

theorem issue_setArg2 : issue (setArg2 v) s = .next (s.withArgs s.arg0 s.arg1 v) :=
  issue_w32_of_idle v (by decide) (by decide) hp

end

theorem issue_statusRead {s : State} (hp : s.phase = .idle) :
    issue (r32 0x004) s = .next (s.respond (.readDone s.statusWord)) := by
  rw [issue, access_statusRead rfl]
  exact unitTurn_of_idle hp

/-- Writes of ARG0 and ARG1 at the head of a procedure. -/
theorem issueAll_setArg01 {s : State} (hp : s.phase = .idle) (a b : Word) (as : List Access) :
    issueAll (setArg0 a :: setArg1 b :: as) s = issueAll as (s.withArgs a b s.arg2) := by
  rw [issueAll_cons_of_next (issue_setArg0 hp a),
    issueAll_cons_of_next (issue_setArg1 (s := s.withArgs a s.arg1 s.arg2) hp b)]
  rfl

/-- Writes of ARG0, ARG1 and ARG2 at the head of a procedure. -/
theorem issueAll_setArg012 {s : State} (hp : s.phase = .idle) (a b c : Word) (as : List Access) :
    issueAll (setArg0 a :: setArg1 b :: setArg2 c :: as) s = issueAll as (s.withArgs a b c) := by
  rw [issueAll_setArg01 hp, issueAll_cons_of_next (issue_setArg2 (s := s.withArgs a b s.arg2) hp c)]
  rfl

/-- The state after the CMD write of a command was accepted. -/
def State.started (s : State) (i : Instr) : State :=
  { s with phase := .busy (encode i), response := some .writeDone }

@[simp] theorem State.started_poly (s : State) (i : Instr) (r : Reg) : (s.started i).poly r = s.poly r := rfl

/-- The word of a command written to CMD runs the command (R106). -/
theorem issue_line {s : State} (he : s.err = false) (i : Instr) : issue (line i) s = exec i (s.started i) := by
  have hbelow : (0x000 : BitVec 12).toNat < Access.stageBase := by decide
  rw [issue, line, access_registerWrite (w32_wf _ (by decide)) rfl hbelow]
  have hstart : (s.writeReg 0 (encode i)).respond .writeDone = s.started i :=
    congrArg (State.respond · .writeDone) (acceptCommand_of_no_err he (encode i))
  exact (congrArg State.unitTurn hstart).trans (unitTurn_of_decode_ok rfl (decode_encode i))

theorem issue_line_writes {s : State} (he : s.err = false) {i : Instr} {rd : Reg} {p : PolyReg}
    (h : exec i (s.started i) = .next ((s.started i).setPoly rd p).finish) :
    ∃ t, issue (line i) s = .next t ∧ Wrote rd p s t := by
  refine ⟨_, (issue_line he i).trans h, ⟨rfl, he, rfl, rfl, ?_, fun r hr => ?_⟩⟩
  · rw [State.finish_poly, State.setPoly_poly_same]
  · rw [State.finish_poly, State.setPoly_poly_other _ hr, State.started_poly]

section
variable {s : State} (he : s.err = false) {ra rb : Reg} (rd : Reg) {p q : PolyReg} (hp : s.poly ra = p)
  (hread : p.Readable)
include he hp hread

theorem issue_shl {n : Nat} (h0 : s.arg0 = BitVec.ofNat 32 n) (hw : p.width + n ≤ 8 * s.cfg.capb)
    (hsmall : n < 2 ^ 32) : ∃ t, issue (line (.shl rd ra)) s = .next t ∧ Wrote rd (shiftOf p n) s t := by
  subst hp
  obtain rfl : s.arg0.toNat = n := by rw [h0]; exact Nat.mod_eq_of_lt hsmall
  exact issue_line_writes he (exec_of_otherChecks_none (s := s.started (.shl rd ra)) nofun
    (by simpa [operandsOf] using hread) (firstError_otherChecks_shl_of_width_le rd hw))

theorem issue_xor (hq : s.poly rb = q) (hreadq : q.Readable) (ho : p.order = q.order) :
    ∃ t, issue (line (.xor rd ra rb)) s = .next t ∧ Wrote rd (xorOf p q) s t := by
  subst hp hq
  exact issue_line_writes he (exec_xor_of_order_eq (s := s.started (.xor rd ra rb)) rd hread hreadq ho)

/-- A SLICE of the coefficients from a up to b, at step 1. -/
theorem issue_slice {a b : Nat} (h0 : s.arg0 = BitVec.ofNat 32 a) (h1 : s.arg1 = BitVec.ofNat 32 b) (h2 : s.arg2 = 1)
    (ha : a < p.width) (hb : b ≤ p.width) (hsmall : p.width < 2 ^ 31) :
    ∃ t, issue (line (.slice rd ra)) s = .next t ∧ Wrote rd (sliceOf p (seq a b 1)) s t := by
  subst hp
  have toInt_small : ∀ n, n < 2 ^ 31 → (BitVec.ofNat 32 n).toInt = n := fun n hn => by
    have hmod : (BitVec.ofNat 32 n).toNat = n := Nat.mod_eq_of_lt (by omega)
    rw [BitVec.toInt_eq_toNat_of_lt (by omega), hmod]
  have hstart : s.arg0.toInt = a := by rw [h0, toInt_small a (by omega)]
  have hstop : s.arg1.toInt = b := by rw [h1, toInt_small b (by omega)]
  have hstep : s.arg2.toInt = 1 := by rw [h2]; rfl
  have hrange : s.InRange (s.poly ra).width := by
    rw [State.InRange, hstart, hstop, hstep]
    omega
  have hpos : s.positions = seq a b 1 := by
    rw [State.positions, State.start, State.stop, State.stride, sint32, sint32, sint32, hstart, hstop, hstep]
    rfl
  rw [← hpos]
  exact issue_line_writes he (exec_slice_of_inRange (s := s.started (.slice rd ra)) rd hread hrange)

end

/-- The coefficients from a up to b as a polynomial of their own. -/
theorem sliceOf_seq_one_fresh (p : PolyReg) {a b : Nat} (h : b - a < 2 ^ 32) :
    (sliceOf p (seq a b 1)).Fresh (b - a) p.order (fun j => p.coef (a + j)) := by
  have hlen : (seq a b 1).length = b - a := by
    rw [length_seq, seqLen, Nat.add_sub_cancel, Nat.div_one, ite_eq_left_iff]
    omega
  have hfresh := make_fresh (w := (seq a b 1).length) (hlen ▸ h) p.order (fun j => p.coef ((seq a b 1).getD j 0))
  refine hlen ▸ hfresh.congr fun j hj => ?_
  rw [List.getD_eq_getElem _ _ hj, getElem_seq, Nat.mul_one]

/-! ### The rotate expansion (R64) -/

/-- What the rotate expansion leaves in its destination: the low w coefficients of x^n * p, plus the ones from w on. -/
def rotated (p : PolyReg) (n w : Nat) : PolyReg :=
  xorOf (sliceOf (shiftOf p n) (seq 0 w 1)) (sliceOf (shiftOf p n) (seq w (w + n) 1))

section
variable {p : PolyReg} {n w : Nat} (hw : p.width = w) (hn : n ≤ w) (hsmall : w + n < 2 ^ 31)
include hw hsmall

theorem shiftOf_fresh_of_width : (shiftOf p n).Fresh (w + n) p.order (fun i => decide (n ≤ i) && p.coef (i - n)) :=
  hw ▸ shiftOf_fresh p (by omega)

include hn

theorem rotated_width : (rotated p n w).width = w := by
  have hlow := sliceOf_seq_one_fresh (shiftOf p n) (a := 0) (b := w) (by omega)
  have hhigh := sliceOf_seq_one_fresh (shiftOf p n) (a := w) (b := w + n) (by omega)
  rw [rotated, (xorOf_fresh _ _).width, hlow.width, hhigh.width]
  omega

theorem rotated_coef {i : Nat} (hi : i < w) : (rotated p n w).coef i = p.coef ((i + (w - n)) % w) := by
  have hshift := shiftOf_fresh_of_width hw hsmall
  have hlow := sliceOf_seq_one_fresh (shiftOf p n) (a := 0) (b := w) (by omega)
  have hhigh := sliceOf_seq_one_fresh (shiftOf p n) (a := w) (b := w + n) (by omega)
  rw [← coefOrZero_of_lt (hi.trans_eq (rotated_width hw hn hsmall).symm), rotated, xorOf_coefOrZero,
    hlow.coefOrZero, hhigh.coefOrZero, hshift.coef (0 + i) (by omega)]
  rcases Nat.lt_or_ge i n with hin | hin
  · rw [hshift.coef (w + i) (by omega), show (i + (w - n)) % w = w + i - n by rw [Nat.mod_eq_of_lt] <;> omega]
    simp [hin, Nat.not_le.mpr hin, show n ≤ w + i by omega]
  · rw [show (i + (w - n)) % w = i - n by
      rw [show i + (w - n) = i - n + w by omega, Nat.add_mod_right, Nat.mod_eq_of_lt (by omega)]]
    simp [hi, hin, Nat.not_lt.mpr hin]

end

/-- The ten accesses of the rotate expansion leave `rotated` in the destination and change no register but it and the
scratch. -/
theorem issueAll_expandRotl {s : State} {pd pa pt : Reg} {n w : Nat} (hlegal : s.cfg.Legal) (hp : s.phase = .idle)
    (he : s.err = false) (ha : (s.poly pa).Readable) (hw : (s.poly pa).width = w) (hn : 1 ≤ n ∧ n ≤ w) (hne : pt ≠ pd)
    (hfit : w + n ≤ 8 * s.cfg.capb) :
    ∃ t, issueAll (expandRotl pd pa n w pt) s = .next t ∧ t.err = false ∧ t.phase = .idle ∧
      t.poly pd = rotated (s.poly pa) n w ∧ ∀ r, r ≠ pd → r ≠ pt → t.poly r = s.poly r := by
  have hcapb : s.cfg.capb ≤ 2048 := hlegal.2
  have hshift := shiftOf_fresh_of_width hw (show w + n < 2 ^ 31 by omega)
  have hlow := sliceOf_seq_one_fresh (shiftOf (s.poly pa) n) (a := 0) (b := w) (by omega)
  have hhigh := sliceOf_seq_one_fresh (shiftOf (s.poly pa) n) (a := w) (b := w + n) (by omega)
  have hwidth := hshift.width
  -- pt gets the shift, pd the coefficients it moved beyond w, pt the ones below w, and pd their sum
  obtain ⟨s1, e1, h1⟩ := issue_shl (s := s.withArgs (BitVec.ofNat 32 n) s.arg1 s.arg2) he pt (ra := pa)
    (p := s.poly pa) rfl ha rfl (hw ▸ hfit) (by omega)
  obtain ⟨s2, e2, h2⟩ := issue_slice (s := s1.withArgs (BitVec.ofNat 32 w) (BitVec.ofNat 32 (w + n)) 1) h1.err pd
    h1.same hshift.readable rfl rfl rfl (by omega) (by omega) (by omega)
  have hpt : s2.poly pt = shiftOf (s.poly pa) n := (h2.others pt hne).trans h1.same
  obtain ⟨s3, e3, h3⟩ := issue_slice (s := s2.withArgs 0 (BitVec.ofNat 32 w) s2.arg2) h2.err pt
    hpt hshift.readable (a := 0) rfl rfl h2.arg2 (by omega) (by omega) (by omega)
  have hpd : s3.poly pd = sliceOf (shiftOf (s.poly pa) n) (seq w (w + n) 1) := (h3.others pd hne.symm).trans h2.same
  obtain ⟨s4, e4, h4⟩ := issue_xor h3.err pd h3.same hlow.readable hpd hhigh.readable rfl
  refine ⟨s4, ?_, h4.err, h4.idle, ?_, fun r hrd hrt => ?_⟩
  · rw [expandRotl, issueAll_cons_of_next (issue_setArg0 hp _), issueAll_cons_of_next e1, issueAll_setArg012 h1.idle,
      issueAll_cons_of_next e2, issueAll_setArg01 h2.idle, issueAll_cons_of_next e3, issueAll_cons_of_next e4, issueAll]
  · exact h4.same
  · exact (h4.others r hrd).trans ((h3.others r hrt).trans ((h2.others r hrd).trans (h1.others r hrt)))

end Sys2Proof.Machine

/-! ## The obligations about the host's procedures -/

namespace Sys2Proof.Machine

open Sys2Proof

/-- Settles O29: the expansion leaves `rotated`, whose coefficients are the source's, turned by n. -/
theorem rotlExpansionRotates : Obligations.RotlExpansionRotates := by
  intro s pd pa pt n w hlegal hp he ha hw hwf hfit
  obtain ⟨hn, hne⟩ : (1 ≤ n ∧ n ≤ w) ∧ pt ≠ pd := by simpa [Pseudo.wf] using hwf
  have hcapb : s.cfg.capb ≤ 2048 := hlegal.2
  obtain ⟨t, ht, hterr, htidle, hpd, hothers⟩ := issueAll_expandRotl hlegal hp he ha hw hn hne hfit
  refine ⟨t, ht, hterr, htidle, ?_, ?_, ?_, fun i hi => ?_, hothers⟩
  · rw [hpd]; rfl
  · rw [hpd, rotated_width hw hn.2 (by omega)]
  · rw [hpd]; rfl
  · rw [hpd, rotated_coef hw hn.2 (by omega) hi]

end Sys2Proof.Machine

/-! ## Facts for the obligation about long division (42_arithmetic.md R96) -/

namespace Sys2Proof.Machine

open Sys2Proof

/-! ### Highest bits (R27) -/

/-- Hsb of a register whose top coefficient is 1. -/
theorem hsb_of_top {p : PolyReg} {k : Nat} (hk : p.coefOrZero k = true) (hwidth : p.width = k + 1) : p.hsb = k := by
  have hcoef : p.coef k = true := by simpa [coefOrZero_eq, hwidth] using hk
  obtain ⟨hlt, -, hmax⟩ := (highestSetBit p).1 ⟨k, by omega, hcoef⟩
  exact le_antisymm (by omega) (hmax k (by omega) hcoef)

/-- Above Hsb every coefficient is 0. -/
theorem coefOrZero_of_hsb_lt {p : PolyReg} {i : Nat} (h : p.hsb < i) : p.coefOrZero i = false := by
  rw [coefOrZero_eq]
  by_contra hset
  obtain ⟨hi, hcoef⟩ : i < p.width ∧ p.coef i = true := by simpa using hset
  obtain ⟨-, -, hmax⟩ := (highestSetBit p).1 ⟨i, hi, hcoef⟩
  exact absurd (hmax i hi hcoef) (not_le.mpr h)

/-- A positive Hsb is the index of a coefficient that is 1. -/
theorem coefOrZero_hsb {p : PolyReg} (h : 0 < p.hsb) : p.coefOrZero p.hsb = true := by
  have hexists : ∃ i, i < p.width ∧ p.coef i = true := by
    by_contra hno
    have hnone : ∀ i, i < p.width → p.coef i = false := fun i hi => by
      by_contra hset
      exact hno ⟨i, hi, by simpa using hset⟩
    exact absurd ((highestSetBit p).2 hnone) (Nat.ne_of_gt h)
  obtain ⟨hlt, hset, -⟩ := (highestSetBit p).1 hexists
  rw [coefOrZero_of_lt hlt, hset]

/-! ### The divisor and its shifts -/

/-- Coefficient j of the divisor times x^i. -/
theorem shiftOf_coefOrZero {d : PolyReg} {i : Nat} (h : d.width + i < 2 ^ 32) (j : Nat) :
    (shiftOf d i).coefOrZero j = (decide (i ≤ j) && d.coefOrZero (j - i)) := by
  rw [(shiftOf_fresh d h).coefOrZero, coefOrZero_eq]
  by_cases hij : i ≤ j
  · have hlt : decide (j < d.width + i) = decide (j - i < d.width) := decide_eq_decide.mpr (by omega)
    rw [decide_eq_true hij, Bool.true_and, Bool.true_and, hlt]
  · simp [hij]

/-- A divisor as R96 asks: its top coefficient, of index k, is 1. -/
structure Divisor (d : PolyReg) (k : Nat) : Prop where
  readable : d.Readable
  width    : d.width = k + 1
  top      : d.coefOrZero k = true

theorem Divisor.shift_hsb {d : PolyReg} {k : Nat} (h : Divisor d k) {i : Nat} (hi : d.width + i < 2 ^ 32) :
    (shiftOf d i).hsb = k + i := by
  have hwidth := (shiftOf_fresh d hi).width
  refine hsb_of_top ?_ (by rw [hwidth, h.width]; omega)
  rw [shiftOf_coefOrZero hi, Nat.add_sub_cancel, h.top]
  simp

theorem Divisor.degree_le {d : PolyReg} {k : Nat} (h : Divisor d k) : (ringPoly d).degree ≤ k := by
  rw [Polynomial.degree_le_iff_coeff_zero]
  intro m hm
  have hkm : k < m := by exact_mod_cast hm
  rw [coeff_ringPoly, coefOrZero_of_width_le (by rw [h.width]; omega)]
  rfl

theorem Divisor.coeff_top {d : PolyReg} {k : Nat} (h : Divisor d k) : (ringPoly d).coeff k = 1 := by
  rw [coeff_ringPoly, h.top]
  rfl

theorem Divisor.monic {d : PolyReg} {k : Nat} (h : Divisor d k) : (ringPoly d).Monic :=
  Polynomial.monic_of_degree_le k h.degree_le h.coeff_top

theorem Divisor.degree {d : PolyReg} {k : Nat} (h : Divisor d k) : (ringPoly d).degree = k :=
  Polynomial.degree_eq_of_le_of_coeff_ne_zero h.degree_le (h.coeff_top ▸ one_ne_zero)

/-- What is left below the divisor's degree is the remainder. -/
theorem Divisor.modByMonic_eq {d n r : PolyReg} {k : Nat} (h : Divisor d k)
    (hhigh : ∀ j, k ≤ j → r.coefOrZero j = false) (hmul : ringPoly d ∣ ringPoly n - ringPoly r) :
    ringPoly r = ringPoly n %ₘ ringPoly d := by
  obtain ⟨q, hq⟩ := hmul
  have hdegree : (ringPoly r).degree < (ringPoly d).degree := by
    rw [h.degree, Polynomial.degree_lt_iff_coeff_zero]
    intro j hj
    rw [coeff_ringPoly, hhigh j hj]
    rfl
  exact (Polynomial.div_modByMonic_unique q _ h.monic ⟨by rw [← hq]; ring, hdegree⟩).2.symm

/-! ### One pass of the loop -/

/-- The loop invariant of R96, before the passes at i - 1 down to 0: pn differs from N by a multiple of D and has no
coefficient at or above x^(k + i), where k is the degree of D. -/
structure Dividing (pn pd : Reg) (k : Nat) (s : State) (i : Nat) (t : State) : Prop where
  idle     : t.phase = .idle
  err      : t.err = false
  cfg      : t.cfg = s.cfg
  divisor  : t.poly pd = s.poly pd
  readable : (t.poly pn).Readable
  order    : (t.poly pn).order = (s.poly pn).order
  width    : (t.poly pn).width = (s.poly pn).width
  high     : ∀ j, k + i ≤ j → (t.poly pn).coefOrZero j = false
  multiple : ringPoly (s.poly pd) ∣ ringPoly (s.poly pn) - ringPoly (t.poly pn)

/-- The XOR of a pass takes the coefficient at x^(k + i) away. -/
theorem xorOf_shiftOf_high {n d : PolyReg} {k i : Nat} (h : Divisor d k) (hi : d.width + i < 2 ^ 32)
    (hhigh : ∀ j, k + (i + 1) ≤ j → n.coefOrZero j = false) (hset : n.coefOrZero (k + i) = true) :
    ∀ j, k + i ≤ j → (xorOf n (shiftOf d i)).coefOrZero j = false := by
  intro j hj
  rw [xorOf_coefOrZero, shiftOf_coefOrZero hi, decide_eq_true (show i ≤ j by omega), Bool.true_and]
  rcases Nat.eq_or_lt_of_le hj with rfl | hlt
  · rw [hset, Nat.add_sub_cancel, h.top]
    rfl
  · rw [hhigh j (by omega), coefOrZero_of_width_le (by rw [h.width]; omega)]
    rfl

/-- What DIVT tells a pass: nothing is left above x^(k + i), so a Hsb that is not below it is there. -/
theorem coefOrZero_of_le_hsb {n : PolyReg} {k i : Nat} (hk : 1 ≤ k)
    (hhigh : ∀ j, k + (i + 1) ≤ j → n.coefOrZero j = false) (hle : k + i ≤ n.hsb) : n.coefOrZero (k + i) = true := by
  have hset := coefOrZero_hsb (p := n) (by omega)
  have heq : n.hsb = k + i := by
    by_contra hne
    simp [hhigh n.hsb (by omega)] at hset
  rwa [heq] at hset

/-- DIVT of the host, as it reads FLAG after it. -/
theorem issue_divt {s : State} (he : s.err = false) {ra rb : Reg} {p q : PolyReg} (hp : s.poly ra = p)
    (hq : s.poly rb = q) (hreadp : p.Readable) (hreadq : q.Readable) (ho : p.order = q.order) :
    ∃ t, issue (line (.divt ra rb)) s = .next t ∧ t.phase = .idle ∧ t.err = false ∧ t.cfg = s.cfg ∧
      t.flag = decide (q.hsb ≤ p.hsb) ∧ KeepsPolys s t := by
  subst hp hq
  exact ⟨_, (issue_line he _).trans (exec_divt_of_order_eq (s := s.started (.divt ra rb)) hreadp hreadq ho), rfl, he,
    rfl, rfl, fun _ => rfl⟩

/-- FLAG as the host reads it after a STATUS read (R96). -/
theorem flagRead_statusRead (s : State) : flagRead (s.respond (.readDone s.statusWord)) = s.flag := by
  obtain ⟨-, -, hflag, -⟩ := statusWord_fields s
  exact hflag

section
variable {s : State} {pn pd pt : Reg} {k : Nat} (hlegal : s.cfg.Legal) (hd : Divisor (s.poly pd) k) (hk : 1 ≤ k)
  (ho : (s.poly pn).order = (s.poly pd).order) (hfit : (s.poly pn).width ≤ 8 * s.cfg.capb) (hnd : pn ≠ pd)
  (hnt : pn ≠ pt) (hdt : pd ≠ pt)
include hlegal hd hk ho hfit hnd hnt hdt

/-- A pass at i clears the coefficient at x^(k + i) by taking x^i * D away, when it is set. -/
theorem longDivisionPass_dividing {t : State} {i : Nat} (h : Dividing pn pd k s (i + 1) t)
    (hi : k + 1 + i ≤ (s.poly pn).width) :
    ∃ u, longDivisionPass pn pd pt i t = .next u ∧ Dividing pn pd k s i u := by
  have hcapb : s.cfg.capb ≤ 2048 := hlegal.2
  have hsmall : (s.poly pd).width + i < 2 ^ 32 := by rw [hd.width]; omega
  have hshift := shiftOf_fresh (s.poly pd) hsmall
  obtain ⟨t1, e1, h1⟩ := issue_shl (s := t.withArgs (BitVec.ofNat 32 i) t.arg1 t.arg2) h.err pt (ra := pd)
    h.divisor hd.readable rfl (by show _ ≤ 8 * t.cfg.capb; rw [h.cfg, hd.width]; omega) (by omega)
  have hpn1 : t1.poly pn = t.poly pn := h1.others pn hnt
  have hpd1 : t1.poly pd = s.poly pd := (h1.others pd hdt).trans h.divisor
  obtain ⟨t2, e2, hidle2, herr2, hcfg2, hflag, hpolys⟩ := issue_divt h1.err hpn1 h1.same h.readable hshift.readable
    (h.order.trans ho)
  have hcfg : t2.cfg = s.cfg := hcfg2.trans (h1.cfg.trans h.cfg)
  have hrun : issueAll [setArg0 (BitVec.ofNat 32 i), line (.shl pt pd), line (.divt pn pt), r32 0x004] t =
      .next (t2.respond (.readDone t2.statusWord)) := by
    rw [issueAll_cons_of_next (issue_setArg0 h.idle _), issueAll_cons_of_next e1, issueAll_cons_of_next e2,
      issueAll_cons_of_next (issue_statusRead hidle2), issueAll]
  rw [longDivisionPass, hrun, andThen, flagRead_statusRead, hflag, hd.shift_hsb hsmall]
  by_cases hle : k + i ≤ (t.poly pn).hsb
  · obtain ⟨t3, e3, h3⟩ := issue_xor (s := t2.respond (.readDone t2.statusWord)) herr2 pn
      (ra := pn) (rb := pt) ((hpolys pn).trans hpn1) h.readable ((hpolys pt).trans h1.same) hshift.readable
      (h.order.trans ho)
    rw [if_pos (decide_eq_true hle)]
    have hsum := xorOf_fresh (t.poly pn) (shiftOf (s.poly pd) i)
    refine ⟨t3, e3, h3.idle, h3.err, h3.cfg.trans hcfg, ?_, ?_, ?_, ?_, ?_, ?_⟩
    · exact (h3.others pd hnd.symm).trans ((hpolys pd).trans hpd1)
    · rw [h3.same]; exact hsum.readable
    · rw [h3.same]; exact h.order
    · rw [h3.same, hsum.width, hshift.width, h.width, hd.width]; omega
    · rw [h3.same]; exact xorOf_shiftOf_high hd hsmall h.high (coefOrZero_of_le_hsb hk h.high hle)
    · rw [h3.same, ringPoly_xorOf, ringPoly_shiftOf _ hsmall, ← sub_sub]
      exact dvd_sub h.multiple (Dvd.intro_left _ rfl)
  · rw [if_neg (by simpa using hle)]
    have hpn : t2.poly pn = t.poly pn := (hpolys pn).trans hpn1
    refine ⟨_, rfl, hidle2, herr2, hcfg, (hpolys pd).trans hpd1, ?_, ?_, ?_, ?_, ?_⟩
    all_goals rw [State.respond_poly, hpn]
    · exact h.readable
    · exact h.order
    · exact h.width
    · exact fun j hj => coefOrZero_of_hsb_lt (by omega)
    · exact h.multiple

/-- The passes at i - 1 down to 0. -/
theorem longDivisionLoop_dividing {i : Nat} {t : State} (h : Dividing pn pd k s i t) (hi : k + i ≤ (s.poly pn).width) :
    ∃ u, longDivisionLoop pn pd pt i t = .next u ∧ Dividing pn pd k s 0 u := by
  induction i generalizing t with
  | zero => exact ⟨t, rfl, h⟩
  | succ i ih =>
    obtain ⟨u, hpass, hu⟩ := longDivisionPass_dividing hlegal hd hk ho hfit hnd hnt hdt h (by omega)
    rw [longDivisionLoop, hpass, andThen]
    exact ih hu (by omega)

end

/-- The loop starts with N itself. -/
theorem dividing_start {s : State} {pn pd : Reg} {k i : Nat} (hp : s.phase = .idle) (he : s.err = false)
    (hn : (s.poly pn).Readable) (hi : (s.poly pn).width ≤ k + i) : Dividing pn pd k s i s where
  idle := hp
  err := he
  cfg := rfl
  divisor := rfl
  readable := hn
  order := rfl
  width := rfl
  high := fun j hj => coefOrZero_of_width_le (hi.trans hj)
  multiple := by rw [sub_self]; exact dvd_zero _

/-- The low k coefficients of a register that has none above are the same polynomial. -/
theorem ringPoly_low {r : PolyReg} {k : Nat} (hk : k < r.width) (hhigh : ∀ j, k ≤ j → r.coefOrZero j = false) :
    ringPoly (sliceOf r (seq 0 k 1)) = ringPoly r := by
  have hwidth : r.width < 2 ^ 32 := r.bits.isLt
  ext j
  rw [coeff_ringPoly, coeff_ringPoly, (sliceOf_seq_one_fresh r (by omega)).coefOrZero, Nat.sub_zero, Nat.zero_add]
  rcases Nat.lt_or_ge j k with hj | hj
  · rw [coefOrZero_of_lt (by omega), decide_eq_true hj, Bool.true_and]
  · rw [hhigh j hj, decide_eq_false (not_lt.mpr hj), Bool.false_and]

end Sys2Proof.Machine

/-! ## The obligation about long division -/

namespace Sys2Proof.Machine

open Sys2Proof

/-- Settles O30: the loop invariant after the last pass says that pn holds the remainder, and the last SLICE copies its
low coefficients. -/
theorem longDivisionLeavesTheRemainder : Obligations.LongDivisionLeavesTheRemainder := by
  intro poly hpoly s pn pd pt pc hlegal hp he hdistinct hn hread ho hfit hwd hle htop
  obtain rfl : poly = ringPoly := funext hpoly
  obtain ⟨k, hwidth⟩ : ∃ k, (s.poly pd).width = k + 1 := ⟨(s.poly pd).width - 1, by omega⟩
  have hcapb : s.cfg.capb ≤ 2048 := hlegal.2
  simp only [List.nodup_cons, List.mem_cons, List.not_mem_nil, or_false, not_or] at hdistinct
  obtain ⟨⟨hnd, hnt, hnc⟩, ⟨hdt, hdc⟩, -⟩ := hdistinct
  rw [hwidth, Nat.add_sub_cancel] at htop
  have hd : Divisor (s.poly pd) k :=
    ⟨hread, hwidth, (coefOrZero_of_lt (by omega)).trans htop⟩
  have hpasses : longDivisionPasses (s.poly pn).width (s.poly pd).width = (s.poly pn).width - k := by
    rw [longDivisionPasses, if_pos hle, hwidth]
    omega
  obtain ⟨u, hloop, hu⟩ := longDivisionLoop_dividing (pt := pt) hlegal hd (by omega) ho hfit hnd hnt hdt
    (dividing_start (i := (s.poly pn).width - k) hp he hn (by omega)) (by omega)
  have hrem := hd.modByMonic_eq hu.high hu.multiple
  have hstop : BitVec.ofInt 32 ((s.poly pd).width - 1) = BitVec.ofNat 32 k := by
    rw [hwidth, Nat.cast_add, Nat.cast_one, add_sub_cancel_right, BitVec.ofInt_natCast]
  obtain ⟨v, hslice, hv⟩ := issue_slice (s := u.withArgs 0 (BitVec.ofNat 32 k) 1) hu.err pc (ra := pn) (p := u.poly pn)
    rfl hu.readable (a := 0) rfl rfl rfl (by rw [hu.width]; omega) (by rw [hu.width]; omega) (by rw [hu.width]; omega)
  have hpn : v.poly pn = u.poly pn := hv.others pn hnc
  have hlow := sliceOf_seq_one_fresh (u.poly pn) (a := 0) (b := k) (by omega)
  refine ⟨v, ?_, hv.err, hv.idle, ?_, ?_, ?_, ?_, (hv.others pd hdc).trans hu.divisor⟩
  · rw [longDivision, hpasses, hloop, andThen, hstop, issueAll_setArg012 hu.idle, issueAll_cons_of_next hslice,
      issueAll]
  · rw [hpn, hu.width]
  · rw [hpn, hrem]
  · rw [hv.same, hlow.width, hwidth]
    rfl
  · rw [hv.same, ringPoly_low (by rw [hu.width]; omega) (by simpa using hu.high), hrem]

end Sys2Proof.Machine
